-- ==== Sys2Proof/Word.lean ====
section
/-! DEFINITION. Word.lean: the plain types everything else is built from: bytes, samples, pad and slot indices, the
axis names of the event sink, and the records of the two histories `WIRE` and `EVENTS` (R7, R11, R23, R31, R50). -/
namespace Sys2Proof

/-- One byte of a transfer (R34). -/
abbrev Byte := BitVec 8

/-- One raw-sample slot's value: `SAMPLE_W` = 16 bits, unsigned (R5, R11, D1). -/
abbrev Sample := BitVec 16

/-- A pad index, 0 or 1 (R5 `N_PADS_MAX`, R133). -/
abbrev PadIx := Fin 2

/-- A slot of a pad's raw-sample array, 0 to 15 (R11, R12). -/
abbrev SlotIx := Fin 16

/-- Three bytes: a request frame `tx[0..2]` or a response `rx[0..2]` (R22, R46, R47). -/
structure Frame where
  b0 : Byte
  b1 : Byte
  b2 : Byte
deriving DecidableEq, Repr, Inhabited

/-- The bytes of a frame in the order they go over the link, byte 0 first (R33). -/
def Frame.bytes (f : Frame) : List Byte := [f.b0, f.b1, f.b2]

/-- The two hat axes of `NORM.HAT`: vertical is slots 0 and 1, horizontal slots 2 and 3 (R90). -/
inductive HatAxis where
  | vertical
  | horizontal
deriving DecidableEq, Repr

/-- `AXIS_ID`: the six axis identifiers, symbolic in the spec (R5, D18). -/
inductive Axis where
  | hatX
  | hatY
  | absRY
  | absRX
  | absY
  | absX
deriving DecidableEq, Repr

/-- The pull modes the block asks for: pull-up only (R82, D11). -/
inductive PullMode where
  | up
deriving DecidableEq, Repr

/-- One entry of the history `WIRE` (R23): a Pin Interface call (R31) or the delay marker (R8). -/
inductive WireEntry where
  /-- `SI(pin)`: the pin was made an input. -/
  | si (pin : Nat)
  /-- `SO(pin)`: the pin was made an output. -/
  | so (pin : Nat)
  /-- `W(pin, v)`: the pin's output latch was written. -/
  | w (pin : Nat) (v : Bool)
  /-- `R(pin) = v`: the pin was read and the environment answered `v`. -/
  | r (pin : Nat) (v : Bool)
  /-- `PULL(mask, mode)`; bit `n` of `mask` is 1 exactly when pin `n` is in the set (R52). -/
  | pull (mask : Nat) (mode : PullMode)
  /-- `D`: the half-cycle delay `T_HALF`, which carries no time (R8, D8). -/
  | d
deriving DecidableEq, Repr

/-- One event record, a call on a pad's event sink (R50). -/
inductive Event where
  /-- `ABS(id, value, min, max, flat, fuzz)`. -/
  | abs (id : Axis) (value min max : Int) (flat fuzz : Nat)
  /-- `KEY(k, pressed)`, reported to the sink as `BTN_CODE[k]` (R92, D18). -/
  | key (k : Fin 8) (pressed : Bool)
  /-- `SYN`, the synchronisation marker (R93). -/
  | syn
deriving DecidableEq, Repr

end Sys2Proof
end

