-- ==== Sys2Proof/Config.lean ====
section
/-! DEFINITION. Config.lean: the parameters of rule R5 (00_scope.md) and the free values. A parameter the source fixes
is a constant with its value; a parameter the source leaves open, and every answer that the environment gives past the
end of its script, is an `opaque` constant with no body, so that no proof can use a value of it (log 8, 9, 10, 31). -/
namespace Sys2Proof.Config

/-- How far `PIN_MAX` lies above 27: open (R5, D29, U23). Log 10. -/
opaque pinMaxExtra : Nat

/-- `PIN_MAX`, the largest valid pin number: open, at least 27 (R30, U23). Log 10. -/
def pinMax : Nat := pinMaxExtra + 27

/-- A valid pin number, 0 to `PIN_MAX` (R30). -/
abbrev PinNo := Fin (pinMax + 1)

/-- Four valid pin numbers for the link, the domain of `DEFAULT_LINK_PINS` (R14). -/
structure LinkPinNos where
  clk : PinNo
  dout : PinNo
  din : PinNo
  sel : PinNo
deriving DecidableEq, Repr, Inhabited

/-- `DEFAULT_LINK_PINS`: open, "defaulting to a fixed set" that the source never lists (R5, N3, U9). Log 10. -/
opaque defaultLinkPins : LinkPinNos

/-- `PINMAP_A`, the fixed map of type FixedMapA: open; `none` is `UNUSED` (R5, N1, U7). Log 10. -/
opaque pinMapA : Vector (Option PinNo) 12

/-- `PINMAP_B`, the fixed map of type FixedMapB: open; `none` is `UNUSED` (R5, N1, U7). Log 10. -/
opaque pinMapB : Vector (Option PinNo) 12

/-- `BTN_CODE[0..7]`, the button identity table: open (R5, R18, N2, U8). Log 10. -/
opaque btnCode : Fin 8 → Nat

/-- The free answer of the environment to a read of `pin` after the history `past` of earlier sets and `wire` of the
present one: any level, and it may depend on the whole history (R31, D32, U10, U12). Log 8. -/
opaque pinLevel (pin : Nat) (past wire : List WireEntry) : Bool

/-- The free answer to "does the `n`-th draw's sink allocation fail" (R122, U21). Log 9. -/
opaque sinkAllocFails (n : Nat) : Bool

/-- The free answer to "is the `n`-th draw's wait for the mutex interrupted" (R123, D36, U21). Log 9. -/
opaque attachInterrupted (n : Nat) : Bool

/-- The free content of `tx` once ADC.RDCH has ended with the history `past`, `wire`: R22 lets the buffer live only for that one
operation. Log 31. -/
opaque leftTx (past wire : List WireEntry) : Frame

/-- The free content of `rx` once ADC.RDCH has ended with the history `past`, `wire` (R22). Log 31. -/
opaque leftRx (past wire : List WireEntry) : Frame

/-- `ADC_MAX` (R5). -/
def adcMax : Nat := 1023

/-- `ABS_FLAT`, passed through to the sink (R5, R91, D19; unaudited literal U3). -/
def absFlat : Nat := 4

/-- `ABS_FUZZ`, passed through to the sink (R5, R91, D19; unaudited literal U3). -/
def absFuzz : Nat := 8

/-- `SELECT_ACTIVE`: the level of chip-select that opens an exchange (R5, D4). -/
def selectActive : Bool := false

/-- `PULL_MODE` (R5, R82, D11). -/
def pullMode : PullMode := .up

/-- `T_HALF` in microseconds: recorded, no rule depends on it (R5, R151, U1). Log 22. -/
def tHalfMicroseconds : Nat := 100

/-- `T_TICK` in microseconds, "about 10 ms": recorded, no rule depends on it (R5, R151, U2). Log 22. -/
def tTickMicroseconds : Nat := 10000

end Sys2Proof.Config
end

