-- ==== Sys2Proof/Syntax.lean ====
section
/-! DEFINITION. Syntax.lean: the instructions, one constructor per row of spec/opcode_table.json: the 24 operations of
`MKAQ-OPS` (R54) and the four request frames of format `REQ24` (R46, R70); and the packets a command arrives in: its
word, then its operand data (R53, R57). -/
namespace Sys2Proof

/-- The pad type a configuration names: one of the three known types, "none", or an unknown value (R13, R106). -/
inductive CfgType where
  | none
  | fixedMapA
  | fixedMapB
  | custom
  | unknown (code : Nat)
deriving DecidableEq, Repr

/-- A pad configuration as a caller supplies it (R13, R106): the pin map counts only for type Custom and may have any
length; −1 is `UNUSED`. -/
structure PadCfg where
  type : CfgType
  pinMap : List Int
  physId : String
deriving DecidableEq, Repr

/-- The instructions. A channel is written in the converter's own channel space, 0 to 7, of which the block uses 0 to
3 (R30, R55); a slot operand is the 4-bit field of `CMD16`, of which 0 to 11 are digital slots (R54). -/
inductive Instr where
  /-- `LINK.INIT` (R60). -/
  | linkInit
  /-- `LINK.BIT b` (R61). -/
  | linkBit (b : Bool)
  /-- `LINK.BYTE v` (R62). -/
  | linkByte (v : Byte)
  /-- `LINK.XFER n, tx` (R63). -/
  | linkXfer (n : Byte) (tx : List Byte)
  /-- `ADC.REQ c` (R70). -/
  | adcReq (c : Fin 8)
  /-- `ADC.DEC` (R71). -/
  | adcDec
  /-- `ADC.RDCH p, c` (R72). -/
  | adcRdch (p : PadIx) (c : Fin 8)
  /-- `ADC.RDAX p` (R73). -/
  | adcRdax (p : PadIx)
  /-- `DIG.RDSLOT p, s` (R80). -/
  | digRdslot (p : PadIx) (slot : SlotIx)
  /-- `DIG.RDBTN p` (R81). -/
  | digRdbtn (p : PadIx)
  /-- `DIG.PULL p` (R82). -/
  | digPull (p : PadIx)
  /-- `NORM.HAT p, a` (R90). -/
  | normHat (p : PadIx) (a : HatAxis)
  /-- `NORM.ABS p, k` (R91). -/
  | normAbs (p : PadIx) (k : Fin 4)
  /-- `NORM.KEY p, k` (R92). -/
  | normKey (p : PadIx) (k : Fin 8)
  /-- `NORM.SYNC p` (R93). -/
  | normSync (p : PadIx)
  /-- `NORM.FLUSH p` (R94). -/
  | normFlush (p : PadIx)
  /-- `SCHED.PASS` (R100). -/
  | schedPass
  /-- `SCHED.TICK` (R101). -/
  | schedTick
  /-- `LIFE.ATTACH p` (R103). -/
  | lifeAttach (p : PadIx)
  /-- `LIFE.DETACH p` (R104). -/
  | lifeDetach (p : PadIx)
  /-- `SETUP.LINKCFG clk, dout, din, sel` (R105). -/
  | setupLinkcfg (clk dout din sel : Int)
  /-- `SETUP.PAD p, cfg` (R106). -/
  | setupPad (p : PadIx) (cfg : PadCfg)
  /-- `LIFE.CREATE cfgs` (R107). -/
  | lifeCreate (cfgs : List PadCfg)
  /-- `LIFE.DESTROY` (R108). -/
  | lifeDestroy
  /-- The request frame of channel 0, `01 80 00` (R46, R70). -/
  | adcReqCh0
  /-- The request frame of channel 1, `01 90 00` (R46, R70). -/
  | adcReqCh1
  /-- The request frame of channel 2, `01 A0 00` (R46, R70). -/
  | adcReqCh2
  /-- The request frame of channel 3, `01 B0 00` (R46, R70). -/
  | adcReqCh3
deriving DecidableEq, Repr

/-- One item of the operand data that follows a command word (R53, R57): a byte of a transfer, a pin identifier, or a
pad configuration. The spec gives the last two no bits, so they are carried as the values they are (log 11). -/
inductive Datum where
  | byte (b : Byte)
  | pin (n : Int)
  | cfg (c : PadCfg)
deriving DecidableEq, Repr

/-- What a command arrives as: a `CMD16` word with its operand data (R53, R57), or a `REQ24` pattern (R46). -/
inductive Packet where
  | cmd (word : BitVec 16) (data : List Datum)
  | frame (word : BitVec 24)
deriving DecidableEq, Repr

end Sys2Proof
end

