-- ==== Sys2Proof/WellFormed.lean ====
section
/-! DEFINITION. WellFormed.lean: the operand ranges the encoding admits (R54, R55): a channel select is 0 to 3, a slot
of DIG.RDSLOT is 0 to 11. Every other operand's range is its type. -/
namespace Sys2Proof

/-- The instruction's operands lie in the ranges its `CMD16` row admits (R54, R55). -/
def Instr.wellFormed : Instr → Bool
  | .adcReq c => decide (c.val < 4)
  | .adcRdch _ c => decide (c.val < 4)
  | .digRdslot _ slot => decide (slot.val < 12)
  | .linkInit | .linkBit _ | .linkByte _ | .linkXfer _ _ | .adcDec | .adcRdax _ | .digRdbtn _ | .digPull _
  | .normHat _ _ | .normAbs _ _ | .normKey _ _ | .normSync _ | .normFlush _ | .schedPass | .schedTick
  | .lifeAttach _ | .lifeDetach _ | .setupLinkcfg _ _ _ _ | .setupPad _ _ | .lifeCreate _ | .lifeDestroy
  | .adcReqCh0 | .adcReqCh1 | .adcReqCh2 | .adcReqCh3 => true

end Sys2Proof
end

