-- ==== Sys2Proof/Decode.lean ====
section
/-! DEFINITION. Decode.lean: from a packet to an instruction or a rejection by name, and after it the encoder. A `CMD16`
word is read by its three fields, family 15:12, operation 11:8, argument 7:0 (R53), the unnamed argument bits being 0
(R54, R55); a `REQ24` pattern is one of the four frames the block issues (R46, R55). -/
namespace Sys2Proof

/-- Why the decoder rejects a packet. -/
inductive Reject where
  /-- A `CMD16` word that matches no row of R54 (R55). -/
  | illegalCommand (word : BitVec 16)
  /-- A known word whose operand data is not of the kind and number R57 names (log 11). -/
  | operandData (word : BitVec 16)
  /-- A `REQ24` frame of channel select 4 to 7: it exists on the wire and the block never sends it (R55, U5). -/
  | frameChannel (word : BitVec 24)
  /-- A 24-bit pattern that is no request frame: `sgl` 0, `start` elsewhere or non-zero padding (R55). -/
  | frameNotIssued (word : BitVec 24)
deriving DecidableEq, Repr

/-- Field `fam`, bits 15:12 of a command word (R53). -/
def cmdFam (w : BitVec 16) : Nat := w.toNat / 4096

/-- Field `op`, bits 11:8 of a command word (R53). -/
def cmdOp (w : BitVec 16) : Nat := w.toNat / 256 % 16

/-- Field `arg`, bits 7:0 of a command word (R53). -/
def cmdArg (w : BitVec 16) : Nat := w.toNat % 256

/-- A pad index from a bit of the argument. -/
def padOfBit (n : Nat) : PadIx := Fin.ofNat 2 n

/-- The hat axis from its bit: 0 vertical, 1 horizontal (R90). -/
def hatOfBit (n : Nat) : HatAxis := if n % 2 = 0 then .vertical else .horizontal

/-- Operand data that is a list of bytes and nothing else. -/
def bytesOf : List Datum → Option (List Byte)
  | [] => some []
  | .byte b :: rest => (bytesOf rest).map (b :: ·)
  | .pin _ :: _ => none
  | .cfg _ :: _ => none

/-- Operand data that is a list of pad configurations and nothing else. -/
def cfgsOf : List Datum → Option (List PadCfg)
  | [] => some []
  | .cfg c :: rest => (cfgsOf rest).map (c :: ·)
  | .byte _ :: _ => none
  | .pin _ :: _ => none

/-- An operation without operand data, admitted when its argument field is legal. -/
def plain (w : BitVec 16) (data : List Datum) (legal : Bool) (i : Instr) : Except Reject Instr :=
  if legal then (if data.isEmpty then .ok i else .error (.operandData w)) else .error (.illegalCommand w)

/-- An operation with operand data, admitted when its argument field is legal and the data is what R57 names. -/
def withData (w : BitVec 16) (legal : Bool) (i : Option Instr) : Except Reject Instr :=
  if legal then (match i with | some j => .ok j | none => .error (.operandData w)) else .error (.illegalCommand w)

/-- Family 1, the Serial Link Driver (R54). -/
def decodeLink (w : BitVec 16) (data : List Datum) : Except Reject Instr :=
  let arg := cmdArg w
  match cmdOp w with
  | 0 => plain w data (arg == 0) .linkInit
  | 1 => plain w data (decide (arg < 2)) (.linkBit (arg == 1))
  | 2 => plain w data true (.linkByte (BitVec.ofNat 8 arg))
  | 3 => withData w true ((bytesOf data).map (.linkXfer (BitVec.ofNat 8 arg)))
  | _ => .error (.illegalCommand w)

/-- Family 2, the ADC Channel Reader (R54). -/
def decodeAdc (w : BitVec 16) (data : List Datum) : Except Reject Instr :=
  let arg := cmdArg w
  match cmdOp w with
  | 0 => plain w data (decide (arg < 4)) (.adcReq (Fin.ofNat 8 (arg % 4)))
  | 1 => plain w data (arg == 0) .adcDec
  | 2 => plain w data (decide (arg < 8)) (.adcRdch (padOfBit (arg / 4)) (Fin.ofNat 8 (arg % 4)))
  | 3 => plain w data (decide (arg < 2)) (.adcRdax (padOfBit arg))
  | _ => .error (.illegalCommand w)

/-- Family 3, the Digital Sample Reader (R54); slots 12 to 15 of DIG.RDSLOT are illegal (R55). -/
def decodeDig (w : BitVec 16) (data : List Datum) : Except Reject Instr :=
  let arg := cmdArg w
  match cmdOp w with
  | 0 => plain w data (decide (arg < 32) && decide (arg % 16 < 12)) (.digRdslot (padOfBit (arg / 16)) (Fin.ofNat 16 (arg % 16)))
  | 1 => plain w data (decide (arg < 2)) (.digRdbtn (padOfBit arg))
  | 2 => plain w data (decide (arg < 2)) (.digPull (padOfBit arg))
  | _ => .error (.illegalCommand w)

/-- Family 4, the Event Normalizer (R54). -/
def decodeNorm (w : BitVec 16) (data : List Datum) : Except Reject Instr :=
  let arg := cmdArg w
  match cmdOp w with
  | 0 => plain w data (decide (arg < 4)) (.normHat (padOfBit (arg / 2)) (hatOfBit arg))
  | 1 => plain w data (decide (arg < 8)) (.normAbs (padOfBit (arg / 4)) (Fin.ofNat 4 (arg % 4)))
  | 2 => plain w data (decide (arg < 16)) (.normKey (padOfBit (arg / 8)) (Fin.ofNat 8 (arg % 8)))
  | 3 => plain w data (decide (arg < 2)) (.normSync (padOfBit arg))
  | 4 => plain w data (decide (arg < 2)) (.normFlush (padOfBit arg))
  | _ => .error (.illegalCommand w)

/-- The four pin identifiers of SETUP.LINKCFG, in the order clock, data-out, data-in, select (R57, R58). -/
def linkcfgOf : List Datum → Option Instr
  | [.pin clk, .pin dout, .pin din, .pin sel] => some (.setupLinkcfg clk dout din sel)
  | _ => none

/-- The one pad configuration of SETUP.PAD (R57). -/
def setupPadOf (p : PadIx) : List Datum → Option Instr
  | [.cfg c] => some (.setupPad p c)
  | _ => none

/-- Family 5, scheduler, lifecycle and setup (R54). -/
def decodeControl (w : BitVec 16) (data : List Datum) : Except Reject Instr :=
  let arg := cmdArg w
  match cmdOp w with
  | 0 => plain w data (arg == 0) .schedPass
  | 1 => plain w data (arg == 0) .schedTick
  | 2 => plain w data (decide (arg < 2)) (.lifeAttach (padOfBit arg))
  | 3 => plain w data (decide (arg < 2)) (.lifeDetach (padOfBit arg))
  | 4 => withData w (arg == 0) (linkcfgOf data)
  | 5 => withData w (decide (arg < 2)) (setupPadOf (padOfBit arg) data)
  | 6 => withData w (arg == 0) ((cfgsOf data).map .lifeCreate)
  | 7 => plain w data (arg == 0) .lifeDestroy
  | _ => .error (.illegalCommand w)

/-- A command word and its operand data (R53, R54, R55). -/
def decodeCmd (w : BitVec 16) (data : List Datum) : Except Reject Instr :=
  match cmdFam w with
  | 1 => decodeLink w data
  | 2 => decodeAdc w data
  | 3 => decodeDig w data
  | 4 => decodeNorm w data
  | 5 => decodeControl w data
  | _ => .error (.illegalCommand w)

/-- A request frame: `match = 0x018000 | (ch << 12)`, `mask = 0xFFFFFF` for the four channels the block issues (R46);
channels 4 to 7 and every other pattern are never issued (R55). -/
def decodeFrame (w : BitVec 24) : Except Reject Instr :=
  if w = 0x018000 then .ok .adcReqCh0
  else if w = 0x019000 then .ok .adcReqCh1
  else if w = 0x01A000 then .ok .adcReqCh2
  else if w = 0x01B000 then .ok .adcReqCh3
  else if w &&& 0xFFCFFF = 0x01C000 then .error (.frameChannel w)
  else .error (.frameNotIssued w)

/-- The decoder, total on every packet. -/
def decode : Packet → Except Reject Instr
  | .cmd w data => decodeCmd w data
  | .frame w => decodeFrame w

/-! ### The encoder -/

/-- A command packet from its numeric word (R53). -/
def cmdPacket (n : Nat) (data : List Datum) : Packet := .cmd (BitVec.ofNat 16 n) data

/-- The bit of a hat axis (R90). -/
def hatBit : HatAxis → Nat
  | .vertical => 0
  | .horizontal => 1

/-- The packet of an instruction, from the `CMD16` column of R54 and the frames of R46. -/
def encode : Instr → Packet
  | .linkInit => cmdPacket 0x1000 []
  | .linkBit b => cmdPacket (0x1100 + b.toNat) []
  | .linkByte v => cmdPacket (0x1200 + v.toNat) []
  | .linkXfer n tx => cmdPacket (0x1300 + n.toNat) (tx.map .byte)
  | .adcReq c => cmdPacket (0x2000 + c.val) []
  | .adcDec => cmdPacket 0x2100 []
  | .adcRdch p c => cmdPacket (0x2200 + p.val * 4 + c.val) []
  | .adcRdax p => cmdPacket (0x2300 + p.val) []
  | .digRdslot p slot => cmdPacket (0x3000 + p.val * 16 + slot.val) []
  | .digRdbtn p => cmdPacket (0x3100 + p.val) []
  | .digPull p => cmdPacket (0x3200 + p.val) []
  | .normHat p a => cmdPacket (0x4000 + p.val * 2 + hatBit a) []
  | .normAbs p k => cmdPacket (0x4100 + p.val * 4 + k.val) []
  | .normKey p k => cmdPacket (0x4200 + p.val * 8 + k.val) []
  | .normSync p => cmdPacket (0x4300 + p.val) []
  | .normFlush p => cmdPacket (0x4400 + p.val) []
  | .schedPass => cmdPacket 0x5000 []
  | .schedTick => cmdPacket 0x5100 []
  | .lifeAttach p => cmdPacket (0x5200 + p.val) []
  | .lifeDetach p => cmdPacket (0x5300 + p.val) []
  | .setupLinkcfg clk dout din sel => cmdPacket 0x5400 [.pin clk, .pin dout, .pin din, .pin sel]
  | .setupPad p cfg => cmdPacket (0x5500 + p.val) [.cfg cfg]
  | .lifeCreate cfgs => cmdPacket 0x5600 (cfgs.map .cfg)
  | .lifeDestroy => cmdPacket 0x5700 []
  | .adcReqCh0 => .frame 0x018000
  | .adcReqCh1 => .frame 0x019000
  | .adcReqCh2 => .frame 0x01A000
  | .adcReqCh3 => .frame 0x01B000

/-! ### The operation map of R54 as data -/

/-- One row of the operation map: a word `w` matches it when `w &&& mask = bits` (R54). -/
structure CmdRow where
  mnemonic : String
  bits : BitVec 16
  mask : BitVec 16
deriving DecidableEq, Repr

/-- The 24 rows of R54, their match and mask columns as the spec writes them. -/
def cmdRows : List CmdRow :=
  [⟨"LINK.INIT", 0x1000, 0xFFFF⟩, ⟨"LINK.BIT", 0x1100, 0xFFFE⟩, ⟨"LINK.BYTE", 0x1200, 0xFF00⟩,
   ⟨"LINK.XFER", 0x1300, 0xFF00⟩, ⟨"ADC.REQ", 0x2000, 0xFFFC⟩, ⟨"ADC.DEC", 0x2100, 0xFFFF⟩,
   ⟨"ADC.RDCH", 0x2200, 0xFFF8⟩, ⟨"ADC.RDAX", 0x2300, 0xFFFE⟩, ⟨"DIG.RDSLOT", 0x3000, 0xFFE0⟩,
   ⟨"DIG.RDBTN", 0x3100, 0xFFFE⟩, ⟨"DIG.PULL", 0x3200, 0xFFFE⟩, ⟨"NORM.HAT", 0x4000, 0xFFFC⟩] ++
  [⟨"NORM.ABS", 0x4100, 0xFFF8⟩, ⟨"NORM.KEY", 0x4200, 0xFFF0⟩, ⟨"NORM.SYNC", 0x4300, 0xFFFE⟩,
   ⟨"NORM.FLUSH", 0x4400, 0xFFFE⟩, ⟨"SCHED.PASS", 0x5000, 0xFFFF⟩, ⟨"SCHED.TICK", 0x5100, 0xFFFF⟩,
   ⟨"LIFE.ATTACH", 0x5200, 0xFFFE⟩, ⟨"LIFE.DETACH", 0x5300, 0xFFFE⟩, ⟨"SETUP.LINKCFG", 0x5400, 0xFFFF⟩,
   ⟨"SETUP.PAD", 0x5500, 0xFFFE⟩, ⟨"LIFE.CREATE", 0x5600, 0xFFFF⟩, ⟨"LIFE.DESTROY", 0x5700, 0xFFFF⟩]

/-- A word matches a row (R54). -/
def CmdRow.hit (r : CmdRow) (w : BitVec 16) : Bool := w &&& r.mask == r.bits

/-- The mnemonic of an instruction, as R54 and spec/opcode_table.json write it. -/
def Instr.mnemonic : Instr → String
  | .linkInit => "LINK.INIT"
  | .linkBit _ => "LINK.BIT"
  | .linkByte _ => "LINK.BYTE"
  | .linkXfer _ _ => "LINK.XFER"
  | .adcReq _ => "ADC.REQ"
  | .adcDec => "ADC.DEC"
  | .adcRdch _ _ => "ADC.RDCH"
  | .adcRdax _ => "ADC.RDAX"
  | .digRdslot _ _ => "DIG.RDSLOT"
  | .digRdbtn _ => "DIG.RDBTN"
  | .digPull _ => "DIG.PULL"
  | .normHat _ _ => "NORM.HAT"
  | .normAbs _ _ => "NORM.ABS"
  | .normKey _ _ => "NORM.KEY"
  | .normSync _ => "NORM.SYNC"
  | .normFlush _ => "NORM.FLUSH"
  | .schedPass => "SCHED.PASS"
  | .schedTick => "SCHED.TICK"
  | .lifeAttach _ => "LIFE.ATTACH"
  | .lifeDetach _ => "LIFE.DETACH"
  | .setupLinkcfg _ _ _ _ => "SETUP.LINKCFG"
  | .setupPad _ _ => "SETUP.PAD"
  | .lifeCreate _ => "LIFE.CREATE"
  | .lifeDestroy => "LIFE.DESTROY"
  | .adcReqCh0 => "ADC.REQ.CH0"
  | .adcReqCh1 => "ADC.REQ.CH1"
  | .adcReqCh2 => "ADC.REQ.CH2"
  | .adcReqCh3 => "ADC.REQ.CH3"

/-! ### The table's words, for the host -/

/-- Operand data of zeros for a command word: what its row is followed by when every bit above the word is 0 (R57;
log 11): `n` zero bytes, four pins 0, or one configuration of type 0 with nothing in it. -/
def zeroData (w : BitVec 16) : List Datum :=
  match cmdFam w, cmdOp w with
  | 1, 3 => List.replicate (cmdArg w) (.byte 0)
  | 5, 4 => List.replicate 4 (.pin 0)
  | 5, 5 => [.cfg { type := .none, pinMap := [], physId := "" }]
  | _, _ => []

/-- The packet of a word of the opcode table: 16 bits are a command word, 24 bits a request frame. -/
def tablePacket (nbits w : Nat) : Packet :=
  if nbits = 24 then .frame (BitVec.ofNat 24 w)
  else .cmd (BitVec.ofNat 16 w) (zeroData (BitVec.ofNat 16 w))

/-- The instruction the decoder reads from a word of the opcode table. -/
def decodeTableWord (nbits w : Nat) : Option Instr :=
  match decode (tablePacket nbits w) with
  | .ok i => some i
  | .error _ => none

end Sys2Proof
end

