-- ==== Sys2Proof/Machine/PinTable.lean ====
section
/-! DEFINITION. Machine/PinTable.lean: what the Pin Interface keeps of each pin the block has configured, its direction
(`DIR[pin]`, R15, R31) and its pull setting (R30), as a list of pin and setting pairs in one canonical form: pins strictly
rising, no entry equal to what an unlisted pin holds. -/
namespace Sys2Proof.Machine

/-- `DIR[pin]`: unconfigured, input or output (R10, R15). -/
inductive Dir where
  | unconfigured
  | input
  | output
deriving DecidableEq, Repr

/-- The pull setting of a pin, kept by the Pin Interface (R30, R31). -/
inductive Pull where
  | unset
  | set (mode : PullMode)
deriving DecidableEq, Repr

/-- What is kept of one pin (R30). -/
structure PinCfg where
  dir : Dir
  pull : Pull
deriving DecidableEq, Repr

/-- What a pin the block never touched holds: "unspecified; the block never touches it" (R25). DESIGN CHOICE, log 24. -/
def PinCfg.untouched : PinCfg := { dir := .unconfigured, pull := .unset }

/-- The pins the block has configured, in rising order, without an untouched entry. -/
abbrev PinTable := List (Nat × PinCfg)

/-- What is kept of pin `n`. -/
def PinTable.get (n : Nat) : PinTable → PinCfg
  | [] => PinCfg.untouched
  | e :: t => if e.1 = n then e.2 else PinTable.get n t

/-- The entry for `n`, unless it says what an unlisted pin holds anyway. -/
def PinTable.cons (n : Nat) (c : PinCfg) (t : PinTable) : PinTable :=
  if c = PinCfg.untouched then t else (n, c) :: t

/-- The table in which pin `n` holds `c`, every other pin as before. -/
def PinTable.put (n : Nat) (c : PinCfg) : PinTable → PinTable
  | [] => PinTable.cons n c []
  | e :: t =>
    if n < e.1 then PinTable.cons n c (e :: t)
    else if n = e.1 then PinTable.cons n c t
    else e :: PinTable.put n c t

/-- The canonical form: pins strictly rising, no untouched entry. -/
abbrev PinTable.wf (t : PinTable) : Prop :=
  (t.map Prod.fst).Pairwise (· < ·) ∧ ∀ e ∈ t, e.2 ≠ PinCfg.untouched

/-- `DIR[n] <- d`, the pull setting kept (R31). -/
def PinTable.setDir (n : Nat) (d : Dir) (t : PinTable) : PinTable :=
  PinTable.put n { PinTable.get n t with dir := d } t

/-- The pull setting of pin `n` becomes `p`, the direction kept (R31). -/
def PinTable.setPull (n : Nat) (p : Pull) (t : PinTable) : PinTable :=
  PinTable.put n { PinTable.get n t with pull := p } t

end Sys2Proof.Machine
end

