-- ==== Sys2Proof/Machine/State.lean ====
section
/-! DEFINITION. Machine/State.lean: everything the spec gives the block (R10 to R27, 10_state.md), the histories a model
keeps (R23), the inputs still to come (R156), the reasons a step can stop, and the state after reset (R25). -/
namespace Sys2Proof.Machine

/-- `PAD[p].type` (R13): `none` marks an absent pad. -/
inductive PadType where
  | none
  | fixedMapA
  | fixedMapB
  | custom
deriving DecidableEq, Repr

/-- One entry of a pin map: a pin, or the sentinel `UNUSED` (R13). -/
inductive PinRef where
  | unused
  | pin (n : Nat)
deriving DecidableEq, Repr

/-- The configuration part of a Pad record (R13). -/
structure Pad where
  type : PadType
  /-- `PAD[p].pin_map[0..11]`. -/
  pinMap : Vector PinRef 12
  /-- `PAD[p].phys_id`, stored and never read. -/
  physId : String
  /-- `PAD[p].sink`: the handle of the event sink allocated for the pad, `none` when it holds no sink. -/
  sink : Option Nat
deriving DecidableEq, Repr

/-- A pad index that no configuration was given for (R13, R25, D20); its map, name and sink are the model's choice,
DESIGN CHOICE, log 3. -/
def Pad.absent : Pad := { type := .none, pinMap := Vector.replicate 12 .unused, physId := "", sink := none }

/-- `LINKCFG`: the four link pins (R14). -/
structure LinkPins where
  clk : Nat
  dout : Nat
  din : Nat
  sel : Nat
deriving DecidableEq, Repr

/-- `ACQ.armed` (R16, R102). -/
inductive Sched where
  | idle
  | armed
deriving DecidableEq, Repr

/-- `ACQ.mutex` (R16): free, or held by one caller. -/
inductive Mutex where
  | free
  | held
deriving DecidableEq, Repr

/-- `SEQ`, the position of the pass agent (R19): phase OUT, or the next thing the pass will do. Each position stands at
the start of a slot read, of a whole exchange (n, j, h at 0, 0, SELECT: a transfer is one atomic step, R66) or of an
event. Log 13. -/
inductive Position where
  /-- Phase OUT: no pass is running. -/
  | out
  /-- Phase DIG: slot `i` of pad `p` is read next. -/
  | dig (p : PadIx) (i : Fin 12)
  /-- Phase ADC: channel `c` of pad `p` is read next. -/
  | adc (p : PadIx) (c : Fin 4)
  /-- Phase NORM: event `k` of pad `p`'s batch is issued next. -/
  | norm (p : PadIx) (k : Fin 15)
  /-- Phase REARM: every pad is done. -/
  | rearm
deriving DecidableEq, Repr

/-- The errors the block returns to a caller, with what they record (R120 to R123). -/
inductive Error where
  /-- `ConfigurationError(InvalidPadType)`: the pad index and the offending type. -/
  | invalidPadType (p : PadIx) (type : CfgType)
  /-- `ConfigurationError(PinMapLength)`: the pad index and the length supplied. -/
  | pinMapLength (p : PadIx) (length : Nat)
  /-- `ResourceExhaustionError`: the pad index. -/
  | resourceExhaustion (p : PadIx)
  /-- `InterruptedOperation`. -/
  | interrupted
deriving DecidableEq, Repr

/-- What an operation hands back to its caller (R156; the result lines of R61 to R73, R107). -/
inductive Result where
  /-- `()`: done, no value. -/
  | done
  /-- The bit received by `LINK.BIT` (R61). -/
  | bit (d : Bool)
  /-- The byte received by `LINK.BYTE` (R62). -/
  | byte (r : Byte)
  /-- The bytes `rx[0..n−1]` received by `LINK.XFER` (R63). -/
  | bytes (rx : List Byte)
  /-- The frame built by `ADC.REQ` (R70). -/
  | frame (tx : Frame)
  /-- The 10-bit value decoded by `ADC.DEC` (R71). -/
  | raw (v : BitVec 10)
  /-- The AcquisitionSet built by `LIFE.CREATE` (R107). -/
  | created
  /-- An error, returned synchronously (R128). -/
  | error (e : Error)
deriving DecidableEq, Repr

/-- One entry of the history of sink allocations and releases (R106, R107, R108). Log 25. -/
inductive SinkCall where
  | alloc (h : Nat)
  | release (h : Nat)
deriving DecidableEq, Repr

/-- One item of what is still to come from outside (R156): a command, or the pass agent's turn to move. -/
inductive Input where
  | call (pk : Packet)
  | turn
deriving DecidableEq, Repr

/-- Why the machine stops with a fault. -/
inductive Fault where
  /-- `UnwrittenSlot` (R27, R125, H17): a NORM operation reads a slot nothing has written since reset. Raised by
  NORM.HAT, NORM.ABS, NORM.KEY, NORM.FLUSH and a pass whose position was set from outside. Safe: the spec makes it a
  fault of the model, and the model stops where the spec gives no value. -/
  | unwrittenSlot (p : PadIx) (slot : SlotIx)
deriving DecidableEq, Repr

/-- Why the model has no meaning for an input (R125). Every one is safe: the model stops where the spec says it has no
meaning for the input. -/
inductive Refusal where
  /-- The instruction has no meaning in this model yet; raised by `exec` alone. Safe. -/
  | notModelled (mnemonic : String)
  /-- `IllegalCommand`: the decoder met a word that matches no row (R55, R125). Raised by `step`. Safe. -/
  | illegalCommand (word : BitVec 16)
  /-- A command word whose operand data is not what R57 names; the model's own (log 11). Raised by `step`. Safe. -/
  | operandData (word : BitVec 16)
  /-- A 24-bit pattern that is no request frame the block issues (R55; log 12). Raised by `step`. Safe. -/
  | frameNotIssued (word : BitVec 24)
  /-- `NotCreated`: no AcquisitionSet exists. Raised by every operation but SETUP.LINKCFG, SETUP.PAD, LIFE.CREATE. Safe. -/
  | notCreated
  /-- `AlreadyCreated`: raised by LIFE.CREATE. Safe. -/
  | alreadyCreated
  /-- `ConfigAfterCreate`: raised by SETUP.LINKCFG and SETUP.PAD. Safe. -/
  | configAfterCreate
  /-- `LinkOverrideTwice`: raised by SETUP.LINKCFG. Safe. -/
  | linkOverrideTwice
  /-- `TooManyPads`: raised by LIFE.CREATE. Safe. -/
  | tooManyPads
  /-- `LinkNotInitialised`: raised by LINK.XFER, LINK.BYTE, LINK.BIT and the exchanges of ADC.RDCH, ADC.RDAX and a
  pass. Safe. -/
  | linkNotInitialised
  /-- `TransferLength`: raised by LINK.XFER. Safe. -/
  | transferLength
  /-- `ChannelOutOfRange`: raised by ADC.REQ and ADC.RDCH, and by `step` for a frame of channel 4 to 7. Safe. -/
  | channelOutOfRange
  /-- `SlotOutOfRange`: raised by DIG.RDSLOT. Safe. -/
  | slotOutOfRange
  /-- `DetachWithoutAttach`: raised by LIFE.DETACH. Safe. -/
  | detachWithoutAttach
  /-- `PinInvalid`: raised by SETUP.LINKCFG, SETUP.PAD and LIFE.CREATE. Safe. -/
  | pinInvalid
  /-- `PinConflict`: a pin stands twice among the four link pins and the pin maps (R107, R125, R152, D29). Raised by
  LIFE.CREATE. Safe. -/
  | pinConflict
deriving DecidableEq, Repr

/-- What stood in the two histories when the present AcquisitionSet was created: R25 starts both anew with every set, and a
history is append-only (R23). Log 6. -/
structure Past where
  wire : List WireEntry
  events : Vector (List Event) 2
deriving DecidableEq, Repr

/-- No earlier set. -/
def Past.none : Past := { wire := [], events := Vector.replicate 2 [] }

/-- The state of the block. -/
structure State where
  /-- `x[p][0..15]` (R11); `none` is a slot that holds no value (R25, R27). -/
  x : Vector (Vector (Option Sample) 16) 2
  /-- `PAD[0..1]` (R13). -/
  pads : Vector Pad 2
  /-- `LINKCFG` (R14). -/
  linkcfg : LinkPins
  /-- `LINKCFG_SET` (R14). -/
  linkcfgSet : Bool
  /-- `CLK` (R15). -/
  clk : Bool
  /-- `DOUT` (R15). -/
  dout : Bool
  /-- `SEL` (R15). -/
  sel : Bool
  /-- `DIR[pin]` and the pull settings (R15, R30). -/
  pins : PinTable
  /-- `LINK_READY` (R20). -/
  linkReady : Bool
  /-- `ACQ.count` (R16). -/
  count : Nat
  /-- `ACQ.armed` (R16). -/
  armed : Sched
  /-- `ACQ.mutex` (R16). -/
  mutex : Mutex
  /-- `ACQ.in_pass` (R21). -/
  inPass : Bool
  /-- `ACQ.created` (R16). -/
  created : Bool
  /-- `SEQ` (R19). -/
  seq : Position
  /-- `tx[0..2]` (R22). -/
  tx : Frame
  /-- `rx[0..2]` (R22). -/
  rx : Frame
  /-- `WIRE`, oldest first (R23): since the create that built the present set began (R25). -/
  wire : List WireEntry
  /-- `EVENTS[0..1]`, oldest first (R23): the calls on the sinks of the present set (R25). -/
  events : Vector (List Event) 2
  /-- The histories of earlier sets; the model's own (log 6). -/
  past : Past
  /-- What each command handed back to its caller, oldest first; the model's own (R156, log 7). -/
  results : List Result
  /-- Allocations and releases of sinks, oldest first; the model's own (log 25). -/
  sinkLog : List SinkCall
  /-- Calls and turns still to come; the model's own (R156, log 2). -/
  input : List Input
  /-- The environment's answers to the next pin reads; past the end, a free value (R31, log 8). -/
  levels : List Bool
  /-- The answers to the next sink allocations; past the end, a free value (R122, log 9). -/
  allocFails : List Bool
  /-- The answers to the next attach waits; past the end, a free value (R123, log 9). -/
  interrupts : List Bool
  /-- How many draws of log 9 were made. -/
  drawn : Nat
deriving DecidableEq, Repr

/-- `DEFAULT_LINK_PINS` as link pins (R14). -/
def LinkPins.default : LinkPins :=
  { clk := Config.defaultLinkPins.clk.val, dout := Config.defaultLinkPins.dout.val
    din := Config.defaultLinkPins.din.val, sel := Config.defaultLinkPins.sel.val }

/-- The 11 entries LINK.INIT appends to `WIRE` (R60, D5). -/
def initTrace (l : LinkPins) : List WireEntry :=
  [.so l.clk, .so l.dout, .so l.sel, .si l.din, .w l.clk false, .w l.dout false, .w l.sel true, .w l.clk true, .d,
   .w l.clk false, .d]

/-- The pin table after LINK.INIT has set the four directions, in its order (R60, D5). -/
def initDirs (l : LinkPins) (t : PinTable) : PinTable :=
  ((((t.setDir l.clk .output).setDir l.dout .output).setDir l.sel .output).setDir l.din .input)

/-- The frame of three zero bytes. -/
def Frame.zero : Frame := { b0 := 0, b1 := 0, b2 := 0 }

/-- Power-on, before any LIFE.CREATE (R26, R140): the two bookkeeping bits are 0 and no AcquisitionSet exists; every
other value is unspecified, and the one written here is DESIGN CHOICE, log 23. Programs of the spec start here. -/
def State.powerOn : State :=
  { x := Vector.replicate 2 (Vector.replicate 16 none)
    pads := Vector.replicate 2 Pad.absent
    linkcfg := LinkPins.default
    linkcfgSet := false
    clk := false, dout := false, sel := false
    pins := []
    linkReady := false
    count := 0, armed := .idle, mutex := .free, inPass := false, created := false
    seq := .out
    tx := Frame.zero, rx := Frame.zero
    wire := [], events := Vector.replicate 2 [], past := Past.none, results := [], sinkLog := []
    input := [], levels := [], allocFails := [], interrupts := [], drawn := 0 }

/-- Reset: the table of R25, the state in which LIFE.CREATE with no configuration and no link override leaves the block
(R141); log 1. The values R25 does not give are named in log 3, log 4 and log 24. -/
def State.reset : State :=
  { x := Vector.replicate 2 (Vector.replicate 16 none)
    pads := Vector.replicate 2 Pad.absent
    linkcfg := LinkPins.default
    linkcfgSet := false
    clk := false, dout := false, sel := true
    pins := initDirs LinkPins.default []
    linkReady := true
    count := 0, armed := .idle, mutex := .free, inPass := false, created := true
    seq := .out
    tx := Frame.zero, rx := Frame.zero
    wire := initTrace LinkPins.default, events := Vector.replicate 2 [], past := Past.none, results := [], sinkLog := []
    input := [], levels := [], allocFails := [], interrupts := [], drawn := 0 }

end Sys2Proof.Machine
end

