-- ==== Sys2Proof/Machine/Ops.lean ====
section
/-! DEFINITION. Machine/Ops.lean: the shared operations: slot access, the five Pin Interface calls (R31), the delay
(R8), the event sink (R8), the draws of the environment (R31, R122, R123), the mutex, handing a result or an error back
(R128), and running steps one after the other. -/
namespace Sys2Proof.Machine

/-- What a step answers. -/
abbrev Out := Host.Outcome State Fault Refusal

/-- Go on with `f` when `o` is a next state. -/
def andThen (o : Out) (f : State → Out) : Out :=
  match o with
  | .next s => f s
  | .fault r => .fault r
  | .refused r => .refused r

/-- Run the steps one after the other, stopping at the first fault or refusal. -/
def runAll : List (State → Out) → State → Out
  | [], s => .next s
  | f :: fs, s => andThen (f s) (runAll fs)

/-! ### Slots -/

/-- `x[p][i]`: `none` when nothing has written it since reset (R8, R27). -/
def State.slot (s : State) (p : PadIx) (i : SlotIx) : Option Sample := (s.x[p])[i]

/-- `x[p][i] <- v` (R8). -/
def setSlot (p : PadIx) (i : SlotIx) (v : Sample) (s : State) : State :=
  { s with x := s.x.set p (s.x[p].set i (some v)) }

/-- Every slot of both pads holds no value (R25). -/
def clearSlots (s : State) : State :=
  { s with x := Vector.replicate 2 (Vector.replicate 16 none) }

/-- Read `x[p][i]` and go on with its value; a slot nothing has written is the fault `UnwrittenSlot` (R27). -/
def withSlot (p : PadIx) (i : SlotIx) (s : State) (f : Sample → Out) : Out :=
  match s.slot p i with
  | some v => f v
  | none => .fault (.unwrittenSlot p i)

/-! ### Pads -/

/-- `PAD[p]`. -/
def State.pad (s : State) (p : PadIx) : Pad := s.pads[p]

/-- `PAD[p] <- d`. -/
def setPad (p : PadIx) (d : Pad) (s : State) : State := { s with pads := s.pads.set p d }

/-! ### The Pin Interface (R31) -/

/-- Append one entry to `WIRE`. -/
def logWire (e : WireEntry) (s : State) : State := { s with wire := s.wire ++ [e] }

/-- `PinSetInput(pin)`: `DIR[pin] <- input`, `SI(pin)` (R31). -/
def pinSetInput (n : Nat) (s : State) : State := logWire (.si n) { s with pins := s.pins.setDir n .input }

/-- `PinSetOutput(pin)`: `DIR[pin] <- output`, `SO(pin)` (R31). -/
def pinSetOutput (n : Nat) (s : State) : State := logWire (.so n) { s with pins := s.pins.setDir n .output }

/-- `PinWrite(pin, v)`: `W(pin, v)` (R31). The latch it sets is named by the caller: `CLK`, `DOUT` or `SEL` (R15). -/
def pinWrite (n : Nat) (v : Bool) (s : State) : State := logWire (.w n v) s

/-- The level the environment answers to a read of `pin` now: the next of its script, else a free value (R31, log 8). -/
def State.nextLevel (s : State) (n : Nat) : Bool := s.levels.headD (Config.pinLevel n s.past.wire s.wire)

/-- `PinRead(pin)`: the level and the state after it, `R(pin) = v` (R31). The direction of the pin
is not looked at (log 30). -/
def pinRead (n : Nat) (s : State) : Bool × State :=
  (s.nextLevel n, logWire (.r n (s.nextLevel n)) { s with levels := s.levels.tail })

/-- The mask of a set of pins: bit `n` is 1 exactly when pin `n` is in it (R52). -/
def maskOf (ns : List Nat) : Nat := ns.foldl (fun m n => m ||| (1 <<< n)) 0

/-- `PinConfigurePull(mask, mode)` for the set of the pins `ns`: every pin of it gets the mode, `PULL(mask, mode)`
(R31). -/
def pinConfigurePull (ns : List Nat) (mode : PullMode) (s : State) : State :=
  logWire (.pull (maskOf ns) mode) { s with pins := ns.foldl (fun t n => t.setPull n (.set mode)) s.pins }

/-- `Delay(T_HALF)`: the marker `D`, no time (R8, D8). -/
def delay (s : State) : State := logWire .d s

/-- `PinWrite(CLKP, v); CLK <- v` (R60, R61). -/
def driveClk (v : Bool) (s : State) : State := pinWrite s.linkcfg.clk v { s with clk := v }

/-- `PinWrite(DOUTP, v); DOUT <- v` (R60, R61). -/
def driveDout (v : Bool) (s : State) : State := pinWrite s.linkcfg.dout v { s with dout := v }

/-- `PinWrite(SELP, v); SEL <- v` (R60, R63). -/
def driveSel (v : Bool) (s : State) : State := pinWrite s.linkcfg.sel v { s with sel := v }

/-! ### The event sink (R8, R38) -/

/-- A call on pad `p`'s sink: one record appended to `EVENTS[p]` (R23). -/
def emit (p : PadIx) (e : Event) (s : State) : State :=
  { s with events := s.events.set p (s.events[p] ++ [e]) }

/-- `SinkAxis(sink, id, value, min, max, flat, fuzz)` (R8). -/
def sinkAxis (p : PadIx) (id : Axis) (value min max : Int) (flat fuzz : Nat) (s : State) : State :=
  emit p (.abs id value min max flat fuzz) s

/-- `SinkKey(sink, BTN_CODE[k], pressed)`, recorded by the index `k` (R8, R92, D18). -/
def sinkKey (p : PadIx) (k : Fin 8) (pressed : Bool) (s : State) : State := emit p (.key k pressed) s

/-- `SinkSync(sink)` (R8). -/
def sinkSync (p : PadIx) (s : State) : State := emit p .syn s

/-- The code the sink receives with a button record: `BTN_CODE[k]` (R50, R92). -/
def eventCode : Event → Option Nat
  | .key k _ => some (Config.btnCode k)
  | .abs _ _ _ _ _ _ => none
  | .syn => none

/-! ### Draws of the environment -/

/-- Whether the next sink allocation fails: the next of the script, else a free value (R122, log 9). -/
def State.nextAllocFails (s : State) : Bool := s.allocFails.headD (Config.sinkAllocFails s.drawn)

/-- Whether the next attach's wait is interrupted: the next of the script, else a free value (R123, D36, log 9). -/
def State.nextInterrupted (s : State) : Bool := s.interrupts.headD (Config.attachInterrupted s.drawn)

/-- The allocation draw is used up. -/
def drawAlloc (s : State) : State := { s with allocFails := s.allocFails.tail, drawn := s.drawn + 1 }

/-- The interruption draw is used up. -/
def drawInterrupt (s : State) : State := { s with interrupts := s.interrupts.tail, drawn := s.drawn + 1 }

/-! ### Sinks as resources (R106, R107, R108; log 25) -/

/-- The handle of a newly allocated sink: one no earlier allocation used. -/
def State.freshSink (s : State) : Nat := s.sinkLog.length

/-- A sink was allocated or released. -/
def logSink (c : SinkCall) (s : State) : State := { s with sinkLog := s.sinkLog ++ [c] }

/-- Release the sink a pad holds, if it holds one. -/
def releaseSink (p : PadIx) (s : State) : State :=
  match (s.pad p).sink with
  | some h => logSink (.release h) s
  | none => s

/-! ### Handing back a result or an error -/

/-- The operation returns `r` to its caller (R156, log 7). -/
def ret (r : Result) (s : State) : State := { s with results := s.results ++ [r] }

/-- Error entry (R128): the error is the value the operation returns, synchronously; nothing is saved, no mode changes,
no handler runs, control is back with the caller. There is no return instruction (R129). -/
def raise (e : Error) (s : State) : State := ret (.error e) s

/-- The code of an error, the spec's numbering (R120, D24). -/
def Error.code : Error → Nat
  | .invalidPadType _ _ => 1
  | .pinMapLength _ _ => 1
  | .resourceExhaustion _ => 2
  | .interrupted => 3

/-- The sub-cause of a configuration error, 0 where there is none (R120). -/
def Error.subCause : Error → Nat
  | .invalidPadType _ _ => 1
  | .pinMapLength _ _ => 2
  | .resourceExhaustion _ => 0
  | .interrupted => 0

/-- The code of a result: 0 for success (R120). -/
def Result.code : Result → Nat
  | .error e => e.code
  | .done => 0
  | .bit _ => 0
  | .byte _ => 0
  | .bytes _ => 0
  | .frame _ => 0
  | .raw _ => 0
  | .created => 0

/-! ### Guards and control state -/

/-- Every operation but three is refused while no AcquisitionSet exists (R16, R26, R125 `NotCreated`). -/
def whenCreated (s : State) (f : State → Out) : Out :=
  if s.created then f s else .refused .notCreated

/-- `ACQ.armed <- a`: `SCHED.ARM` and `SCHED.DISARM` (R58). Disarming cancels the pending firing, which is a function
of `armed` and `inPass` (R21, D21). -/
def setArmed (a : Sched) (s : State) : State := { s with armed := a }

/-- `ACQ.count <- n`. -/
def setCount (n : Nat) (s : State) : State := { s with count := n }

/-- `acquire ACQ.mutex` when it is free. -/
def lock (s : State) : State := { s with mutex := .held }

/-- `release ACQ.mutex`. -/
def unlock (s : State) : State := { s with mutex := .free }

/-- `pc <- target`: where the pass agent stands (R8, R19). -/
def setSeq (q : Position) (s : State) : State := { s with seq := q }

/-- `tx <- f` (R70). -/
def setTx (f : Frame) (s : State) : State := { s with tx := f }

/-- `rx <- f` (R63). -/
def setRx (f : Frame) (s : State) : State := { s with rx := f }

/-- The end of a channel read: `tx` and `rx` live only for that one operation, so they are left with free values (R22,
log 31). -/
def dropBuffers (s : State) : State :=
  { s with tx := Config.leftTx s.past.wire s.wire, rx := Config.leftRx s.past.wire s.wire }

/-- `ACQ.in_pass <- b` (R21). -/
def setInPass (b : Bool) (s : State) : State := { s with inPass := b }

end Sys2Proof.Machine
end

