-- ==== Sys2Proof/Machine/Operands.lean ====
section
/-! DEFINITION. Machine/Operands.lean: how each value is assembled from bits (R56), the orientation rule (R74), the
ternary rule (R95), the pull mask's pins (R52), and the reading of configurations (R106, R125). -/
namespace Sys2Proof.Machine

/-! ### Requests, responses, bytes -/

/-- Second request byte: `0x80 | (ch << 4)`, 8 bits (R56a, R70). -/
def requestByte (c : Fin 8) : Byte := 0x80#8 ||| (BitVec.ofNat 8 c.val <<< 4)

/-- The request frame of a channel: `01`, `0x80 | (c << 4)`, `00` (R46, R70). -/
def requestFrame (c : Fin 8) : Frame := { b0 := 0x01, b1 := requestByte c, b2 := 0x00 }

/-- Raw result: `((zext_16(rx[1]) << 8) | zext_16(rx[2])) & 0x3FF` (R56b, R71), a value of 10 bits. -/
def rawResult (rx : Frame) : BitVec 10 :=
  ((((rx.b1.setWidth 16) <<< 8) ||| rx.b2.setWidth 16) &&& 0x3FF#16).setWidth 10

/-- A vertical channel: 0 (ry) or 2 (y) (R72, R74). -/
def verticalChannel (c : Fin 4) : Bool := c.val == 0 || c.val == 2

/-- Oriented result: `1023 − raw` on a vertical channel, `raw` on a horizontal one, zero-extended into the slot (R56c,
R72, R74). -/
def oriented (c : Fin 4) (raw : BitVec 10) : Sample :=
  if verticalChannel c then 1023#16 - raw.setWidth 16 else raw.setWidth 16

/-- The bits of a byte from bit 7 down to bit 0, the order they go over the link (R33, R62). -/
def byteBits (v : Byte) : List Bool :=
  [v.getLsbD 7, v.getLsbD 6, v.getLsbD 5, v.getLsbD 4, v.getLsbD 3, v.getLsbD 2, v.getLsbD 1, v.getLsbD 0]

/-- The byte of eight received samples, the first in bit 7 (R56f, R62). -/
def packByte (ds : List Bool) : Byte :=
  ds.foldl (fun r d => (r <<< 1) ||| (if d then 1#8 else 0#8)) 0

/-- `rx[0..n−1]` written into the response buffer: indices below the number of bytes received, the others kept (R63
corner case d; log 26). -/
def storeResponse (rx : List Byte) (f : Frame) : Frame :=
  { b0 := rx.getD 0 f.b0, b1 := rx.getD 1 f.b1, b2 := rx.getD 2 f.b2 }

/-! ### Slots -/

/-- The slot of digital index `i` (R12). -/
def digitalSlot (i : Fin 12) : SlotIx := ⟨i.val, by omega⟩

/-- The slot of channel `c`: `12 + c` (R12, R36). -/
def analogSlot (c : Fin 4) : SlotIx := ⟨12 + c.val, by omega⟩

/-- The slot of button `k`: `4 + k` (R12, R18). -/
def buttonSlot (k : Fin 8) : SlotIx := ⟨4 + k.val, by omega⟩

/-- The first slot of a hat axis, `2a`: up or left (R90). -/
def hatFirst : HatAxis → SlotIx
  | .vertical => 0
  | .horizontal => 2

/-- The second slot of a hat axis, `2a + 1`: down or right (R90). -/
def hatSecond : HatAxis → SlotIx
  | .vertical => 1
  | .horizontal => 3

/-- Digital sample: `num(!level)` (R56d, R80). -/
def digitalSample (level : Bool) : Sample := if level then 0 else 1

/-! ### Event values -/

/-- `num(b)` (R7). -/
def num (b : Bool) : Int := if b then 1 else 0

/-- `clamp(v, lo, hi)` (R7). -/
def clamp (v lo hi : Int) : Int := if v < lo then lo else if v > hi then hi else v

/-- Ternary value: `num(first = 0) − num(second = 0)`, an integer (R56e, R90, R95). -/
def ternary (first second : Sample) : Int := num (first == 0) - num (second == 0)

/-- The axis a hat event names (R90). -/
def hatAxisId : HatAxis → Axis
  | .vertical => .hatY
  | .horizontal => .hatX

/-- The axis an analog event names: `[ABS_RY, ABS_RX, ABS_Y, ABS_X][k]` (R91). -/
def analogAxisId (k : Fin 4) : Axis :=
  match k with
  | 0 => .absRY
  | 1 => .absRX
  | 2 => .absY
  | 3 => .absX

/-- A button slot's value as pressed: not zero (R92). -/
def pressed (v : Sample) : Bool := v != 0

/-! ### Pin maps and configurations -/

/-- The pin of an entry, if it has one. -/
def PinRef.pin? : PinRef → Option Nat
  | .unused => none
  | .pin n => some n

/-- The used pins of a map, in slot order (R52, R82). -/
def usedPins (m : Vector PinRef 12) : List Nat := m.toList.filterMap PinRef.pin?

/-- A pin identifier of a map: −1 is `UNUSED` (R13). -/
def PinRef.ofInt : Int → PinRef
  | .ofNat n => .pin n
  | .negSucc _ => .unused

/-- A fixed map's entry: a valid pin number or `UNUSED` (R5, U7). -/
def PinRef.ofParam : Option Config.PinNo → PinRef
  | none => .unused
  | some n => .pin n.val

/-- A valid pin number is 0 to `PIN_MAX` (R30). -/
def pinNumberValid (n : Nat) : Bool := Nat.ble n Config.pinMax

/-- An identifier allowed in a pin map: a valid pin number or −1 (R13, R125 `PinInvalid`). -/
def mapEntryValid : Int → Bool
  | .ofNat n => pinNumberValid n
  | .negSucc k => k == 0

/-- An identifier allowed as a link pin: a valid pin number, never −1 (R55, R125 `PinInvalid`). -/
def linkPinValid : Int → Bool
  | .ofNat n => pinNumberValid n
  | .negSucc _ => false

/-- The identifiers a configuration supplies that will be used: its map for type Custom, none otherwise (R106 corner
case c; the fixed maps hold valid pins, R5). -/
def suppliedPins (c : PadCfg) : List Int :=
  match c.type with
  | .custom => c.pinMap
  | .none => []
  | .fixedMapA => []
  | .fixedMapB => []
  | .unknown _ => []

/-- Every identifier the configuration supplies is allowed (R125 `PinInvalid`). -/
def cfgPinsValid (c : PadCfg) : Bool := (suppliedPins c).all mapEntryValid

/-- The map a supplied list of twelve installs (R106). -/
def customMap (l : List Int) : Vector PinRef 12 :=
  #v[PinRef.ofInt (l.getD 0 (-1)), PinRef.ofInt (l.getD 1 (-1)), PinRef.ofInt (l.getD 2 (-1)),
     PinRef.ofInt (l.getD 3 (-1)), PinRef.ofInt (l.getD 4 (-1)), PinRef.ofInt (l.getD 5 (-1)),
     PinRef.ofInt (l.getD 6 (-1)), PinRef.ofInt (l.getD 7 (-1)), PinRef.ofInt (l.getD 8 (-1)),
     PinRef.ofInt (l.getD 9 (-1)), PinRef.ofInt (l.getD 10 (-1)), PinRef.ofInt (l.getD 11 (-1))]

/-- What the checks of SETUP.PAD admit: the type and map to install, or the first error (R106, R120, D25). -/
def checkCfg (p : PadIx) (c : PadCfg) : Except Error (PadType × Vector PinRef 12) :=
  match c.type with
  | .none => .error (.invalidPadType p .none)
  | .unknown n => .error (.invalidPadType p (.unknown n))
  | .fixedMapA => .ok (.fixedMapA, Config.pinMapA.map PinRef.ofParam)
  | .fixedMapB => .ok (.fixedMapB, Config.pinMapB.map PinRef.ofParam)
  | .custom => if c.pinMap.length = 12 then .ok (.custom, customMap c.pinMap) else .error (.pinMapLength p c.pinMap.length)

/-- The pins a configuration names, in slot order: of the fixed map of its type, of the supplied map, whatever its length,
for type Custom, and none for a type that installs no map (R107 corner case f; log 16). -/
def cfgPins (c : PadCfg) : List Nat :=
  match c.type with
  | .custom => (c.pinMap.map PinRef.ofInt).filterMap PinRef.pin?
  | .none => []
  | .fixedMapA => usedPins (Config.pinMapA.map PinRef.ofParam)
  | .fixedMapB => usedPins (Config.pinMapB.map PinRef.ofParam)
  | .unknown _ => []

/-- The numbers are pairwise different. -/
def allDifferent : List Nat → Bool
  | [] => true
  | n :: ns => !ns.contains n && allDifferent ns

/-- The four link pins. -/
def LinkPins.toList (l : LinkPins) : List Nat := [l.clk, l.dout, l.din, l.sel]

/-- No pin stands twice among the link pins and the maps of the configurations (R125 `PinConflict`, R107 corner case f,
R152, D29). -/
def createPinsDiffer (l : LinkPins) (cfgs : List PadCfg) : Bool := allDifferent (l.toList ++ cfgs.flatMap cfgPins)

end Sys2Proof.Machine
end

