-- ==== Sys2Proof/Machine/Flags.lean ====
section
/-! DEFINITION. Machine/Flags.lean: the block has no status flags, condition codes or predicates: no operation records
overflow, carry, zero or error (R20). What stands here is the one flag the spec adds, `LINK_READY` (R20, D3), and the
two predicates the control rules read: a live pad (R109) and a pending firing (R21). -/
namespace Sys2Proof.Machine

/-- `LINK_READY <- b` (R20, R60, R108). -/
def setLinkReady (b : Bool) (s : State) : State := { s with linkReady := b }

/-- A transfer before the lines were initialised is refused, `LinkNotInitialised` (R20, R63, R125). -/
def whenLinkReady (s : State) (f : State → Out) : Out :=
  if s.linkReady then f s else .refused .linkNotInitialised

/-- `live(p)`: the pad's type is FixedMapA, FixedMapB or Custom (R109, D20). -/
def State.live (s : State) (p : PadIx) : Bool :=
  match (s.pad p).type with
  | .none => false
  | .fixedMapA => true
  | .fixedMapB => true
  | .custom => true

/-- A firing of the timer is pending exactly when Armed and no pass runs (R21b, R126, D21). -/
def State.firingPending (s : State) : Bool := decide (s.armed = .armed) && !s.inPass

end Sys2Proof.Machine
end

