-- ==== Sys2Proof/Machine/Link.lean ====
section
/-! DEFINITION. Machine/Link.lean: the Serial Link Driver, family LINK (R60 to R66, 40_serial_link.md). -/
namespace Sys2Proof.Machine

/-- The eleven calls of LINK.INIT and its flag, in the order of R60 (D5). -/
def initLink (s : State) : State :=
  let s := pinSetOutput s.linkcfg.clk s
  let s := pinSetOutput s.linkcfg.dout s
  let s := pinSetOutput s.linkcfg.sel s
  let s := pinSetInput s.linkcfg.din s
  let s := driveClk false s
  let s := driveDout false s
  let s := driveSel true s
  let s := driveClk true s
  let s := delay s
  let s := driveClk false s
  let s := delay s
  setLinkReady true s

/-- One bit cell: drive data-out, settle, raise the clock, sample data-in, hold, lower the clock (R48, R61). -/
def bitCell (b : Bool) (s : State) : Bool × State :=
  let s := delay (driveDout b s)
  let s := driveClk true s
  let got := pinRead s.linkcfg.din s
  (got.1, driveClk false (delay got.2))

/-- Bit cells one after the other: the samples received, in order. -/
def bitCells : List Bool → State → List Bool × State
  | [], s => ([], s)
  | b :: bs, s =>
    let got := bitCell b s
    let more := bitCells bs got.2
    (got.1 :: more.1, more.2)

/-- Eight bit cells, most significant bit first (R62). -/
def byteCells (v : Byte) (s : State) : Byte × State :=
  let got := bitCells (byteBits v) s
  (packByte got.1, got.2)

/-- Bytes exchanged in increasing index (R33, R63). -/
def exchange : List Byte → State → List Byte × State
  | [], s => ([], s)
  | v :: vs, s =>
    let got := byteCells v s
    let more := exchange vs got.2
    (got.1 :: more.1, more.2)

/-- One full exchange: assert chip-select, exchange the bytes, deassert, the response in `rx` (R63). -/
def transfer (tx : List Byte) (s : State) : List Byte × State :=
  let got := exchange tx (driveSel Config.selectActive s)
  (got.1, setRx (storeResponse got.1 got.2.rx) (driveSel (!Config.selectActive) got.2))

/-- `LINK.INIT` (R60). -/
def execLinkInit (s : State) : Out :=
  whenCreated s fun s => .next (ret .done (initLink s))

/-- `LINK.BIT b` (R61); used alone it leaves the select line as it is (D40). `LINK_READY` is looked at first (log 15). -/
def execLinkBit (b : Bool) (s : State) : Out :=
  whenLinkReady s fun s => whenCreated s fun s =>
    let got := bitCell b s
    .next (ret (.bit got.1) got.2)

/-- `LINK.BYTE v` (R62); `LINK_READY` is looked at first (log 15). -/
def execLinkByte (v : Byte) (s : State) : Out :=
  whenLinkReady s fun s => whenCreated s fun s =>
    let got := byteCells v s
    .next (ret (.byte got.1) got.2)

/-- `LINK.XFER n, tx` (R63): refused before the lines are initialised and when fewer than `n` bytes are supplied; bytes
beyond `n` are ignored; `n` = 0 pulses select with no clock. -/
def execLinkXfer (n : Byte) (tx : List Byte) (s : State) : Out :=
  whenLinkReady s fun s => whenCreated s fun s =>
    if tx.length < n.toNat then .refused .transferLength
    else
      let got := transfer (tx.take n.toNat) s
      .next (ret (.bytes got.1) got.2)

end Sys2Proof.Machine
end

