-- ==== Sys2Proof/Machine/Adc.lean ====
section
/-! DEFINITION. Machine/Adc.lean: the ADC Channel Reader, family ADC (R70 to R75, 41_adc_reader.md), and the four
`REQ24` rows of the opcode table, whose rule is R70 (R46; log 12). -/
namespace Sys2Proof.Machine

/-- The frame of channel `c` is built in `tx` and returned (R70). -/
def buildRequest (c : Fin 8) (s : State) : State := ret (.frame (requestFrame c)) (setTx (requestFrame c) s)

/-- One channel into its slot: request, exchange, decode, orient, store in slot `12 + c` (R72); then the two buffers are
gone (R22, log 31). -/
def readChannel (p : PadIx) (c : Fin 4) (s : State) : State :=
  let s := setTx (requestFrame (c.castLE (by omega))) s
  let s := (transfer s.tx.bytes s).2
  dropBuffers (setSlot p (analogSlot c) (oriented c (rawResult s.rx)) s)

/-- One channel, refused before the lines are initialised (R63, R72). -/
def readChannelChecked (p : PadIx) (c : Fin 4) (s : State) : Out :=
  whenLinkReady s fun s => .next (readChannel p c s)

/-- The four channels in the order 0, 1, 2, 3 (R73, R37). -/
def readAxes (p : PadIx) (s : State) : Out :=
  runAll [readChannelChecked p 0, readChannelChecked p 1, readChannelChecked p 2, readChannelChecked p 3] s

/-- `ADC.REQ c` (R70); a channel select above 3 is refused (D9). -/
def execAdcReq (c : Fin 8) (s : State) : Out :=
  whenCreated s fun s =>
    if c.val < 4 then .next (buildRequest c s) else .refused .channelOutOfRange

/-- `ADC.DEC` (R71): decodes the response buffer `rx` and returns the raw value: of the response LINK.XFER received, or,
after a channel read, of the free value the buffer is left with (R22, log 31). -/
def execAdcDec (s : State) : Out :=
  whenCreated s fun s => .next (ret (.raw (rawResult s.rx)) s)

/-- `ADC.RDCH p, c` (R72); a channel select above 3 is refused (D9). -/
def execAdcRdch (p : PadIx) (c : Fin 8) (s : State) : Out :=
  whenCreated s fun s =>
    if h : c.val < 4 then andThen (readChannelChecked p ⟨c.val, h⟩ s) fun t => .next (ret .done t)
    else .refused .channelOutOfRange

/-- `ADC.RDAX p` (R73). -/
def execAdcRdax (p : PadIx) (s : State) : Out :=
  whenCreated s fun s => andThen (readAxes p s) fun t => .next (ret .done t)

/-- The `REQ24` row of channel 0: builds the frame `01 80 00` (R46, R70; log 12). -/
def execAdcReqCh0 (s : State) : Out := whenCreated s fun s => .next (buildRequest 0 s)

/-- The `REQ24` row of channel 1: builds the frame `01 90 00` (R46, R70; log 12). -/
def execAdcReqCh1 (s : State) : Out := whenCreated s fun s => .next (buildRequest 1 s)

/-- The `REQ24` row of channel 2: builds the frame `01 A0 00` (R46, R70; log 12). -/
def execAdcReqCh2 (s : State) : Out := whenCreated s fun s => .next (buildRequest 2 s)

/-- The `REQ24` row of channel 3: builds the frame `01 B0 00` (R46, R70; log 12). -/
def execAdcReqCh3 (s : State) : Out := whenCreated s fun s => .next (buildRequest 3 s)

end Sys2Proof.Machine
end

