-- ==== Sys2Proof/Machine/Dig.lean ====
section
/-! DEFINITION. Machine/Dig.lean: the Digital Sample Reader, family DIG (R80 to R84, 42_digital_sampler.md): no
debounce, no accumulator (R83). -/
namespace Sys2Proof.Machine

/-- One digital slot: an unused entry stores 0 and reads no pin; a used one stores `num(!level)` of one read (R80). -/
def sampleSlot (p : PadIx) (i : Fin 12) (s : State) : State :=
  match (s.pad p).pinMap[i] with
  | .unused => setSlot p (digitalSlot i) 0 s
  | .pin n =>
    let got := pinRead n s
    setSlot p (digitalSlot i) (digitalSample got.1) got.2

/-- All twelve digital slots in increasing order (R81, R37). -/
def sampleButtons (p : PadIx) (s : State) : State :=
  [(0 : Fin 12), 1, 2, 3, 4, 5, 6, 7, 8, 9, 10, 11].foldl (fun t i => sampleSlot p i t) s

/-- Prepare a pad's pins: inputs in slot order, then one pull-up call for the set of used pins, made even when the set
is empty (R82, D11). -/
def preparePins (p : PadIx) (s : State) : State :=
  let ns := usedPins (s.pad p).pinMap
  pinConfigurePull ns Config.pullMode (ns.foldl (fun t n => pinSetInput n t) s)

/-- `DIG.RDSLOT p, s` (R80); a slot above 11 is refused (R125). -/
def execDigRdslot (p : PadIx) (slot : SlotIx) (s : State) : Out :=
  whenCreated s fun s =>
    if h : slot.val < 12 then .next (ret .done (sampleSlot p ⟨slot.val, h⟩ s)) else .refused .slotOutOfRange

/-- `DIG.RDBTN p` (R81). -/
def execDigRdbtn (p : PadIx) (s : State) : Out :=
  whenCreated s fun s => .next (ret .done (sampleButtons p s))

/-- `DIG.PULL p` (R82). -/
def execDigPull (p : PadIx) (s : State) : Out :=
  whenCreated s fun s => .next (ret .done (preparePins p s))

end Sys2Proof.Machine
end

