-- ==== Sys2Proof/Machine/Norm.lean ====
section
/-! DEFINITION. Machine/Norm.lean: the Event Normalizer, family NORM (R90 to R96, 43_event_normalizer.md). It reads
slots of one pad and calls that pad's sink; nothing else changes. -/
namespace Sys2Proof.Machine

/-- One direction pair as a ternary value, reported with range [−1, +1], flat 0, fuzz 0 (R90, R96, D15, D16). -/
def reportHat (p : PadIx) (a : HatAxis) (s : State) : Out :=
  withSlot p (hatFirst a) s fun first => withSlot p (hatSecond a) s fun second =>
    .next (sinkAxis p (hatAxisId a) (ternary first second) (-1) 1 0 0 s)

/-- One analog axis, clamped to [0, 1023], with flat 4 and fuzz 8 (R91, R96, D19, D38). -/
def reportAbs (p : PadIx) (k : Fin 4) (s : State) : Out :=
  withSlot p (analogSlot k) s fun v =>
    .next (sinkAxis p (analogAxisId k) (clamp v.toNat 0 Config.adcMax) 0 Config.adcMax Config.absFlat Config.absFuzz s)

/-- One button, pressed or released, on every call (R92). -/
def reportKey (p : PadIx) (k : Fin 8) (s : State) : Out :=
  withSlot p (buttonSlot k) s fun v => .next (sinkKey p k (pressed v) s)

/-- The synchronisation marker (R93). -/
def reportSync (p : PadIx) (s : State) : Out := .next (sinkSync p s)

/-- Event `k` of a pad's batch, the order of R51 and R94: two hats, four analog axes, eight buttons, the marker. -/
def batchStep (p : PadIx) (k : Fin 15) : State → Out :=
  match k with
  | 0 => reportHat p .vertical
  | 1 => reportHat p .horizontal
  | 2 => reportAbs p 0
  | 3 => reportAbs p 1
  | 4 => reportAbs p 2
  | 5 => reportAbs p 3
  | 6 => reportKey p 0
  | 7 => reportKey p 1
  | 8 => reportKey p 2
  | 9 => reportKey p 3
  | 10 => reportKey p 4
  | 11 => reportKey p 5
  | 12 => reportKey p 6
  | 13 => reportKey p 7
  | 14 => reportSync p

/-- The whole batch of 15 events (R94). -/
def flushBatch (p : PadIx) (s : State) : Out :=
  runAll ([(0 : Fin 15), 1, 2, 3, 4, 5, 6, 7, 8, 9, 10, 11, 12, 13, 14].map (batchStep p)) s

/-- `NORM.HAT p, a` (R90). -/
def execNormHat (p : PadIx) (a : HatAxis) (s : State) : Out :=
  whenCreated s fun s => andThen (reportHat p a s) fun t => .next (ret .done t)

/-- `NORM.ABS p, k` (R91). -/
def execNormAbs (p : PadIx) (k : Fin 4) (s : State) : Out :=
  whenCreated s fun s => andThen (reportAbs p k s) fun t => .next (ret .done t)

/-- `NORM.KEY p, k` (R92). -/
def execNormKey (p : PadIx) (k : Fin 8) (s : State) : Out :=
  whenCreated s fun s => andThen (reportKey p k s) fun t => .next (ret .done t)

/-- `NORM.SYNC p` (R93). -/
def execNormSync (p : PadIx) (s : State) : Out :=
  whenCreated s fun s => andThen (reportSync p s) fun t => .next (ret .done t)

/-- `NORM.FLUSH p` (R94). -/
def execNormFlush (p : PadIx) (s : State) : Out :=
  whenCreated s fun s => andThen (flushBatch p s) fun t => .next (ret .done t)

end Sys2Proof.Machine
end

