-- ==== Sys2Proof/Machine/Sched.lean ====
section
/-! DEFINITION. Machine/Sched.lean: the pass and the tick (R100 to R102, 44_scheduler_lifecycle.md), and the pass agent,
which moves one position of the sequence at a time (R19). A tick issued as a command is one step; a firing that the
timer makes by itself starts a pass that the agent then walks, so that host calls can land inside it (R147; log 13,
log 14). -/
namespace Sys2Proof.Machine

/-- The pseudo-operation `PAD.SAMPLE p`: digital, then analog, then the flush (R58, R100). -/
def samplePad (p : PadIx) (s : State) : Out :=
  andThen (readAxes p (sampleButtons p s)) (flushBatch p)

/-- A pad that is not live is skipped whole (R100). -/
def passPad (p : PadIx) (s : State) : Out := if s.live p then samplePad p s else .next s

/-- One sampling pass: pad 0, then pad 1 (R100). -/
def samplingPass (s : State) : Out := runAll [passPad 0, passPad 1] s

/-- `SCHED.PASS` (R100). Issued while a pass that the agent walks is in progress, it makes a whole pass of its own between
two positions of the walk (D40; log 29). -/
def execSchedPass (s : State) : Out :=
  whenCreated s fun s => andThen (samplingPass s) fun t => .next (ret .done t)

/-- One firing of the timer as one step (R101): the pass runs with `in_pass` set, and at its end a new firing is pending
if the block is still Armed, which is a function of `armed` and `in_pass` (R21, D21). With no firing pending, because
the block is Idle (R101 corner case c) or a pass is running (R101, log 21), nothing happens. -/
def tick (s : State) : Out :=
  if s.firingPending then andThen (samplingPass (setInPass true s)) fun t => .next (setInPass false t) else .next s

/-- `SCHED.TICK` (R101). -/
def execSchedTick (s : State) : Out :=
  whenCreated s fun s => andThen (tick s) fun t => .next (ret .done t)

/-! ### The pass agent, one position at a time (R19) -/

/-- Where the pass goes when pad `p` is done or skipped: pad 1 after pad 0, then the re-arm (R100, R101). -/
def afterPad (p : PadIx) : Position := if p = 0 then .dig 1 0 else .rearm

/-- The position after slot `i` of pad `p` (R19, R81). -/
def afterSlot (p : PadIx) (i : Fin 12) : Position :=
  if h : i.val + 1 < 12 then .dig p ⟨i.val + 1, h⟩ else .adc p 0

/-- The position after channel `c` of pad `p` (R19, R73). -/
def afterChannel (p : PadIx) (c : Fin 4) : Position :=
  if h : c.val + 1 < 4 then .adc p ⟨c.val + 1, h⟩ else .norm p 0

/-- The position after event `k` of pad `p` (R19, R94). -/
def afterEvent (p : PadIx) (k : Fin 15) : Position :=
  if h : k.val + 1 < 15 then .norm p ⟨k.val + 1, h⟩ else afterPad p

/-- The pass agent does what its position says and goes to the next one; at the re-arm `in_pass` becomes 0 and, if the
block is still Armed, a firing is pending again (R19, R101). -/
def passMove (s : State) : Out :=
  match s.seq with
  | .out => .next s
  | .dig p i =>
    if i = 0 && !s.live p then .next (setSeq (afterPad p) s) else .next (setSeq (afterSlot p i) (sampleSlot p i s))
  | .adc p c => andThen (readChannelChecked p c s) fun t => .next (setSeq (afterChannel p c) t)
  | .norm p k => andThen (batchStep p k s) fun t => .next (setSeq (afterEvent p k) t)
  | .rearm => .next (setSeq .out (setInPass false s))

/-- `n` moves of the pass agent. -/
def passMoves : Nat → State → Out
  | 0, s => .next s
  | n + 1, s => andThen (passMove s) (passMoves n)

/-- The longest pass, in moves: 31 positions for each of two pads, and the re-arm (R19). -/
def passLength : Nat := 63

/-- `wait until ACQ.in_pass = 0`: the pass agent finishes the pass (R39, R104, R147; log 14). -/
def drain (s : State) : Out := if s.inPass then passMoves passLength s else .next s

/-- The timer's firing is taken: `in_pass` is set and the agent stands at pad 0, slot 0 (R36, R101, R128). -/
def fire (s : State) : State := setSeq (.dig 0 0) (setInPass true s)

/-- The turn of the pass agent: a move of the pass in progress, or the pending firing, or no work while Idle (R101,
R126, R135). -/
def agentTurn (s : State) : Out :=
  if s.inPass then passMove s
  else if s.created && s.firingPending then .next (fire s)
  else .next s

end Sys2Proof.Machine
end

