-- ==== Sys2Proof/Machine/Life.lean ====
section
/-! DEFINITION. Machine/Life.lean: attach and detach, setup, create and destroy (R103 to R112,
44_scheduler_lifecycle.md), and the errors they return (R120 to R123, R128). -/
namespace Sys2Proof.Machine

/-! ### Attach and detach -/

/-- Wait for the mutex. Its holder, in a state where it is held, is a caller that drains a pass; the wait ends when the
pass has finished and the holder has released (R103 corner case b, R104 corner cases a and d; log 14). -/
def awaitMutex (s : State) : Out :=
  match s.mutex with
  | .free => .next s
  | .held => andThen (drain s) fun t => .next (unlock t)

/-- Under the mutex: count one more consumer; the first arms the scheduler (R103). -/
def countConsumer (s : State) : State :=
  let s := setCount (s.count + 1) (lock s)
  unlock (if s.count = 1 then setArmed .armed s else s)

/-- An attach whose wait is interrupted returns `InterruptedOperation` and changes nothing (R103, R123). -/
def attachInterrupted (s : State) : State := raise .interrupted (drawInterrupt s)

/-- `LIFE.ATTACH p` (R103): the pad operand has no effect (R112). Whether the wait is interrupted is a draw (D36). -/
def execLifeAttach (_p : PadIx) (s : State) : Out :=
  whenCreated s fun s =>
    match s.mutex with
    | .free =>
      .next (if s.nextInterrupted then attachInterrupted s else ret .done (countConsumer (drawInterrupt s)))
    | .held =>
      if s.nextInterrupted then .next (attachInterrupted s)
      else andThen (awaitMutex (drawInterrupt s)) fun t => .next (ret .done (countConsumer t))

/-- Under the mutex: count one consumer less; the last disarms the scheduler and waits for the pass in progress, the
mutex held (R104). -/
def releaseConsumer (s : State) : Out :=
  let s := setCount (s.count - 1) (lock s)
  if s.count = 0 then andThen (drain (setArmed .idle s)) fun t => .next (unlock t) else .next (unlock s)

/-- `LIFE.DETACH p` (R104): the pad operand has no effect (R112); refused when no consumer is attached (D22). -/
def execLifeDetach (_p : PadIx) (s : State) : Out :=
  whenCreated s fun s => andThen (awaitMutex s) fun s =>
    if s.count = 0 then .refused .detachWithoutAttach
    else andThen (releaseConsumer s) fun t => .next (ret .done t)

/-! ### Setup -/

/-- `SETUP.LINKCFG` (R105): refused after create, a second time, and for an identifier that is no valid pin, looked at in
this order (R125; log 17). -/
def execSetupLinkcfg (clk dout din sel : Int) (s : State) : Out :=
  if s.created then .refused .configAfterCreate
  else if s.linkcfgSet then .refused .linkOverrideTwice
  else if linkPinValid clk && linkPinValid dout && linkPinValid din && linkPinValid sel then
    .next (ret .done { s with
      linkcfg := { clk := clk.toNat, dout := dout.toNat, din := din.toNat, sel := sel.toNat }, linkcfgSet := true })
  else .refused .pinInvalid

/-- Roll a pad back or tear it down: its sink is released and its type becomes None (R107, R108, R128). -/
def retirePad (p : PadIx) (s : State) : State :=
  setPad p { s.pad p with type := .none, sink := none } (releaseSink p s)

/-- A pad configuration that passed the checks is installed with its new sink, and its pins are prepared (R106). -/
def installPad (p : PadIx) (type : PadType) (map : Vector PinRef 12) (physId : String) (s : State) : State :=
  let h := s.freshSink
  let s := logSink (.alloc h) s
  preparePins p (setPad p { type := type, pinMap := map, physId := physId, sink := some h } s)

/-- The steps of SETUP.PAD (R106): type, then length, then the sink; the first failure is returned, nothing is installed,
and the pad is unconfigured with its sink, if it held one, released (R127, R128; log 19). -/
def setupPadSteps (p : PadIx) (cfg : PadCfg) (s : State) : Option Error × State :=
  match checkCfg p cfg with
  | .error e => (some e, retirePad p s)
  | .ok (type, map) =>
    if s.nextAllocFails then (some (.resourceExhaustion p), retirePad p (drawAlloc s))
    else (none, installPad p type map cfg.physId (drawAlloc s))

/-- The result of setup steps: done, or the error (R128). -/
def setupResult (r : Option Error × State) : State :=
  match r.1 with
  | none => ret .done r.2
  | some e => raise e r.2

/-- `SETUP.PAD p, cfg` issued directly (R106 corner case f): refused after create, and for an identifier that is no valid
pin before any step (R125; log 17). -/
def execSetupPad (p : PadIx) (cfg : PadCfg) (s : State) : Out :=
  if s.created then .refused .configAfterCreate
  else if cfgPinsValid cfg then .next (setupResult (setupPadSteps p cfg s))
  else .refused .pinInvalid

/-! ### Create and destroy -/

/-- A pad is cleared: the sink it holds is released and it is absent (R106 corner case f, R107). -/
def clearPad (p : PadIx) (s : State) : State := setPad p Pad.absent (releaseSink p s)

/-- The four link pins LIFE.CREATE will use: the override if there was one, else the default (R105, R107). -/
def State.linkPins (s : State) : LinkPins := if s.linkcfgSet then s.linkcfg else LinkPins.default

/-- Set up the pads of the sequence, entry `i` being pad `i`; a failure rolls the earlier pads back (R107). -/
def setupPads (cfgs : List PadCfg) (s : State) : Option Error × State :=
  match cfgs with
  | [] => (none, s)
  | [c0] => setupPadSteps 0 c0 s
  | c0 :: c1 :: _ =>
    let r0 := setupPadSteps 0 c0 s
    if r0.1.isSome then r0
    else
      let r1 := setupPadSteps 1 c1 r0.2
      if r1.1.isSome then (r1.1, retirePad 0 r1.2) else r1

/-- The last steps of LIFE.CREATE: link pins, LINK.INIT, and every value of the reset table (R25, R107). -/
def finishCreate (s : State) : State :=
  let s := initLink (clearSlots { s with linkcfg := s.linkPins })
  { s with count := 0, armed := .idle, mutex := .free, inPass := false, seq := .out
           tx := Frame.zero, rx := Frame.zero, created := true }

/-- The histories of a new set: `WIRE` holds the calls of its create, which began in the state `before`, and `EVENTS` is
empty; what stood in them before moves to `past` (R23, R25; log 6). -/
def startHistories (before s : State) : State :=
  { s with
    wire := s.wire.drop before.wire.length, events := Vector.replicate 2 []
    past := { wire := before.past.wire ++ before.wire
              events := Vector.ofFn fun p => before.past.events[p] ++ before.events[p] } }

/-- A create's end: the error of the failed setup, no AcquisitionSet, or the set (R107, R128); `before` is the state in
which the create began. -/
def createResult (before : State) (r : Option Error × State) : State :=
  match r.1 with
  | some e => raise e r.2
  | none => ret .created (startHistories before (finishCreate r.2))

/-- `LIFE.CREATE cfgs` (R107). The pin checks are made on the whole argument and the link pins that will be used before the
first step (R107 corner case f, D29; log 16, log 17). -/
def execLifeCreate (cfgs : List PadCfg) (s : State) : Out :=
  if s.created then .refused .alreadyCreated
  else if 2 < cfgs.length then .refused .tooManyPads
  else if cfgs.all cfgPinsValid then
    if createPinsDiffer s.linkPins cfgs then .next (createResult s (setupPads cfgs (clearPad 1 (clearPad 0 s))))
    else .refused .pinConflict
  else .refused .pinInvalid

/-- A pad whose type is not None is torn down (R108). -/
def destroyPad (p : PadIx) (s : State) : State := if s.live p then retirePad p s else s

/-- What LIFE.DESTROY does once the pass in progress has drained (R108): no Pin Interface call is made (D23). -/
def teardown (s : State) : State :=
  let s := destroyPad 1 (destroyPad 0 s)
  { s with linkReady := false, linkcfgSet := false, created := false }

/-- `LIFE.DESTROY` (R108): disarm, drain, release, and no AcquisitionSet exists. -/
def execLifeDestroy (s : State) : Out :=
  whenCreated s fun s => andThen (drain (setArmed .idle s)) fun t => .next (ret .done (teardown t))

end Sys2Proof.Machine
end

