-- ==== Sys2Proof/Machine/Dispatch.lean ====
section
/-! DEFINITION. Machine/Dispatch.lean: one arm per constructor of Instr. -/
namespace Sys2Proof.Machine

def exec (i : Instr) (s : State) : Host.Outcome State Fault Refusal :=
  match i with
  -- LINK, 40_serial_link.md
  | .linkInit => Sys2Proof.Machine.execLinkInit s
  | .linkBit b => Sys2Proof.Machine.execLinkBit b s
  | .linkByte v => Sys2Proof.Machine.execLinkByte v s
  | .linkXfer n tx => Sys2Proof.Machine.execLinkXfer n tx s
  -- ADC, 41_adc_reader.md
  | .adcReq c => Sys2Proof.Machine.execAdcReq c s
  | .adcDec => Sys2Proof.Machine.execAdcDec s
  | .adcRdch p c => Sys2Proof.Machine.execAdcRdch p c s
  | .adcRdax p => Sys2Proof.Machine.execAdcRdax p s
  -- DIG, 42_digital_sampler.md
  | .digRdslot p slot => Sys2Proof.Machine.execDigRdslot p slot s
  | .digRdbtn p => Sys2Proof.Machine.execDigRdbtn p s
  | .digPull p => Sys2Proof.Machine.execDigPull p s
  -- NORM, 43_event_normalizer.md
  | .normHat p a => Sys2Proof.Machine.execNormHat p a s
  | .normAbs p k => Sys2Proof.Machine.execNormAbs p k s
  | .normKey p k => Sys2Proof.Machine.execNormKey p k s
  | .normSync p => Sys2Proof.Machine.execNormSync p s
  | .normFlush p => Sys2Proof.Machine.execNormFlush p s
  -- SCHED, LIFE, SETUP, 44_scheduler_lifecycle.md
  | .schedPass => Sys2Proof.Machine.execSchedPass s
  | .schedTick => Sys2Proof.Machine.execSchedTick s
  | .lifeAttach p => Sys2Proof.Machine.execLifeAttach p s
  | .lifeDetach p => Sys2Proof.Machine.execLifeDetach p s
  | .setupLinkcfg clk dout din sel => Sys2Proof.Machine.execSetupLinkcfg clk dout din sel s
  | .setupPad p cfg => Sys2Proof.Machine.execSetupPad p cfg s
  | .lifeCreate cfgs => Sys2Proof.Machine.execLifeCreate cfgs s
  | .lifeDestroy => Sys2Proof.Machine.execLifeDestroy s
  -- the request frames, 30_encoding.md R46
  | .adcReqCh0 => Sys2Proof.Machine.execAdcReqCh0 s
  | .adcReqCh1 => Sys2Proof.Machine.execAdcReqCh1 s
  | .adcReqCh2 => Sys2Proof.Machine.execAdcReqCh2 s
  | .adcReqCh3 => Sys2Proof.Machine.execAdcReqCh3 s

end Sys2Proof.Machine
end

