-- ==== Sys2Proof/Machine/Fetch.lean ====
section
/-! DEFINITION. Machine/Fetch.lean: where the next command comes from: the head of the queue of calls (R19: there is no
program counter and no instruction memory; R156; log 2). -/
namespace Sys2Proof.Machine

/-- The refusal a rejected packet ends in (R55, R125). -/
def refusalOf : Reject → Refusal
  | .illegalCommand w => .illegalCommand w
  | .operandData w => .operandData w
  | .frameChannel _ => .channelOutOfRange
  | .frameNotIssued w => .frameNotIssued w

/-- The first item of the queue has been taken. -/
def popInput (s : State) : State := { s with input := s.input.tail }

/-- A call is put at the head of the queue, where the next step takes it. -/
def pushCall (pk : Packet) (s : State) : State := { s with input := .call pk :: s.input }

end Sys2Proof.Machine
end

