-- ==== Sys2Proof/Machine/Step.lean ====
section
/-! DEFINITION. Machine/Step.lean: one step (R6, R19, R126, R157): the call at the head of the queue is decoded and
executed; a turn, or an empty queue, lets the pass agent move (log 2, log 14). -/
namespace Sys2Proof.Machine

/-- One step of the machine. -/
def step (s : State) : Host.Outcome State Fault Refusal :=
  match s.input with
  | [] => agentTurn s
  | .turn :: _ => agentTurn (popInput s)
  | .call pk :: _ =>
    match decode pk with
    | .ok i => exec i (popInput s)
    | .error r => .refused (refusalOf r)

/-- The state with a word of the opcode table as the next call (log 2). -/
def State.withFetchWord (s : State) (nbits w : Nat) : State := pushCall (tablePacket nbits w) s

end Sys2Proof.Machine
end

