-- ==== Sys2Proof/Safety.lean ====
section
/-! DEFINITION. Safety.lean: the terms claims are stated in: the `WIRE` traces of the link (R48, R63), the line
discipline (R64), the batch of a pad (R51), the invariant of the block, and what counts as a safe run (R27, R157). -/
namespace Sys2Proof.Machine

/-! ### Traces of the link -/

/-- The six `WIRE` entries of one bit cell: `b` sent, `d` received (R48, R61). -/
def cellTrace (l : LinkPins) (b d : Bool) : List WireEntry :=
  [.w l.dout b, .d, .w l.clk true, .r l.din d, .d, .w l.clk false]

/-- The entries of several bit cells, sent bits and received bits side by side. -/
def cellsTrace (l : LinkPins) : List Bool → List Bool → List WireEntry
  | b :: bs, d :: ds => cellTrace l b d ++ cellsTrace l bs ds
  | _, _ => []

/-- The 48 entries of one byte: `v` sent, `r` received, bit 7 first (R62). -/
def byteTrace (l : LinkPins) (v r : Byte) : List WireEntry := cellsTrace l (byteBits v) (byteBits r)

/-- The entries of several bytes, in increasing index (R33). -/
def exchangeTrace (l : LinkPins) : List Byte → List Byte → List WireEntry
  | v :: vs, r :: rs => byteTrace l v r ++ exchangeTrace l vs rs
  | _, _ => []

/-- The `2 + 48·n` entries of one transfer: select low, the bytes, select high (R63). -/
def transferTrace (l : LinkPins) (tx rx : List Byte) : List WireEntry :=
  .w l.sel false :: (exchangeTrace l tx rx ++ [.w l.sel true])

/-- What data-out holds after the bytes `tx` were sent: bit 0 of the last, or what it held (R63 corner case f). -/
def lastBit (tx : List Byte) (d : Bool) : Bool :=
  match tx.getLast? with
  | some v => v.getLsbD 0
  | none => d

/-! ### The line discipline of R64 -/

/-- The four link pins are pairwise different (R60). -/
def LinkPins.distinct (l : LinkPins) : Bool :=
  l.clk != l.dout && l.clk != l.din && l.clk != l.sel && l.dout != l.din && l.dout != l.sel && l.din != l.sel

/-- The clock and select levels while a trace is read. -/
structure LineState where
  clk : Bool
  sel : Bool
deriving DecidableEq, Repr

/-- The lines at rest between two transfers: `CLK` = 0, `SEL` = 1 (R15, R64). -/
def LineState.rest : LineState := { clk := false, sel := true }

/-- One entry of `WIRE` read against the discipline: the clock is raised only from 0, data-out is written only while the
clock is 0, data-in is read only while the clock is 1, select is written only while the clock is 0 (R64). `none`: broken.
Entries about other pins do not count. -/
def lineStep (l : LinkPins) (q : LineState) : WireEntry → Option LineState
  | .w n v =>
    if n = l.clk then (if v && q.clk then none else some { q with clk := v })
    else if n = l.dout then (if q.clk then none else some q)
    else if n = l.sel then (if q.clk then none else some { q with sel := v })
    else some q
  | .r n _ => if n = l.din then (if q.clk then some q else none) else some q
  | .si _ => some q
  | .so _ => some q
  | .pull _ _ => some q
  | .d => some q

/-- A whole trace read against the discipline. -/
def lineRun (l : LinkPins) : LineState → List WireEntry → Option LineState
  | q, [] => some q
  | q, e :: es => (lineStep l q e).bind fun r => lineRun l r es

/-! ### The batch of one pad -/

/-- The 15 records of one pad's batch from its 16 slot values (R51, `BATCH15`). -/
def batchOf (v : SlotIx → Sample) : List Event :=
  [.abs .hatY (num (v 0 == 0) - num (v 1 == 0)) (-1) 1 0 0,
   .abs .hatX (num (v 2 == 0) - num (v 3 == 0)) (-1) 1 0 0,
   .abs .absRY (clamp (v 12).toNat 0 1023) 0 1023 4 8,
   .abs .absRX (clamp (v 13).toNat 0 1023) 0 1023 4 8,
   .abs .absY (clamp (v 14).toNat 0 1023) 0 1023 4 8,
   .abs .absX (clamp (v 15).toNat 0 1023) 0 1023 4 8,
   .key 0 (v 4 != 0), .key 1 (v 5 != 0), .key 2 (v 6 != 0), .key 3 (v 7 != 0),
   .key 4 (v 8 != 0), .key 5 (v 9 != 0), .key 6 (v 10 != 0), .key 7 (v 11 != 0),
   .syn]

/-! ### Values and traces of the readers -/

/-- The value channel `c` stores for a response frame: `1023 − raw` on channels 0 and 2, `raw` on 1 and 3, with `raw` the
two low bits of the second byte above the third byte (R71, R72, R74), in plain arithmetic. -/
def channelValue (c : Fin 4) (f : Frame) : Nat :=
  let raw := f.b1.toNat % 4 * 256 + f.b2.toNat
  if c = 0 ∨ c = 2 then 1023 - raw else raw

/-- The request bytes of channel `c`: `01`, `0x80 + 16·c`, `00` (R46, R70), in plain arithmetic. -/
def requestBytes (c : Fin 4) : List Byte := [0x01, BitVec.ofNat 8 (0x80 + 16 * c.val), 0x00]

/-- The values a pad's digital slots take: an unused entry 0, a used one 1 for level 0 and 0 for level 1, the answers `ds`
used in slot order (R80, R81). -/
def samplesOf : List PinRef → List Bool → List Sample
  | [], _ => []
  | .unused :: rs, ds => 0 :: samplesOf rs ds
  | .pin _ :: rs, d :: ds => (if d then 0 else 1) :: samplesOf rs ds
  | .pin _ :: rs, [] => 0 :: samplesOf rs []

/-- The `WIRE` entries of reading the used pins in order with the answers `ds` (R80, R81). -/
def readsTrace (ns : List Nat) (ds : List Bool) : List WireEntry := List.zipWith WireEntry.r ns ds

/-- The `WIRE` entries of preparing a pad's pins: an `SI` for each used pin in slot order, then the pull call (R82). -/
def prepareTrace (m : Vector PinRef 12) : List WireEntry :=
  (usedPins m).map WireEntry.si ++ [.pull (maskOf (usedPins m)) .up]

/-- The `WIRE` entries of one pad's part of a pass: the digital reads, then the four exchanges (R37, R100). -/
def padTrace (l : LinkPins) (m : Vector PinRef 12) (ds : List Bool) (f : Fin 4 → Frame) : List WireEntry :=
  readsTrace (usedPins m) ds ++ transferTrace l (requestBytes 0) (f 0).bytes ++
    transferTrace l (requestBytes 1) (f 1).bytes ++ transferTrace l (requestBytes 2) (f 2).bytes ++
    transferTrace l (requestBytes 3) (f 3).bytes

/-- The identifiers a caller writes for a pin map: −1 for an unused entry (R13, R58). -/
def mapIds (m : Vector PinRef 12) : List Int :=
  m.toList.map fun r => match r with
    | .unused => -1
    | .pin n => (n : Int)

/-- The configuration is valid, and `type` and `map` are what it installs: the fixed map of its type, whatever map it
supplies, or its own map of twelve valid entries (R13, R106). -/
def cfgInstalls (c : PadCfg) (type : PadType) (map : Vector PinRef 12) : Prop :=
  (c.type = .fixedMapA ∧ type = .fixedMapA ∧ map = Config.pinMapA.map PinRef.ofParam) ∨
  (c.type = .fixedMapB ∧ type = .fixedMapB ∧ map = Config.pinMapB.map PinRef.ofParam) ∨
  (c.type = .custom ∧ type = .custom ∧ c.pinMap = mapIds map ∧ ∀ n ∈ usedPins map, n ≤ Config.pinMax)

/-- The configuration of pad `p` is rejected with the error `e`: type "none" or unknown, or a Custom map of valid
identifiers that has not exactly twelve (R106, R120). -/
def cfgRejected (p : PadIx) (c : PadCfg) (e : Error) : Prop :=
  ((c.type = .none ∨ ∃ n, c.type = .unknown n) ∧ e = .invalidPadType p c.type) ∨
  (c.type = .custom ∧ c.pinMap.length ≠ 12 ∧ (∀ n ∈ c.pinMap, -1 ≤ n ∧ n ≤ (Config.pinMax : Int)) ∧
    e = .pinMapLength p c.pinMap.length)

/-- Every identifier a configuration supplies may stand in a map: −1 or a valid pin number, in a Custom map; the map of a
fixed type is ignored (R13, R106 corner case c, R125). -/
def cfgInRange (c : PadCfg) : Prop :=
  c.type = .custom → ∀ n ∈ c.pinMap, -1 ≤ n ∧ n ≤ (Config.pinMax : Int)

/-- Slot `i` of the configuration `c` names pin `n`: by the fixed map of its type, or by the map supplied with type Custom
(R13, R106). -/
def cfgNames (c : PadCfg) (i n : Nat) : Prop :=
  (c.type = .fixedMapA ∧ ∃ k, Config.pinMapA[i]? = some (some k) ∧ k.val = n) ∨
  (c.type = .fixedMapB ∧ ∃ k, Config.pinMapB[i]? = some (some k) ∧ k.val = n) ∨
  (c.type = .custom ∧ c.pinMap[i]? = some (n : Int))

/-- A pin conflict, as the table of R125 has it: two of the four link pins are equal, a map names a link pin, or the same
pin stands in two slots of one pad or in both pads (R125, R152, D29). -/
def pinConflict (l : LinkPins) (cfgs : List PadCfg) : Prop :=
  (l.clk = l.dout ∨ l.clk = l.din ∨ l.clk = l.sel ∨ l.dout = l.din ∨ l.dout = l.sel ∨ l.din = l.sel) ∨
  (∃ c ∈ cfgs, ∃ i n, cfgNames c i n ∧ (n = l.clk ∨ n = l.dout ∨ n = l.din ∨ n = l.sel)) ∨
  (∃ c ∈ cfgs, ∃ i j n, i ≠ j ∧ cfgNames c i n ∧ cfgNames c j n) ∨
  ∃ c0 c1, cfgs = [c0, c1] ∧ ∃ i j n, cfgNames c0 i n ∧ cfgNames c1 j n

/-- The setup of pad `p` returns the error `e`: its configuration is rejected, or it is valid and the draw `allocFails` says
that the sink's allocation fails (R106, R120, R122). -/
def setupFails (p : PadIx) (c : PadCfg) (allocFails : Bool) (e : Error) : Prop :=
  cfgRejected p c e ∨ ((∃ ty m, cfgInstalls c ty m) ∧ allocFails = true ∧ e = .resourceExhaustion p)

/-- The releases of the sinks the pads hold, pad 0 first (R106 corner case f, R107). -/
def State.heldSinks (s : State) : List SinkCall :=
  ([0, 1] : List PadIx).filterMap fun p => (s.pad p).sink.map SinkCall.release

/-- The same instruction executed `n` times, one after the other. -/
def repeatExec (i : Instr) : Nat → State → Out
  | 0, s => .next s
  | n + 1, s => andThen (exec i s) (repeatExec i n)

/-! ### The invariant -/

/-- Slot `i` of pad `p` has been written since reset. -/
def State.written (s : State) (p : PadIx) (i : SlotIx) : Prop := (s.slot p i).isSome = true

/-- The slots a pass in progress has already written, by its position (R11, R37, R100 corner case e). -/
def State.progress (s : State) : Prop :=
  match s.seq with
  | .out => True
  | .dig p i => ∀ j : Fin 12, j < i → s.written p (digitalSlot j)
  | .adc p c => (∀ j : Fin 12, s.written p (digitalSlot j)) ∧ ∀ k : Fin 4, k < c → s.written p (analogSlot k)
  | .norm p _ => ∀ i : SlotIx, s.written p i
  | .rearm => True

/-- What holds of the block between two steps. -/
structure State.Inv (s : State) : Prop where
  /-- The pin table is in its canonical form. -/
  pinsCanonical : s.pins.wf
  /-- No caller holds the mutex between steps (R16, log 14). -/
  mutexFree : s.mutex = .free
  /-- The link was initialised by the create that built the set (R20, R107). -/
  readyWhenCreated : s.created = true → s.linkReady = true
  /-- `ACQ.count > 0` exactly when Armed (R17). -/
  armedIffCounted : s.created = true → (0 < s.count ↔ s.armed = .armed)
  /-- Without an AcquisitionSet nothing is armed and no pass runs (R26, R108). -/
  quietWhenNotCreated : s.created = false → s.armed = .idle ∧ s.inPass = false
  /-- `in_pass` is set exactly while the sequence position is not OUT (R19, R21). -/
  passHasPosition : s.inPass = true ↔ s.seq ≠ .out
  /-- The lines rest at `CLK` = 0, `SEL` = 1 (R15, R64). -/
  linesAtRest : s.created = true → s.clk = false ∧ s.sel = true
  /-- A digital slot holds 0 or 1 (R12). -/
  digitalRange : ∀ p (i : Fin 12) v, s.slot p (digitalSlot i) = some v → v = 0 ∨ v = 1
  /-- An analog slot holds a value in 0 to 1023 (R12, R74). -/
  analogRange : ∀ p (c : Fin 4) v, s.slot p (analogSlot c) = some v → v.toNat ≤ 1023
  /-- A pin map holds valid pin numbers or UNUSED (R13). -/
  mapsValid : ∀ p (i : Fin 12) n, (s.pad p).pinMap[i] = .pin n → n ≤ Config.pinMax
  /-- The link pins are valid pin numbers (R14, R55). -/
  linkValid : s.linkcfg.clk ≤ Config.pinMax ∧ s.linkcfg.dout ≤ Config.pinMax ∧ s.linkcfg.din ≤ Config.pinMax ∧
    s.linkcfg.sel ≤ Config.pinMax
  /-- A pad holds a sink exactly while it is live (R13, R106, R107, R108). -/
  sinkWhenLive : ∀ p, s.live p = true ↔ (s.pad p).sink.isSome = true
  /-- The slots the pass in progress has passed are written (R100 corner case e). -/
  passProgress : s.progress

/-! ### Safe runs -/

/-- The next step does not fault: no slot is read that nothing has written (R27). -/
def State.stepSafe (s : State) : Prop := ∀ f, step s ≠ .fault f

end Sys2Proof.Machine
end

