-- ==== Sys2Proof/Certificates/Slice0/Obligations.lean ====
section
/-! DEFINITION. Certificates/Slice0/Obligations.lean: the statements for the provers. Each docstring names the rule it
formalises; a clause that rests on a decision of the spec (D<n>) or on a log entry of the model says so. -/

open Sys2Proof Sys2Proof.Machine

/-! ### Encoding (30_encoding.md) -/

/-- Decoding the encoding of any well-formed instruction gives it back, with every operand (R53, R54, R57; the word is the
spec's own, D12, the operand data log 11). -/
def Obligations.DecodeEncodeRoundTrip : Prop :=
  ∀ i : Instr, i.wellFormed = true → decode (encode i) = .ok i

/-- Every packet the decoder accepts is the encoding of what it reads, so each word has one meaning; and what it reads is
well formed: slots 12 to 15 of DIG.RDSLOT never come out of the decoder (R54, R55; D12, log 11). -/
def Obligations.DecodedPacketsAreEncodings : Prop :=
  ∀ (pk : Packet) (i : Instr), decode pk = .ok i → encode i = pk ∧ i.wellFormed = true

/-- The decoder agrees with the match and mask columns of R54: no word matches two rows, a word that matches no row is
`IllegalCommand`, and a word that matches a row is never read as another row's instruction and is illegal only for slots 12
to 15 of DIG.RDSLOT (R54, R55; the words are the spec's own, D12, the operand data log 11). -/
def Obligations.DecoderAgreesWithOperationMap : Prop :=
  (∀ (w : BitVec 16) (r q : CmdRow), r ∈ cmdRows → q ∈ cmdRows → r.hit w = true → q.hit w = true → r = q) ∧
  ∀ (w : BitVec 16) (data : List Datum),
    ((∀ r ∈ cmdRows, r.hit w = false) → decode (.cmd w data) = .error (.illegalCommand w)) ∧
    (∀ i, decode (.cmd w data) = .ok i → ∃ r ∈ cmdRows, r.hit w = true ∧ r.mnemonic = i.mnemonic) ∧
    (∀ r ∈ cmdRows, r.hit w = true →
      (decode (.cmd w data) = .error (.illegalCommand w) ↔ r.mnemonic = "DIG.RDSLOT" ∧ 12 ≤ w.toNat % 16))

/-- Words written out from the spec's tables decode to the instructions they stand for: one or more of each family of R54,
a slot above 11, two of the frames of R46 and one the block never issues (the `CMD16` words are the spec's own, D12; the frames as commands log 12). -/
def Obligations.SpecWordsDecode : Prop :=
  decode (.cmd 0x1303 [.byte 0x01, .byte 0x80, .byte 0x00]) = .ok (.linkXfer 3 [0x01, 0x80, 0x00]) ∧
  decode (.cmd 0x1101 []) = .ok (.linkBit true) ∧
  decode (.cmd 0x2206 []) = .ok (.adcRdch 1 2) ∧
  decode (.cmd 0x301B []) = .ok (.digRdslot 1 11) ∧
  decode (.cmd 0x300C []) = .error (.illegalCommand 0x300C) ∧
  decode (.cmd 0x4003 []) = .ok (.normHat 1 .horizontal) ∧
  decode (.cmd 0x420D []) = .ok (.normKey 1 5) ∧
  decode (.cmd 0x5201 []) = .ok (.lifeAttach 1) ∧
  decode (.cmd 0x5400 [.pin 11, .pin 12, .pin 13, .pin 8]) = .ok (.setupLinkcfg 11 12 13 8) ∧
  decode (.frame 0x018000) = .ok .adcReqCh0 ∧ decode (.frame 0x01B000) = .ok .adcReqCh3 ∧
  decode (.frame 0x01C000) = .error (.frameChannel 0x01C000)

/-! ### The step -/

/-- A step runs the decoded instruction: the call at the head of the queue is taken off it and executed; a word that matches
no row ends the run with `IllegalCommand` (R55, R125, R157). The queue is the model's (log 2), and so are the other three
clauses: the refusal of operand data that do not fit the word (log 11), and the refusals of a 24-bit pattern taken as a
command, `ChannelOutOfRange` for a frame of channel 4 to 7 among them (log 12). -/
def Obligations.StepRunsDecodedInstruction : Prop :=
  ∀ (s : State) (pk : Packet) (rest : List Input), s.input = .call pk :: rest →
    (∀ i, decode pk = .ok i → step s = exec i { s with input := rest }) ∧
    (∀ w, decode pk = .error (.illegalCommand w) → step s = .refused (.illegalCommand w)) ∧
    (∀ w, decode pk = .error (.operandData w) → step s = .refused (.operandData w)) ∧
    (∀ w, decode pk = .error (.frameNotIssued w) → step s = .refused (.frameNotIssued w)) ∧
    (∀ w, decode pk = .error (.frameChannel w) → step s = .refused .channelOutOfRange)

/-- The scheduler performs no work while Idle: with no pass running, a turn of the agent changes nothing but the queue it
came from, and an empty queue changes nothing at all (R101, R102, R135). -/
def Obligations.NoWorkWhileIdle : Prop :=
  ∀ s : State, s.armed = .idle → s.inPass = false →
    (s.input = [] → step s = .next s) ∧
    (∀ rest, s.input = .turn :: rest → step s = .next { s with input := rest }) ∧
    (s.created = true → exec .schedTick s = .next { s with results := s.results ++ [.done] })

/-- The pending firing: while Armed with no pass running, the agent's turn starts a pass at pad 0, slot 0, with `in_pass`
set and nothing else changed (R21, R36, R126; D21, log 14). -/
def Obligations.PendingFiringStartsPass : Prop :=
  ∀ s : State, s.created = true → s.armed = .armed → s.inPass = false →
    (s.input = [] → step s = .next { s with inPass := true, seq := .dig 0 0 }) ∧
    (∀ rest, s.input = .turn :: rest → step s = .next { s with inPass := true, seq := .dig 0 0, input := rest })

/-! ### LINK (40_serial_link.md) -/

/-- LINK.INIT: the eleven calls in their order, directions set, lines at `CLK` 0, `DOUT` 0, `SEL` 1, `LINK_READY` set,
nothing else changed (R60; the order is the spec's choice, D5). -/
def Obligations.LinkInitSetsUpLines : Prop :=
  ∀ s : State, s.created = true →
    ∃ t, exec .linkInit s = .next t ∧
      t = { s with
        pins := t.pins, clk := false, dout := false, sel := true, linkReady := true
        wire := s.wire ++
          [.so s.linkcfg.clk, .so s.linkcfg.dout, .so s.linkcfg.sel, .si s.linkcfg.din, .w s.linkcfg.clk false,
           .w s.linkcfg.dout false, .w s.linkcfg.sel true, .w s.linkcfg.clk true, .d, .w s.linkcfg.clk false, .d]
        results := s.results ++ [.done] } ∧
      (s.pins.wf → ∀ n, PinTable.get n t.pins =
        if n = s.linkcfg.din then { PinTable.get n s.pins with dir := .input }
        else if n = s.linkcfg.clk ∨ n = s.linkcfg.dout ∨ n = s.linkcfg.sel then
          { PinTable.get n s.pins with dir := .output }
        else PinTable.get n s.pins)

/-- LINK.BIT b: data-out driven, settle, clock raised, data-in sampled, hold, clock lowered; the sampled level is returned;
`SEL` and everything else stay (R61; delays as markers D8, issued alone D40). -/
def Obligations.LinkBitRunsOneCell : Prop :=
  ∀ (b : Bool) (s : State), s.created = true → s.linkReady = true →
    let d := s.levels.headD (Config.pinLevel s.linkcfg.din s.past.wire
      (s.wire ++ [.w s.linkcfg.dout b, .d, .w s.linkcfg.clk true]))
    exec (.linkBit b) s = .next { s with
      dout := b, clk := false, levels := s.levels.tail
      wire := s.wire ++
        [.w s.linkcfg.dout b, .d, .w s.linkcfg.clk true, .r s.linkcfg.din d, .d, .w s.linkcfg.clk false]
      results := s.results ++ [.bit d] }

/-- LINK.BYTE v: eight bit cells, bit 7 first, and the returned byte has the first sample in bit 7 (R62). -/
def Obligations.LinkByteMostSignificantFirst : Prop :=
  ∀ (v : Byte) (s : State), s.created = true → s.linkReady = true →
    ∃ r : Byte, exec (.linkByte v) s = .next { s with
        dout := v.getLsbD 0, clk := false, levels := s.levels.drop 8
        wire := s.wire ++ cellsTrace s.linkcfg ((List.range 8).map fun j => v.getLsbD (7 - j))
          ((List.range 8).map fun j => r.getLsbD (7 - j))
        results := s.results ++ [.byte r] } ∧
      (8 ≤ s.levels.length → (List.range 8).map (fun j => r.getLsbD (7 - j)) = s.levels.take 8)

/-- LINK.XFER n, tx: select low, `n` bytes exchanged in order, select high; the `n` received bytes are returned and the
response buffer is written below `n` only; bytes beyond `n` are ignored; with `n` = 0 only select is pulsed (R63; select
active at level 0 is D4, `n` = 0 is D7, the three-byte buffer log 26). -/
def Obligations.LinkXferExchangesBytes : Prop :=
  ∀ (n : Byte) (tx : List Byte) (s : State), s.created = true → s.linkReady = true → n.toNat ≤ tx.length →
    ∃ rx : List Byte, rx.length = n.toNat ∧
      exec (.linkXfer n tx) s = .next { s with
        dout := lastBit (tx.take n.toNat) s.dout, clk := if n = 0 then s.clk else false, sel := true
        rx := { b0 := rx.getD 0 s.rx.b0, b1 := rx.getD 1 s.rx.b1, b2 := rx.getD 2 s.rx.b2 }
        levels := s.levels.drop (8 * n.toNat)
        wire := s.wire ++ transferTrace s.linkcfg (tx.take n.toNat) rx
        results := s.results ++ [.bytes rx] } ∧
      (8 * n.toNat ≤ s.levels.length → rx.flatMap byteBits = s.levels.take (8 * n.toNat))

/-- Where operations are refused by their operands or because the lines are not initialised: `LinkNotInitialised` for the
link operations, LINK.XFER with fewer bytes than `n` `TransferLength`, a channel select above 3 `ChannelOutOfRange`, a slot
above 11 `SlotOutOfRange`; a channel read is refused as the exchange it makes is (R63, R72, R125; the refusals are the
spec's own, D3, D7, D9; the order of the checks log 15). -/
def Obligations.OperandRefusals : Prop :=
  ∀ s : State,
    (s.linkReady = false → (∀ b, exec (.linkBit b) s = .refused .linkNotInitialised) ∧
      (∀ v, exec (.linkByte v) s = .refused .linkNotInitialised) ∧
      (∀ n tx, exec (.linkXfer n tx) s = .refused .linkNotInitialised)) ∧
    (s.created = true → s.linkReady = false → ∀ p,
      (∀ c : Fin 8, c.val < 4 → exec (.adcRdch p c) s = .refused .linkNotInitialised) ∧
      exec (.adcRdax p) s = .refused .linkNotInitialised) ∧
    (s.created = true → s.linkReady = true →
      ∀ (n : Byte) (tx : List Byte), tx.length < n.toNat → exec (.linkXfer n tx) s = .refused .transferLength) ∧
    (s.created = true → ∀ c : Fin 8, 4 ≤ c.val → exec (.adcReq c) s = .refused .channelOutOfRange ∧
      ∀ p, exec (.adcRdch p c) s = .refused .channelOutOfRange) ∧
    (s.created = true → ∀ (p : PadIx) (slot : SlotIx), 12 ≤ slot.val →
      exec (.digRdslot p slot) s = .refused .slotOutOfRange)

/-- The line discipline: with four different link pins and the lines at rest, whatever a link or ADC operation appends to
`WIRE` raises the clock only from 0, writes data-out and select only while the clock is 0, reads data-in only while the
clock is 1, and leaves the lines at rest (R64, derived by the spec from R60, R61, R63). -/
def Obligations.LinkOperationsKeepLineDiscipline : Prop :=
  ∀ (i : Instr) (s t : State), s.linkcfg.distinct = true → s.clk = false → s.sel = true →
    (i = .linkInit ∨ (∃ b, i = .linkBit b) ∨ (∃ v, i = .linkByte v) ∨ (∃ n tx, i = .linkXfer n tx) ∨
      (∃ p c, i = .adcRdch p c) ∨ (∃ p, i = .adcRdax p)) →
    exec i s = .next t →
    t.clk = false ∧ t.sel = true ∧
    ∃ w, t.wire = s.wire ++ w ∧ lineRun s.linkcfg LineState.rest w = some LineState.rest

/-! ### ADC (41_adc_reader.md) -/

/-- ADC.REQ c for channel selects 0 to 3 builds `{0x01, 0x80 | (c << 4), 0x00}` in `tx`, returns it, and changes nothing
else (R70). -/
def Obligations.AdcReqBuildsFrame : Prop :=
  ∀ (c : Fin 8) (s : State), c.val < 4 → s.created = true →
    exec (.adcReq c) s = .next { s with
      tx := { b0 := 0x01, b1 := BitVec.ofNat 8 (0x80 + 16 * c.val), b2 := 0x00 }
      results := s.results ++ [.frame { b0 := 0x01, b1 := BitVec.ofNat 8 (0x80 + 16 * c.val), b2 := 0x00 }] }

/-- The four `REQ24` rows build the four frames the block issues: `01 80 00`, `01 90 00`, `01 A0 00`, `01 B0 00` (R46;
a frame as a command is the model's choice, log 12). -/
def Obligations.RequestFrameRowsBuildFrames : Prop :=
  ∀ s : State, s.created = true →
    exec .adcReqCh0 s = .next { s with tx := ⟨0x01, 0x80, 0x00⟩, results := s.results ++ [.frame ⟨0x01, 0x80, 0x00⟩] } ∧
    exec .adcReqCh1 s = .next { s with tx := ⟨0x01, 0x90, 0x00⟩, results := s.results ++ [.frame ⟨0x01, 0x90, 0x00⟩] } ∧
    exec .adcReqCh2 s = .next { s with tx := ⟨0x01, 0xA0, 0x00⟩, results := s.results ++ [.frame ⟨0x01, 0xA0, 0x00⟩] } ∧
    exec .adcReqCh3 s = .next { s with tx := ⟨0x01, 0xB0, 0x00⟩, results := s.results ++ [.frame ⟨0x01, 0xB0, 0x00⟩] }

/-- ADC.DEC returns the 10-bit value of the two low bits of the second response byte and the eight bits of the third, for
every response, and writes nothing (R71). -/
def Obligations.AdcDecExtractsTenBits : Prop :=
  ∀ s : State, s.created = true →
    ∃ raw : BitVec 10, raw.toNat = s.rx.b1.toNat % 4 * 256 + s.rx.b2.toNat ∧
      exec .adcDec s = .next { s with results := s.results ++ [.raw raw] }

/-- ADC.RDCH p, c: the request of the channel is exchanged and the oriented result stored in slot `12 + c`; only the link
lines, the buffers `tx` and `rx`, of which nothing is said, and that slot change (R72, R22; the select level is D4, the
buffers log 31). -/
def Obligations.AdcRdchStoresOrientedResult : Prop :=
  ∀ (p : PadIx) (c : Fin 4) (s : State), s.created = true → s.linkReady = true →
    ∃ (f : Frame) (t : State), exec (.adcRdch p (c.castLE (by omega))) s = .next t ∧
      t = { s with
        x := (setSlot p (analogSlot c) (BitVec.ofNat 16 (channelValue c f)) s).x, tx := t.tx, rx := t.rx
        clk := false, dout := false, sel := true, levels := s.levels.drop 24
        wire := s.wire ++ transferTrace s.linkcfg (requestBytes c) f.bytes
        results := s.results ++ [.done] } ∧
      (24 ≤ s.levels.length → f.bytes.flatMap byteBits = s.levels.take 24)

/-- ADC.RDAX p: four exchanges, channels 0, 1, 2, 3, into slots 12, 13, 14, 15; 584 entries of `WIRE`; nothing but the link
lines, the buffers and those slots changes (R73, R22; the order of channels is D2, the buffers log 31). -/
def Obligations.AdcRdaxReadsFourChannels : Prop :=
  ∀ (p : PadIx) (s : State), s.created = true → s.linkReady = true →
    ∃ (f : Fin 4 → Frame) (t : State), exec (.adcRdax p) s = .next t ∧
      t = { s with
        x := t.x, tx := t.tx, rx := t.rx
        clk := false, dout := false, sel := true, levels := s.levels.drop 96
        wire := s.wire ++ transferTrace s.linkcfg (requestBytes 0) (f 0).bytes ++
          transferTrace s.linkcfg (requestBytes 1) (f 1).bytes ++
          transferTrace s.linkcfg (requestBytes 2) (f 2).bytes ++
          transferTrace s.linkcfg (requestBytes 3) (f 3).bytes
        results := s.results ++ [.done] } ∧
      t.wire.length = s.wire.length + 584 ∧
      (∀ c, t.slot p (analogSlot c) = some (BitVec.ofNat 16 (channelValue c (f c)))) ∧
      (∀ q i, (q ≠ p ∨ ∀ c, i ≠ analogSlot c) → t.slot q i = s.slot q i)

/-- What the environment presents on data-in during cells 0 to 13 of a channel read has no effect on any slot: two scripts
that agree from cell 14 on leave the same samples (R47). -/
def Obligations.EarlyCellsDoNotReachSlots : Prop :=
  ∀ (p : PadIx) (c : Fin 4) (s : State) (a b : List Bool), s.created = true → s.linkReady = true →
    a.length = 24 → b.length = 24 → a.drop 14 = b.drop 14 →
    ∃ t u, exec (.adcRdch p (c.castLE (by omega))) { s with levels := a } = .next t ∧
      exec (.adcRdch p (c.castLE (by omega))) { s with levels := b } = .next u ∧ t.x = u.x ∧ t.events = u.events

/-- The orientation rule as a property: what a channel read decodes as `raw` is reported as `1023 − raw` on a vertical
channel and as `raw` on a horizontal one, and in both cases lies in [0, 1023] (R74). -/
def Obligations.ReportedValueIsOriented : Prop :=
  ∀ (p : PadIx) (c : Fin 4) (s : State), s.created = true → s.linkReady = true →
    ∃ (f : Frame) (t u : State) (id : Axis) (lo hi : Int) (flat fuzz raw value : Nat),
      exec (.adcRdch p (c.castLE (by omega))) s = .next t ∧
      t.wire = s.wire ++ transferTrace s.linkcfg (requestBytes c) f.bytes ∧
      raw = f.b1.toNat % 4 * 256 + f.b2.toNat ∧ exec (.normAbs p c) t = .next u ∧
      u.events[p] = s.events[p] ++ [.abs id value lo hi flat fuzz] ∧
      value = (if c = 0 ∨ c = 2 then 1023 - raw else raw) ∧ value ≤ 1023

/-- No error path: with data-in stuck at one level every channel of a pad stores the deterministic value of R75, 1023 or 0
by its orientation (derived by the spec from R71 and R72). -/
def Obligations.StuckDataInIsDeterministic : Prop :=
  ∀ (p : PadIx) (level : Bool) (s : State) (rest : List Bool), s.created = true → s.linkReady = true →
    s.levels = List.replicate 96 level ++ rest →
    ∃ t, exec (.adcRdax p) s = .next t ∧ t.levels = rest ∧
      t.slot p 12 = some (if level then 0 else 1023) ∧ t.slot p 13 = some (if level then 1023 else 0) ∧
      t.slot p 14 = some (if level then 0 else 1023) ∧ t.slot p 15 = some (if level then 1023 else 0)

/-! ### DIG (42_digital_sampler.md) -/

/-- DIG.RDSLOT p, s: an unused slot is written 0 and no pin is read; a used one takes one read and stores 1 for level 0, 0
for level 1; nothing else changes (R80). -/
def Obligations.DigRdslotSamplesOnePin : Prop :=
  ∀ (p : PadIx) (i : Fin 12) (s : State), s.created = true →
    ((s.pad p).pinMap[i] = .unused →
      exec (.digRdslot p (digitalSlot i)) s = .next { s with
        x := (setSlot p (digitalSlot i) 0 s).x, results := s.results ++ [.done] }) ∧
    (∀ n, (s.pad p).pinMap[i] = .pin n →
      let level := s.levels.headD (Config.pinLevel n s.past.wire s.wire)
      exec (.digRdslot p (digitalSlot i)) s = .next { s with
        x := (setSlot p (digitalSlot i) (if level then 0 else 1) s).x
        levels := s.levels.tail, wire := s.wire ++ [.r n level], results := s.results ++ [.done] })

/-- DIG.RDBTN p: the twelve digital slots in order, one read per used slot, every slot written; nothing else changes (R81;
the order is D2). -/
def Obligations.DigRdbtnSamplesTwelveSlots : Prop :=
  ∀ (p : PadIx) (s : State), s.created = true →
    ∃ (ds : List Bool) (t : State), ds.length = (usedPins (s.pad p).pinMap).length ∧
      exec (.digRdbtn p) s = .next t ∧
      t = { s with
        x := t.x, levels := s.levels.drop ds.length
        wire := s.wire ++ readsTrace (usedPins (s.pad p).pinMap) ds, results := s.results ++ [.done] } ∧
      (List.finRange 12).map (fun i => t.slot p (digitalSlot i)) = (samplesOf (s.pad p).pinMap.toList ds).map some ∧
      (∀ q i, (q ≠ p ∨ 12 ≤ i.val) → t.slot q i = s.slot q i) ∧
      (ds.length ≤ s.levels.length → ds = s.levels.take ds.length)

/-- DIG.PULL p: every used pin becomes an input with pull-up, one batch call covers exactly the used pins, unused entries
are left out, every other pin and everything else stay (R82, R52; the calls' order, one call per pad and the mode are D11).
-/
def Obligations.DigPullPreparesUsedPins : Prop :=
  ∀ (p : PadIx) (s : State), s.created = true →
    ∃ (mask : Nat) (t : State), exec (.digPull p) s = .next t ∧
      t = { s with
        pins := t.pins
        wire := s.wire ++ (usedPins (s.pad p).pinMap).map WireEntry.si ++ [.pull mask .up]
        results := s.results ++ [.done] } ∧
      (∀ n, mask.testBit n = true ↔ ∃ i : Fin 12, (s.pad p).pinMap[i] = .pin n) ∧
      (s.pins.wf → ∀ n, PinTable.get n t.pins =
        if n ∈ usedPins (s.pad p).pinMap then { dir := .input, pull := .set .up } else PinTable.get n s.pins)

/-- Unused pin-map slots never produce a pressed button event and are excluded from the pull mask (R84). -/
def Obligations.UnusedSlotsNeverPressed : Prop :=
  ∀ (p : PadIx) (i : Fin 12) (s : State), s.created = true → (s.pad p).pinMap[i] = .unused →
    (∃ t, exec (.digRdbtn p) s = .next t ∧ t.slot p (digitalSlot i) = some 0 ∧
      ∀ k : Fin 8, i.val = 4 + k.val →
        ∃ u, exec (.normKey p k) t = .next u ∧ u.events[p] = s.events[p] ++ [.key k false]) ∧
    (∃ mask u, exec (.digPull p) s = .next u ∧ u.wire.getLast? = some (.pull mask .up) ∧
      ∀ n, mask.testBit n = true → ∃ j, j ≠ i ∧ (s.pad p).pinMap[j] = .pin n)

/-! ### NORM (43_event_normalizer.md) -/

/-- NORM.HAT p, a: one record of the axis with the ternary value, the declared range and tolerances, appended to the pad's
events; nothing else changes (R90; horizontal sign D15, range and tolerances D16). -/
def Obligations.NormHatReportsTernary : Prop :=
  ∀ (p : PadIx) (a : HatAxis) (s : State) (u v : Sample), s.created = true →
    s.slot p (match a with | .vertical => 0 | .horizontal => 2) = some u →
    s.slot p (match a with | .vertical => 1 | .horizontal => 3) = some v →
    exec (.normHat p a) s = .next { s with
      events := s.events.set p (s.events[p] ++
        [.abs (match a with | .vertical => .hatY | .horizontal => .hatX)
          (if u = 0 then (if v = 0 then 0 else 1) else (if v = 0 then -1 else 0)) (-1) 1 0 0])
      results := s.results ++ [.done] }

/-- The truth table of the vertical direction: −1 when only up is pressed, +1 when only down, 0 when neither or both (R95,
R90). -/
def Obligations.VerticalDirectionTruthTable : Prop :=
  ∀ (p : PadIx) (s : State) (up down : Bool), s.created = true →
    s.slot p 0 = some (if up then 1 else 0) → s.slot p 1 = some (if down then 1 else 0) →
    ∃ (t : State) (value lo hi : Int) (flat fuzz : Nat), exec (.normHat p .vertical) s = .next t ∧
      t.events[p] = s.events[p] ++ [.abs .hatY value lo hi flat fuzz] ∧
      (up = true → down = false → value = -1) ∧ (up = false → down = true → value = 1) ∧
      (up = down → value = 0)

/-- NORM.ABS p, k: one record of the axis with the slot's value clamped to [0, 1023], flat 4, fuzz 8; nothing else changes
(R91; which of 4/8 is flat D19, the clamp D38). -/
def Obligations.NormAbsReportsClamped : Prop :=
  ∀ (p : PadIx) (k : Fin 4) (s : State) (v : Sample), s.created = true → s.slot p ⟨12 + k.val, by omega⟩ = some v →
    exec (.normAbs p k) s = .next { s with
      events := s.events.set p (s.events[p] ++
        [.abs (match k with | 0 => .absRY | 1 => .absRX | 2 => .absY | 3 => .absX)
          (Int.ofNat (min v.toNat 1023)) 0 1023 4 8])
      results := s.results ++ [.done] }

/-- NORM.KEY p, k: one record of the button, pressed exactly when slot `4 + k` is not 0, on every call; nothing else changes
(R92; recorded by the index, D18). -/
def Obligations.NormKeyReportsLevel : Prop :=
  ∀ (p : PadIx) (k : Fin 8) (s : State) (v : Sample), s.created = true → s.slot p ⟨4 + k.val, by omega⟩ = some v →
    exec (.normKey p k) s = .next { s with
      events := s.events.set p (s.events[p] ++ [.key k (decide (v ≠ 0))]), results := s.results ++ [.done] }

/-- NORM.SYNC p: one marker appended to the events of pad `p`, nothing else changes, with or without events before it
(R93). -/
def Obligations.NormSyncAppendsMarker : Prop :=
  ∀ (p : PadIx) (s : State), s.created = true →
    exec (.normSync p) s = .next { s with
      events := s.events.set p (s.events[p] ++ [.syn]), results := s.results ++ [.done] }

/-- NORM.FLUSH p: exactly the 15 records of the batch in their order, and nothing else changes (R94, R51; the order inside
the hat and analog groups is D15, D17). -/
def Obligations.NormFlushIssuesBatch : Prop :=
  ∀ (p : PadIx) (s : State) (v : SlotIx → Sample), s.created = true → (∀ i, s.slot p i = some (v i)) →
    exec (.normFlush p) s = .next { s with
      events := s.events.set p (s.events[p] ++ batchOf v), results := s.results ++ [.done] } ∧
    (batchOf v).length = 15

/-- Reading a slot nothing has written since reset is the fault `UnwrittenSlot`, not a zero, for each operation that reads
slots (R27, R125). -/
def Obligations.UnwrittenSlotFaults : Prop :=
  ∀ (p : PadIx) (s : State), s.created = true →
    (∀ k : Fin 4, s.slot p ⟨12 + k.val, by omega⟩ = none →
      exec (.normAbs p k) s = .fault (.unwrittenSlot p ⟨12 + k.val, by omega⟩)) ∧
    (∀ k : Fin 8, s.slot p ⟨4 + k.val, by omega⟩ = none →
      exec (.normKey p k) s = .fault (.unwrittenSlot p ⟨4 + k.val, by omega⟩)) ∧
    (∀ a i, (a = .vertical ∧ (i = 0 ∨ i = 1) ∨ a = .horizontal ∧ (i = 2 ∨ i = 3)) → s.slot p i = none →
      ∃ j, s.slot p j = none ∧ exec (.normHat p a) s = .fault (.unwrittenSlot p j)) ∧
    (∀ i, s.slot p i = none → ∃ j, s.slot p j = none ∧ exec (.normFlush p) s = .fault (.unwrittenSlot p j))

/-! ### SCHED (44_scheduler_lifecycle.md) -/

/-- SCHED.PASS: each live pad gets all 16 slots written and exactly the 15 records of the batch of those slots, a pad that
is not live is skipped whole, and nothing outside the slots, the link, the buffers and the histories changes (R100, R110).
-/
def Obligations.PassSamplesEveryLivePad : Prop :=
  ∀ s : State, s.created = true → s.linkReady = true →
    ∃ t, exec .schedPass s = .next t ∧
      (∀ p, s.live p = true → ∃ v : SlotIx → Sample, (∀ i, t.slot p i = some (v i)) ∧
        t.events[p] = s.events[p] ++ batchOf v) ∧
      (∀ p, s.live p = false → t.events[p] = s.events[p] ∧ ∀ i, t.slot p i = s.slot p i) ∧
      t = { s with
        x := t.x, clk := t.clk, dout := t.dout, sel := t.sel, tx := t.tx, rx := t.rx, wire := t.wire
        events := t.events, levels := t.levels, results := s.results ++ [.done] }

/-- The order of a pass on the wire: the reads of pad 0, its four exchanges, then the reads of pad 1, its four exchanges,
and each live pad's slots hold what those reads and exchanges returned (R37, R100; increasing index is D2). -/
def Obligations.PassOrderOnWire : Prop :=
  ∀ s : State, s.created = true → s.linkReady = true →
    ∃ (t : State) (ds : PadIx → List Bool) (f : PadIx → Fin 4 → Frame), exec .schedPass s = .next t ∧
      t.wire = s.wire ++
        (if s.live 0 then padTrace s.linkcfg (s.pad 0).pinMap (ds 0) (f 0) else []) ++
        (if s.live 1 then padTrace s.linkcfg (s.pad 1).pinMap (ds 1) (f 1) else []) ∧
      ∀ p, s.live p = true →
        (ds p).length = (usedPins (s.pad p).pinMap).length ∧
        (List.finRange 12).map (fun i => t.slot p (digitalSlot i)) =
          (samplesOf (s.pad p).pinMap.toList (ds p)).map some ∧
        ∀ c, t.slot p (analogSlot c) = some (BitVec.ofNat 16 (channelValue c (f p c)))

/-- SCHED.TICK while Armed with no pass running: the pass of SCHED.PASS is run with `in_pass` set, and at the end `in_pass`
is 0 again and a firing is pending again; while a pass runs no firing is pending and a tick does nothing (R101; the pending
firing as a function of the state is D21, the tick during a pass log 21). -/
def Obligations.TickRunsPassAndRearms : Prop :=
  ∀ s : State, s.created = true →
    (s.linkReady = true → s.armed = .armed → s.inPass = false →
      ∃ t, exec .schedPass { s with inPass := true } = .next t ∧
        exec .schedTick s = .next { t with inPass := false } ∧
        t.armed = .armed ∧ t.count = s.count ∧ ({ t with inPass := false } : State).firingPending = true) ∧
    (s.inPass = true → exec .schedTick s = .next { s with results := s.results ++ [.done] })

/-- The two ways of running a tick agree: the pass agent walked position by position from the firing to the end does exactly
what SCHED.TICK does as one step (R19, R101, R147; log 13, log 14). -/
def Obligations.WalkedPassEqualsTick : Prop :=
  ∀ s : State, s.created = true → s.armed = .armed → s.inPass = false → s.seq = .out →
    exec .schedTick s = andThen (passMoves passLength (fire s)) fun t => .next { t with results := t.results ++ [.done] }

/-- A pass cannot fail and always finishes: from every state of the invariant in which a pass runs, the agent's next move
answers a next state, and the moves to the end leave `in_pass` 0 and the position OUT, the count and `armed` as they were; no
unwritten slot is read inside a pass (R39, R100, R104; the walk is the model's, log 13, log 14). -/
def Obligations.PassInProgressFinishes : Prop :=
  ∀ s : State, s.Inv → s.inPass = true →
    (∃ t, agentTurn s = .next t) ∧
    ∃ t, passMoves passLength s = .next t ∧ t.inPass = false ∧ t.seq = .out ∧ t.count = s.count ∧ t.armed = s.armed

/-! ### LIFE: attach and detach -/

/-- LIFE.ATTACH p, not interrupted: the count grows by 1, the transition from 0 to 1 arms the scheduler, the mutex is
released, the pad operand has no effect, nothing else changes (R103, R112; the interruption is a draw, D36, log 9). A
mutex held while no pass runs is the model's case: the wait ends at once, its holder taken to have released it (log 14). -/
def Obligations.AttachCountsAndArms : Prop :=
  ∀ (p : PadIx) (s : State), s.created = true → (s.mutex = .free ∨ s.inPass = false) → s.nextInterrupted = false →
    exec (.lifeAttach p) s = .next { s with
      count := s.count + 1, armed := if s.count = 0 then .armed else s.armed, mutex := .free
      interrupts := s.interrupts.tail, drawn := s.drawn + 1, results := s.results ++ [.done] }

/-- LIFE.ATTACH interrupted: `InterruptedOperation` is returned and no state of the block changes, whoever holds the mutex
(R123, R103; the draw and the results are the model's, log 7, log 9). -/
def Obligations.InterruptedAttachChangesNothing : Prop :=
  ∀ (p : PadIx) (s : State), s.created = true → s.nextInterrupted = true →
    exec (.lifeAttach p) s = .next { s with
      interrupts := s.interrupts.tail, drawn := s.drawn + 1, results := s.results ++ [.error .interrupted] }

/-- LIFE.DETACH p with no pass to drain: the count shrinks by 1, the transition from 1 to 0 disarms the scheduler, the mutex
is released, nothing else changes; with count 0 it is refused (R104; the refusal is the spec's own, D22). A mutex held while
no pass runs is the model's case: the wait ends at once, its holder taken to have released it (log 14). -/
def Obligations.DetachCountsAndDisarms : Prop :=
  ∀ (p : PadIx) (s : State), s.created = true → (s.mutex = .free ∨ s.inPass = false) →
    (s.count = 0 → exec (.lifeDetach p) s = .refused .detachWithoutAttach) ∧
    (2 ≤ s.count → exec (.lifeDetach p) s = .next { s with
      count := s.count - 1, mutex := .free, results := s.results ++ [.done] }) ∧
    (s.count = 1 → s.inPass = false → exec (.lifeDetach p) s = .next { s with
      count := 0, armed := .idle, mutex := .free, results := s.results ++ [.done] })

/-- A stop drains: the last LIFE.DETACH while a pass runs answers only when the pass has finished in full, with count 0,
Idle, no firing pending, and the mutex held meanwhile (R104, R39, R147; the form of the drain is D35, log 14). -/
def Obligations.LastDetachDrainsPass : Prop :=
  ∀ (p : PadIx) (s : State), s.Inv → s.created = true → s.inPass = true → s.count = 1 →
    ∃ t u, passMoves passLength { s with count := 0, armed := .idle, mutex := .held } = .next t ∧
      exec (.lifeDetach p) s = .next u ∧ u = { t with mutex := .free, results := t.results ++ [.done] } ∧
      u.count = 0 ∧ u.armed = .idle ∧ u.inPass = false ∧ u.seq = .out ∧ u.firingPending = false

/-- N nested attaches followed by N detaches leave the scheduler Idle, and it is Armed in between (R111; the attaches are
not interrupted, D36). -/
def Obligations.NestedAttachesAndDetachesEndIdle : Prop :=
  ∀ (n : Nat) (p q : PadIx) (s : State) (rest : List Bool), s.created = true → s.mutex = .free → s.inPass = false →
    s.count = 0 → s.armed = .idle → s.interrupts = List.replicate n false ++ rest →
    ∃ t u, repeatExec (.lifeAttach p) n s = .next t ∧ t.count = n ∧ (0 < n → t.armed = .armed) ∧
      repeatExec (.lifeDetach q) n t = .next u ∧ u.count = 0 ∧ u.armed = .idle

/-- The consumer count is positive exactly when the timer is armed: it is so at reset and every step keeps it (R17). -/
def Obligations.ArmedExactlyWhenCounted : Prop :=
  (0 < State.reset.count ↔ State.reset.armed = .armed) ∧
  ∀ s t : State, (s.created = true → (0 < s.count ↔ s.armed = .armed)) → step s = .next t →
    t.created = true → (0 < t.count ↔ t.armed = .armed)

/-! ### SETUP, create and destroy -/

/-- SETUP.LINKCFG: the four link pins are overridden once, before create; no pin is touched (R105; the refusals of a second
override, of an override after create and of any identifier that is no valid pin are the spec's own, D37, D29; their order
log 17). -/
def Obligations.LinkcfgOverriddenOnce : Prop :=
  ∀ s : State,
    (∀ clk dout din sel : Nat, s.created = false → s.linkcfgSet = false → clk ≤ Config.pinMax → dout ≤ Config.pinMax →
      din ≤ Config.pinMax → sel ≤ Config.pinMax → exec (.setupLinkcfg clk dout din sel) s = .next { s with
        linkcfg := { clk := clk, dout := dout, din := din, sel := sel }, linkcfgSet := true
        results := s.results ++ [.done] }) ∧
    ∀ clk dout din sel : Int,
      (s.created = true → exec (.setupLinkcfg clk dout din sel) s = .refused .configAfterCreate) ∧
      (s.created = false → s.linkcfgSet = true →
        exec (.setupLinkcfg clk dout din sel) s = .refused .linkOverrideTwice) ∧
      (s.created = false → s.linkcfgSet = false → (∃ n ∈ [clk, dout, din, sel], n < 0 ∨ (Config.pinMax : Int) < n) →
        exec (.setupLinkcfg clk dout din sel) s = .refused .pinInvalid)

/-- SETUP.PAD with a valid configuration: the type, the map of the type, the name and a new sink are installed, the used pins
are made inputs with pull-ups, the other pad and everything else stay (R106; issued directly D40, the sink's handle log 25,
the allocation a draw, log 9). -/
def Obligations.SetupPadInstallsConfiguration : Prop :=
  ∀ (p : PadIx) (cfg : PadCfg) (ty : PadType) (m : Vector PinRef 12) (s : State), s.created = false →
    s.nextAllocFails = false → cfgInstalls cfg ty m →
    ∃ t h, exec (.setupPad p cfg) s = .next t ∧
      t = { s with
        pads := s.pads.set p { type := ty, pinMap := m, physId := cfg.physId, sink := some h }
        pins := t.pins, wire := s.wire ++ prepareTrace m, sinkLog := s.sinkLog ++ [.alloc h]
        allocFails := s.allocFails.tail, drawn := s.drawn + 1, results := s.results ++ [.done] } ∧
      (s.pins.wf → ∀ n, PinTable.get n t.pins =
        if n ∈ usedPins m then { dir := .input, pull := .set .up } else PinTable.get n s.pins)

/-- SETUP.PAD with a bad configuration returns the error synchronously, before a sink is allocated and before any pin is
touched; the pad is unconfigured, and a sink an earlier direct SETUP.PAD left it is released (R121, R106, R128: type "none"
or unknown is `InvalidPadType`, a Custom map without exactly 12 entries `PinMapLength`; the recorded values are R120's; the
pad that was configured before is log 19). -/
def Obligations.BadConfigurationIsReported : Prop :=
  ∀ (p : PadIx) (cfg : PadCfg) (e : Error) (s : State), s.created = false → cfgRejected p cfg e →
    exec (.setupPad p cfg) s = .next { s with
      pads := s.pads.set p { s.pad p with type := .none, sink := none }
      sinkLog := s.sinkLog ++ ((s.pad p).sink.map SinkCall.release).toList
      results := s.results ++ [.error e] }

/-- SETUP.PAD whose sink allocation fails returns `ResourceExhaustionError`; the pad is unconfigured, a sink it still held is
released, and no pin is touched (R122, R106, R128; the failure is a draw, log 9; the pad that was configured before is log
19). -/
def Obligations.FailedAllocationIsReported : Prop :=
  ∀ (p : PadIx) (cfg : PadCfg) (s : State), s.created = false → s.nextAllocFails = true →
    (cfg.type = .fixedMapA ∨ cfg.type = .fixedMapB ∨
      (cfg.type = .custom ∧ cfg.pinMap.length = 12 ∧ ∀ n ∈ cfg.pinMap, -1 ≤ n ∧ n ≤ Config.pinMax)) →
    exec (.setupPad p cfg) s = .next { s with
      pads := s.pads.set p { s.pad p with type := .none, sink := none }
      sinkLog := s.sinkLog ++ ((s.pad p).sink.map SinkCall.release).toList
      allocFails := s.allocFails.tail, drawn := s.drawn + 1
      results := s.results ++ [.error (.resourceExhaustion p)] }

/-- Reset is the successful completion of LIFE.CREATE: from power-on, an override of the link pins with four different valid
pins and a create with no configuration reach exactly the reset state with those link pins (R141, R25, R107; the values R25
does not give are the model's choices: the pads with no configuration log 3, the buffers log 4, the pins R25 calls
unspecified log 24, and what power-on holds log 23). -/
def Obligations.CreateReachesReset : Prop :=
  ∀ clk dout din sel : Nat, clk ≤ Config.pinMax → dout ≤ Config.pinMax → din ≤ Config.pinMax → sel ≤ Config.pinMax →
    ({ clk := clk, dout := dout, din := din, sel := sel } : LinkPins).distinct = true →
    let l : LinkPins := { clk := clk, dout := dout, din := din, sel := sel }
    andThen (exec (.setupLinkcfg clk dout din sel) State.powerOn) (exec (.lifeCreate [])) = .next { State.reset with
      linkcfg := l, linkcfgSet := true, pins := initDirs l []
      wire := [.so clk, .so dout, .so sel, .si din, .w clk false, .w dout false, .w sel true, .w clk true, .d,
        .w clk false, .d]
      results := [.done, .created] }

/-- LIFE.CREATE with valid configurations and no pin conflict: entry `i` becomes pad `i` with a new sink, an index without a
configuration is absent, a sink an earlier direct SETUP.PAD left is released first, the pads' pins are prepared in order and
then the link is initialised, no pin is read and no event emitted, every slot is unwritten, the scheduler is Idle with count
0, `WIRE` holds the calls of this create, `EVENTS` is empty, and nothing else changes; of the buffers nothing is said (R107,
R106 corner case f, R25, R143; the step order is D23, the histories of earlier sets log 6, the sinks' handles log 25). -/
def Obligations.CreateBuildsAcquisitionSet : Prop :=
  ∀ (cs : List (PadCfg × PadType × Vector PinRef 12)) (s : State), s.created = false →
    ¬ pinConflict s.linkPins (cs.map Prod.fst) → cs.length ≤ 2 → (0 < cs.length → s.nextAllocFails = false) → (1 < cs.length → (drawAlloc s).nextAllocFails = false) →
    (∀ c ∈ cs, cfgInstalls c.1 c.2.1 c.2.2) →
    ∃ (t : State) (hs : List Nat), exec (.lifeCreate (cs.map Prod.fst)) s = .next t ∧ hs.length = cs.length ∧
      t = { s with
        x := t.x, pads := t.pads, linkcfg := s.linkPins, clk := false, dout := false, sel := true, pins := t.pins
        linkReady := true, count := 0, armed := .idle, mutex := .free, inPass := false, created := true, seq := .out
        tx := t.tx, rx := t.rx
        wire := cs.flatMap (fun c => prepareTrace c.2.2) ++ initTrace s.linkPins
        events := Vector.replicate 2 [], past := t.past
        results := s.results ++ [.created], sinkLog := s.sinkLog ++ s.heldSinks ++ hs.map SinkCall.alloc
        allocFails := s.allocFails.drop cs.length, drawn := s.drawn + cs.length } ∧
      t.past.wire = s.past.wire ++ s.wire ∧ (∀ p : PadIx, t.past.events[p] = s.past.events[p] ++ s.events[p]) ∧
      (∀ p i, t.slot p i = none) ∧
      (s.pins.wf → ∀ n, PinTable.get n t.pins =
        let prepared := if n ∈ cs.flatMap (fun c => usedPins c.2.2) then { dir := .input, pull := .set .up }
          else PinTable.get n s.pins
        if n = s.linkPins.din then { prepared with dir := .input }
        else if n = s.linkPins.clk ∨ n = s.linkPins.dout ∨ n = s.linkPins.sel then { prepared with dir := .output }
        else prepared) ∧
      ∀ p : PadIx, match cs[p.val]? with
        | some c => t.pad p = { type := c.2.1, pinMap := c.2.2, physId := c.1.physId, sink := hs[p.val]? }
        | none => (t.pad p).type = .none ∧ (t.pad p).sink = none

/-- LIFE.CREATE with no pin conflict fails as a whole with the first error, a rejected configuration or a failed sink allocation: when pad 0 fails,
alone or before a second configuration, no pin is touched; when pad 1 fails, pad 0 was prepared and its sink is released
again; either way the sinks of earlier direct SETUP.PADs are released first, no link entry is made, both pads are
unconfigured, no AcquisitionSet exists, and nothing else changes but the draws (R107, R121, R122, R128; the roll-back is D23,
the draws log 9, the sinks' handles log 25). -/
def Obligations.CreateReportsFirstError : Prop :=
  ∀ (c0 : PadCfg) (e : Error) (s : State), s.created = false →
    (∀ cfgs, (cfgs = [c0] ∨ ∃ c1, cfgInRange c1 ∧ cfgs = [c0, c1]) → ¬ pinConflict s.linkPins cfgs → setupFails 0 c0 s.nextAllocFails e →
      ∃ t, exec (.lifeCreate cfgs) s = .next t ∧
        t = { s with
          pads := t.pads, sinkLog := s.sinkLog ++ s.heldSinks, allocFails := t.allocFails, drawn := t.drawn
          results := s.results ++ [.error e] } ∧
        ∀ p, t.live p = false ∧ (t.pad p).sink = none) ∧
    (∀ (c1 : PadCfg) (ty : PadType) (m : Vector PinRef 12), cfgInstalls c0 ty m → s.nextAllocFails = false →
      ¬ pinConflict s.linkPins [c0, c1] → setupFails 1 c1 (drawAlloc s).nextAllocFails e →
      ∃ t h, exec (.lifeCreate [c0, c1]) s = .next t ∧
        t = { s with
          pads := t.pads, pins := t.pins, wire := s.wire ++ prepareTrace m
          sinkLog := s.sinkLog ++ s.heldSinks ++ [.alloc h, .release h], allocFails := t.allocFails, drawn := t.drawn
          results := s.results ++ [.error e] } ∧
        (s.pins.wf → ∀ n, PinTable.get n t.pins =
          if n ∈ usedPins m then { dir := .input, pull := .set .up } else PinTable.get n s.pins) ∧
        ∀ p, t.live p = false ∧ (t.pad p).sink = none)

/-- A LIFE.CREATE that returns an error leaves no partial pad active and makes no LINK.INIT call: no AcquisitionSet exists,
both pads are unconfigured and hold no sink, the link configuration and the lines are as they were, and no pin was made an
output, written or read (R121, R107; the roll-back is D23). -/
def Obligations.FailedCreateLeavesNothingActive : Prop :=
  ∀ (cfgs : List PadCfg) (e : Error) (s t : State), exec (.lifeCreate cfgs) s = .next t →
    t.results = s.results ++ [.error e] →
    t.created = false ∧ (∀ p, t.live p = false ∧ (t.pad p).sink = none) ∧
      t.linkcfg = s.linkcfg ∧ t.linkcfgSet = s.linkcfgSet ∧ t.linkReady = s.linkReady ∧
      t.clk = s.clk ∧ t.dout = s.dout ∧ t.sel = s.sel ∧
      ∃ w, t.wire = s.wire ++ w ∧ ∀ n v, .so n ∉ w ∧ .w n v ∉ w ∧ .r n v ∉ w

/-- Where LIFE.CREATE is refused: an existing set, more than two configurations, an identifier that is no valid pin, and any
pin conflict: two equal link pins, default or overridden, a map that names a link pin, or a pin in two slots of one pad or in
both pads (R125, R107 corner case f, R152: the refusals are the spec's own, D27, D29, D34; the order of the checks is log 17,
that the map of a type that installs none counts for nothing and a Custom map counts whatever its length log 16). -/
def Obligations.CreateRefusals : Prop :=
  ∀ (cfgs : List PadCfg) (s : State),
    (s.created = true → exec (.lifeCreate cfgs) s = .refused .alreadyCreated) ∧
    (s.created = false → 2 < cfgs.length → exec (.lifeCreate cfgs) s = .refused .tooManyPads) ∧
    (s.created = false → cfgs.length ≤ 2 → (∃ c ∈ cfgs, ¬ cfgInRange c) →
      exec (.lifeCreate cfgs) s = .refused .pinInvalid) ∧
    (s.created = false → cfgs.length ≤ 2 → (∀ c ∈ cfgs, cfgInRange c) →
      pinConflict (if s.linkcfgSet then s.linkcfg else LinkPins.default) cfgs →
      exec (.lifeCreate cfgs) s = .refused .pinConflict)

/-- LIFE.DESTROY: with no pass running the scheduler is Idle, the pads are unconfigured and their sinks released, the two
bookkeeping bits and `LINK_READY` are cleared, and no Pin Interface call is made; while a pass runs the pass is drained
first, and destroy succeeds all the same (R108, R26, R39; D23, what stays log 20). -/
def Obligations.DestroyReleasesEverything : Prop :=
  ∀ s : State, s.created = true →
    (s.inPass = false →
      ∃ t, exec .lifeDestroy s = .next t ∧
        t = { s with
          armed := .idle, created := false, linkReady := false, linkcfgSet := false
          pads := t.pads, sinkLog := t.sinkLog, results := s.results ++ [.done] } ∧
        (∀ p, t.live p = false ∧ (s.live p = true → (t.pad p).sink = none)) ∧
        t.sinkLog = s.sinkLog ++ ([0, 1] : List PadIx).filterMap fun p =>
          if s.live p then (s.pad p).sink.map SinkCall.release else none) ∧
    (s.Inv → s.inPass = true →
      ∃ t u, passMoves passLength { s with armed := .idle } = .next t ∧ exec .lifeDestroy s = .next u ∧
        u.created = false ∧ u.inPass = false ∧ u.armed = .idle ∧ u.wire = t.wire ∧ u.events = t.events ∧
        (∀ p, u.live p = false ∧ (u.pad p).sink = none) ∧ u.results = t.results ++ [.done])

/-! ### The whole machine -/

/-- Without an AcquisitionSet every operation but SETUP.LINKCFG, SETUP.PAD and LIFE.CREATE is refused: `NotCreated`, or
`LinkNotInitialised` for the three link operations that look at the link first (R125, R26; D27, log 15). -/
def Obligations.NothingRunsBeforeCreate : Prop :=
  ∀ (i : Instr) (s : State), s.created = false →
    (∀ a b c d, i ≠ .setupLinkcfg a b c d) → (∀ p c, i ≠ .setupPad p c) → (∀ c, i ≠ .lifeCreate c) →
    exec i s = .refused .notCreated ∨
    (exec i s = .refused .linkNotInitialised ∧
      ((∃ b, i = .linkBit b) ∨ (∃ v, i = .linkByte v) ∨ ∃ n tx, i = .linkXfer n tx))

/-- Between create and destroy no configuration changes: no operation but LIFE.DESTROY changes a pad's configuration or the
link configuration of an existing set (R142, R41). -/
def Obligations.ConfigurationIsImmutable : Prop :=
  ∀ (i : Instr) (s t : State), s.created = true → i ≠ .lifeDestroy → exec i s = .next t →
    t.pads = s.pads ∧ t.linkcfg = s.linkcfg ∧ t.linkcfgSet = s.linkcfgSet

/-- A pad's readers and its normalizer never touch the other pad's slots or events (R11, R94). -/
def Obligations.PadsAreDisjoint : Prop :=
  ∀ (i : Instr) (p q : PadIx) (s t : State), q ≠ p →
    ((∃ c, i = .adcRdch p c) ∨ i = .adcRdax p ∨ (∃ j, i = .digRdslot p j) ∨ i = .digRdbtn p ∨ (∃ a, i = .normHat p a) ∨
      (∃ k, i = .normAbs p k) ∨ (∃ k, i = .normKey p k) ∨ i = .normSync p ∨ i = .normFlush p) →
    exec i s = .next t → (∀ j, t.slot q j = s.slot q j) ∧ t.events[q] = s.events[q]

/-- The histories only grow: what an operation that answers leaves in `WIRE` and `EVENTS`, after what earlier sets left in
them, begins with what stood there before; no operation but LIFE.CREATE starts them anew; and every operation that answers
hands back exactly one result (R23; the start of a new set's histories is R25 and log 6, the results are the model's, log 7).
-/
def Obligations.HistoriesOnlyGrow : Prop :=
  ∀ (i : Instr) (s t : State), exec i s = .next t →
    (∃ w, t.past.wire ++ t.wire = s.past.wire ++ s.wire ++ w) ∧
    (∀ p : PadIx, ∃ e, t.past.events[p] ++ t.events[p] = s.past.events[p] ++ s.events[p] ++ e) ∧
    ((∀ c, i ≠ .lifeCreate c) → t.past = s.past) ∧
    ∃ r, t.results = s.results ++ [r]

/-- The reset state is the table of R25: the link configuration, the lines, the flags, the scheduler, the unwritten slots, the
empty events, the calls of the create on the wire, and the directions of the link pins (what a pin never touched holds is
the model's choice, log 24; a create with no pad and no override, so the default link pins, log 1). -/
def Obligations.ResetStateIsTable : Prop :=
  State.reset.linkcfg = LinkPins.default ∧ State.reset.linkcfgSet = false ∧
  State.reset.clk = false ∧ State.reset.dout = false ∧ State.reset.sel = true ∧ State.reset.linkReady = true ∧
  State.reset.count = 0 ∧ State.reset.armed = .idle ∧ State.reset.mutex = .free ∧ State.reset.inPass = false ∧
  State.reset.created = true ∧ State.reset.seq = .out ∧ (∀ p i, State.reset.slot p i = none) ∧
  (∀ p : PadIx, State.reset.events[p] = [] ∧ State.reset.live p = false) ∧
  ∀ l : LinkPins, l = State.reset.linkcfg →
    State.reset.wire = [.so l.clk, .so l.dout, .so l.sel, .si l.din, .w l.clk false, .w l.dout false, .w l.sel true,
      .w l.clk true, .d, .w l.clk false, .d] ∧
    ∀ n, PinTable.get n State.reset.pins =
      if n = l.din then { dir := .input, pull := .unset }
      else if n = l.clk ∨ n = l.dout ∨ n = l.sel then { dir := .output, pull := .unset }
      else PinCfg.untouched

/-- The invariant holds at reset (R25). -/
def Obligations.ResetMeetsInvariant : Prop := State.reset.Inv

/-- Every step keeps the invariant: the pin table canonical, the mutex free, the count positive exactly when Armed, `in_pass`
exactly while a position is held, the lines at rest, every slot in its range, every map and link pin valid, a sink exactly at
a live pad, and the slots behind a pass in progress written (R12, R13, R15, R17, R19, R100). -/
def Obligations.StepKeepsInvariant : Prop :=
  ∀ s t : State, s.Inv → step s = .next t → t.Inv
end

