-- ==== Sys2Proof/Laws/PinTable.lean ====
section
/-! SUPPORT. Laws/PinTable.lean: every operation of the pin table keeps its canonical form; reading a pin after a write
gives what was written there and leaves every other pin alone (R31). -/
namespace Sys2Proof.Machine

/-- A pin listed after a write is the pin written or was listed before. -/
theorem PinTable.mem_put (n : Nat) (c : PinCfg) (t : PinTable) (e : Nat × PinCfg) (h : e ∈ put n c t) :
    (e.1 = n ∧ e.2 = c ∧ c ≠ PinCfg.untouched) ∨ e ∈ t := by
  induction t with
  | nil =>
    simp only [put, cons] at h
    split at h
    · simp at h
    · simp only [List.mem_singleton] at h; subst h; simp_all
  | cons d t ih =>
    simp only [put, cons] at h
    split at h
    · split at h
      · exact .inr h
      · rcases List.mem_cons.1 h with rfl | h
        · simp_all
        · exact .inr h
    · split at h
      · split at h
        · exact .inr (List.mem_cons_of_mem _ h)
        · rcases List.mem_cons.1 h with rfl | h
          · simp_all
          · exact .inr (List.mem_cons_of_mem _ h)
      · rcases List.mem_cons.1 h with rfl | h
        · exact .inr (List.mem_cons_self ..)
        · rcases ih h with h | h
          · exact .inl h
          · exact .inr (List.mem_cons_of_mem _ h)

theorem PinTable.wf_nil : PinTable.wf [] := ⟨List.Pairwise.nil, by simp⟩

/-- A table whose head is below every key and not untouched. -/
theorem PinTable.wf_cons_iff (e : Nat × PinCfg) (t : PinTable) :
    PinTable.wf (e :: t) ↔ (∀ d ∈ t, e.1 < d.1) ∧ e.2 ≠ PinCfg.untouched ∧ PinTable.wf t := by
  simp only [PinTable.wf, List.map_cons, List.pairwise_cons, List.mem_map, forall_exists_index, and_imp,
    forall_apply_eq_imp_iff₂, List.mem_cons, forall_eq_or_imp]
  tauto

/-- A write keeps the canonical form. -/
theorem PinTable.wf_put (n : Nat) (c : PinCfg) (t : PinTable) (h : t.wf) : (put n c t).wf := by
  induction t with
  | nil =>
    simp only [put, cons]
    split
    · exact wf_nil
    · exact (wf_cons_iff _ _).2 ⟨by simp, ‹_›, wf_nil⟩
  | cons d t ih =>
    obtain ⟨hlt, hd, ht⟩ := (wf_cons_iff _ _).1 h
    simp only [put, cons]
    split
    · split
      · exact h
      · refine (wf_cons_iff _ _).2 ⟨fun e he => ?_, ‹_›, h⟩
        rcases List.mem_cons.1 he with rfl | he
        · assumption
        · exact lt_trans ‹_› (hlt e he)
    · split
      · rename_i hn
        split
        · exact ht
        · exact (wf_cons_iff _ _).2 ⟨fun e he => hn ▸ hlt e he, ‹_›, ht⟩
      · refine (wf_cons_iff _ _).2 ⟨fun e he => ?_, hd, ih ht⟩
        rcases mem_put n c t e he with ⟨h1, -, -⟩ | he
        · omega
        · exact hlt e he

/-- A pin that no entry names is untouched. -/
theorem PinTable.get_eq_untouched (n : Nat) (t : PinTable) (h : ∀ e ∈ t, e.1 ≠ n) : get n t = PinCfg.untouched := by
  induction t with
  | nil => rfl
  | cons d t ih =>
    rw [get, if_neg (h d (List.mem_cons_self ..))]
    exact ih fun e he => h e (List.mem_cons_of_mem _ he)

/-- Reading the pin that was written. -/
theorem PinTable.get_put_same (n : Nat) (c : PinCfg) (t : PinTable) (h : t.wf) : get n (put n c t) = c := by
  induction t with
  | nil =>
    simp only [put, cons]
    split
    · simp_all [get]
    · simp [get]
  | cons d t ih =>
    obtain ⟨hlt, hd, ht⟩ := (wf_cons_iff _ _).1 h
    simp only [put, cons]
    split
    · split
      · rename_i h1 h2
        rw [h2]
        refine get_eq_untouched _ _ fun e he => ?_
        rcases List.mem_cons.1 he with rfl | he
        · omega
        · have := hlt e he; omega
      · simp [get]
    · split
      · split
        · rename_i h1 h2 h3
          rw [h3]
          exact get_eq_untouched _ _ fun e he => by have := hlt e he; omega
        · simp [get]
      · rename_i h1 h2
        rw [get, if_neg (fun h => h2 h.symm), ih ht]

/-- Reading any other pin. -/
theorem PinTable.get_put_ne (m n : Nat) (c : PinCfg) (t : PinTable) (h : m ≠ n) : get m (put n c t) = get m t := by
  induction t with
  | nil =>
    simp only [put, cons]
    split
    · rfl
    · simp [get, h.symm]
  | cons d t ih =>
    simp only [put, cons]
    split
    · split
      · rfl
      · simp [get, h.symm]
    · split
      · rename_i h1 h2
        have hd : d.1 ≠ m := fun hm => h (hm ▸ h2.symm)
        split
        · simp [get, hd]
        · simp [get, hd, h.symm]
      · simp only [get, ih]

/-- A change of direction keeps the canonical form. -/
theorem PinTable.wf_setDir (n : Nat) (d : Dir) (t : PinTable) (h : t.wf) : (setDir n d t).wf := wf_put _ _ _ h

/-- A change of the pull setting keeps the canonical form. -/
theorem PinTable.wf_setPull (n : Nat) (p : Pull) (t : PinTable) (h : t.wf) : (setPull n p t).wf := wf_put _ _ _ h

theorem PinTable.get_setDir (m n : Nat) (d : Dir) (t : PinTable) (h : t.wf) :
    get m (setDir n d t) = if m = n then { get n t with dir := d } else get m t := by
  by_cases hm : m = n
  · subst hm; simp [setDir, get_put_same _ _ _ h]
  · simp [hm, setDir, get_put_ne _ _ _ _ hm]

theorem PinTable.get_setPull (m n : Nat) (p : Pull) (t : PinTable) (h : t.wf) :
    get m (setPull n p t) = if m = n then { get n t with pull := p } else get m t := by
  by_cases hm : m = n
  · subst hm; simp [setPull, get_put_same _ _ _ h]
  · simp [hm, setPull, get_put_ne _ _ _ _ hm]

/-- Setting the direction of a list of pins keeps the canonical form. -/
theorem PinTable.wf_foldl_setDir (ns : List Nat) (d : Dir) (t : PinTable) (h : t.wf) :
    (ns.foldl (fun t n => t.setDir n d) t).wf := by
  induction ns generalizing t with
  | nil => exact h
  | cons n ns ih => exact ih _ (wf_setDir n d t h)

/-- Setting the pull of a list of pins keeps the canonical form. -/
theorem PinTable.wf_foldl_setPull (ns : List Nat) (p : Pull) (t : PinTable) (h : t.wf) :
    (ns.foldl (fun t n => t.setPull n p) t).wf := by
  induction ns generalizing t with
  | nil => exact h
  | cons n ns ih => exact ih _ (wf_setPull n p t h)

/-- What a pin holds after the directions of a list of pins were set. -/
theorem PinTable.get_foldl_setDir (m : Nat) (ns : List Nat) (d : Dir) (t : PinTable) (h : t.wf) :
    get m (ns.foldl (fun t n => t.setDir n d) t) = if m ∈ ns then { get m t with dir := d } else get m t := by
  induction ns generalizing t with
  | nil => simp
  | cons n ns ih =>
    rw [List.foldl_cons, ih _ (wf_setDir n d t h), get_setDir m n d t h]
    by_cases hm : m = n
    · subst hm; simp
    · simp [hm]

/-- What a pin holds after the pulls of a list of pins were set. -/
theorem PinTable.get_foldl_setPull (m : Nat) (ns : List Nat) (p : Pull) (t : PinTable) (h : t.wf) :
    get m (ns.foldl (fun t n => t.setPull n p) t) = if m ∈ ns then { get m t with pull := p } else get m t := by
  induction ns generalizing t with
  | nil => simp
  | cons n ns ih =>
    rw [List.foldl_cons, ih _ (wf_setPull n p t h), get_setPull m n p t h]
    by_cases hm : m = n
    · subst hm; simp
    · simp [hm]

end Sys2Proof.Machine
end

