-- ==== Sys2Proof/Laws/State.lean ====
section
/-! SUPPORT. Laws/State.lean: what each update of the state leaves in each field, one lemma per field per update, so that
no later proof unfolds a record update. -/
namespace Sys2Proof.Machine

variable (s : State)

/-! ### setSlot -/

@[simp] theorem setSlot_x (p : PadIx) (i : SlotIx) (v : Sample) : (setSlot p i v s).x = s.x.set p (s.x[p].set i (some v)) := rfl
@[simp] theorem setSlot_pads (p : PadIx) (i : SlotIx) (v : Sample) : (setSlot p i v s).pads = s.pads := rfl
@[simp] theorem setSlot_linkcfg (p : PadIx) (i : SlotIx) (v : Sample) : (setSlot p i v s).linkcfg = s.linkcfg := rfl
@[simp] theorem setSlot_linkcfgSet (p : PadIx) (i : SlotIx) (v : Sample) : (setSlot p i v s).linkcfgSet = s.linkcfgSet := rfl
@[simp] theorem setSlot_clk (p : PadIx) (i : SlotIx) (v : Sample) : (setSlot p i v s).clk = s.clk := rfl
@[simp] theorem setSlot_dout (p : PadIx) (i : SlotIx) (v : Sample) : (setSlot p i v s).dout = s.dout := rfl
@[simp] theorem setSlot_sel (p : PadIx) (i : SlotIx) (v : Sample) : (setSlot p i v s).sel = s.sel := rfl
@[simp] theorem setSlot_pins (p : PadIx) (i : SlotIx) (v : Sample) : (setSlot p i v s).pins = s.pins := rfl
@[simp] theorem setSlot_linkReady (p : PadIx) (i : SlotIx) (v : Sample) : (setSlot p i v s).linkReady = s.linkReady := rfl
@[simp] theorem setSlot_count (p : PadIx) (i : SlotIx) (v : Sample) : (setSlot p i v s).count = s.count := rfl
@[simp] theorem setSlot_armed (p : PadIx) (i : SlotIx) (v : Sample) : (setSlot p i v s).armed = s.armed := rfl
@[simp] theorem setSlot_mutex (p : PadIx) (i : SlotIx) (v : Sample) : (setSlot p i v s).mutex = s.mutex := rfl
@[simp] theorem setSlot_inPass (p : PadIx) (i : SlotIx) (v : Sample) : (setSlot p i v s).inPass = s.inPass := rfl
@[simp] theorem setSlot_created (p : PadIx) (i : SlotIx) (v : Sample) : (setSlot p i v s).created = s.created := rfl
@[simp] theorem setSlot_seq (p : PadIx) (i : SlotIx) (v : Sample) : (setSlot p i v s).seq = s.seq := rfl
@[simp] theorem setSlot_tx (p : PadIx) (i : SlotIx) (v : Sample) : (setSlot p i v s).tx = s.tx := rfl
@[simp] theorem setSlot_rx (p : PadIx) (i : SlotIx) (v : Sample) : (setSlot p i v s).rx = s.rx := rfl
@[simp] theorem setSlot_wire (p : PadIx) (i : SlotIx) (v : Sample) : (setSlot p i v s).wire = s.wire := rfl
@[simp] theorem setSlot_events (p : PadIx) (i : SlotIx) (v : Sample) : (setSlot p i v s).events = s.events := rfl
@[simp] theorem setSlot_past (p : PadIx) (i : SlotIx) (v : Sample) : (setSlot p i v s).past = s.past := rfl
@[simp] theorem setSlot_results (p : PadIx) (i : SlotIx) (v : Sample) : (setSlot p i v s).results = s.results := rfl
@[simp] theorem setSlot_sinkLog (p : PadIx) (i : SlotIx) (v : Sample) : (setSlot p i v s).sinkLog = s.sinkLog := rfl
@[simp] theorem setSlot_input (p : PadIx) (i : SlotIx) (v : Sample) : (setSlot p i v s).input = s.input := rfl
@[simp] theorem setSlot_levels (p : PadIx) (i : SlotIx) (v : Sample) : (setSlot p i v s).levels = s.levels := rfl
@[simp] theorem setSlot_allocFails (p : PadIx) (i : SlotIx) (v : Sample) : (setSlot p i v s).allocFails = s.allocFails := rfl
@[simp] theorem setSlot_interrupts (p : PadIx) (i : SlotIx) (v : Sample) : (setSlot p i v s).interrupts = s.interrupts := rfl
@[simp] theorem setSlot_drawn (p : PadIx) (i : SlotIx) (v : Sample) : (setSlot p i v s).drawn = s.drawn := rfl

/-! ### clearSlots -/

@[simp] theorem clearSlots_x : (clearSlots s).x = Vector.replicate 2 (Vector.replicate 16 none) := rfl
@[simp] theorem clearSlots_pads : (clearSlots s).pads = s.pads := rfl
@[simp] theorem clearSlots_linkcfg : (clearSlots s).linkcfg = s.linkcfg := rfl
@[simp] theorem clearSlots_linkcfgSet : (clearSlots s).linkcfgSet = s.linkcfgSet := rfl
@[simp] theorem clearSlots_clk : (clearSlots s).clk = s.clk := rfl
@[simp] theorem clearSlots_dout : (clearSlots s).dout = s.dout := rfl
@[simp] theorem clearSlots_sel : (clearSlots s).sel = s.sel := rfl
@[simp] theorem clearSlots_pins : (clearSlots s).pins = s.pins := rfl
@[simp] theorem clearSlots_linkReady : (clearSlots s).linkReady = s.linkReady := rfl
@[simp] theorem clearSlots_count : (clearSlots s).count = s.count := rfl
@[simp] theorem clearSlots_armed : (clearSlots s).armed = s.armed := rfl
@[simp] theorem clearSlots_mutex : (clearSlots s).mutex = s.mutex := rfl
@[simp] theorem clearSlots_inPass : (clearSlots s).inPass = s.inPass := rfl
@[simp] theorem clearSlots_created : (clearSlots s).created = s.created := rfl
@[simp] theorem clearSlots_seq : (clearSlots s).seq = s.seq := rfl
@[simp] theorem clearSlots_tx : (clearSlots s).tx = s.tx := rfl
@[simp] theorem clearSlots_rx : (clearSlots s).rx = s.rx := rfl
@[simp] theorem clearSlots_wire : (clearSlots s).wire = s.wire := rfl
@[simp] theorem clearSlots_events : (clearSlots s).events = s.events := rfl
@[simp] theorem clearSlots_past : (clearSlots s).past = s.past := rfl
@[simp] theorem clearSlots_results : (clearSlots s).results = s.results := rfl
@[simp] theorem clearSlots_sinkLog : (clearSlots s).sinkLog = s.sinkLog := rfl
@[simp] theorem clearSlots_input : (clearSlots s).input = s.input := rfl
@[simp] theorem clearSlots_levels : (clearSlots s).levels = s.levels := rfl
@[simp] theorem clearSlots_allocFails : (clearSlots s).allocFails = s.allocFails := rfl
@[simp] theorem clearSlots_interrupts : (clearSlots s).interrupts = s.interrupts := rfl
@[simp] theorem clearSlots_drawn : (clearSlots s).drawn = s.drawn := rfl

/-! ### setPad -/

@[simp] theorem setPad_x (p : PadIx) (d : Pad) : (setPad p d s).x = s.x := rfl
@[simp] theorem setPad_pads (p : PadIx) (d : Pad) : (setPad p d s).pads = s.pads.set p d := rfl
@[simp] theorem setPad_linkcfg (p : PadIx) (d : Pad) : (setPad p d s).linkcfg = s.linkcfg := rfl
@[simp] theorem setPad_linkcfgSet (p : PadIx) (d : Pad) : (setPad p d s).linkcfgSet = s.linkcfgSet := rfl
@[simp] theorem setPad_clk (p : PadIx) (d : Pad) : (setPad p d s).clk = s.clk := rfl
@[simp] theorem setPad_dout (p : PadIx) (d : Pad) : (setPad p d s).dout = s.dout := rfl
@[simp] theorem setPad_sel (p : PadIx) (d : Pad) : (setPad p d s).sel = s.sel := rfl
@[simp] theorem setPad_pins (p : PadIx) (d : Pad) : (setPad p d s).pins = s.pins := rfl
@[simp] theorem setPad_linkReady (p : PadIx) (d : Pad) : (setPad p d s).linkReady = s.linkReady := rfl
@[simp] theorem setPad_count (p : PadIx) (d : Pad) : (setPad p d s).count = s.count := rfl
@[simp] theorem setPad_armed (p : PadIx) (d : Pad) : (setPad p d s).armed = s.armed := rfl
@[simp] theorem setPad_mutex (p : PadIx) (d : Pad) : (setPad p d s).mutex = s.mutex := rfl
@[simp] theorem setPad_inPass (p : PadIx) (d : Pad) : (setPad p d s).inPass = s.inPass := rfl
@[simp] theorem setPad_created (p : PadIx) (d : Pad) : (setPad p d s).created = s.created := rfl
@[simp] theorem setPad_seq (p : PadIx) (d : Pad) : (setPad p d s).seq = s.seq := rfl
@[simp] theorem setPad_tx (p : PadIx) (d : Pad) : (setPad p d s).tx = s.tx := rfl
@[simp] theorem setPad_rx (p : PadIx) (d : Pad) : (setPad p d s).rx = s.rx := rfl
@[simp] theorem setPad_wire (p : PadIx) (d : Pad) : (setPad p d s).wire = s.wire := rfl
@[simp] theorem setPad_events (p : PadIx) (d : Pad) : (setPad p d s).events = s.events := rfl
@[simp] theorem setPad_past (p : PadIx) (d : Pad) : (setPad p d s).past = s.past := rfl
@[simp] theorem setPad_results (p : PadIx) (d : Pad) : (setPad p d s).results = s.results := rfl
@[simp] theorem setPad_sinkLog (p : PadIx) (d : Pad) : (setPad p d s).sinkLog = s.sinkLog := rfl
@[simp] theorem setPad_input (p : PadIx) (d : Pad) : (setPad p d s).input = s.input := rfl
@[simp] theorem setPad_levels (p : PadIx) (d : Pad) : (setPad p d s).levels = s.levels := rfl
@[simp] theorem setPad_allocFails (p : PadIx) (d : Pad) : (setPad p d s).allocFails = s.allocFails := rfl
@[simp] theorem setPad_interrupts (p : PadIx) (d : Pad) : (setPad p d s).interrupts = s.interrupts := rfl
@[simp] theorem setPad_drawn (p : PadIx) (d : Pad) : (setPad p d s).drawn = s.drawn := rfl

/-! ### logWire -/

@[simp] theorem logWire_x (e : WireEntry) : (logWire e s).x = s.x := rfl
@[simp] theorem logWire_pads (e : WireEntry) : (logWire e s).pads = s.pads := rfl
@[simp] theorem logWire_linkcfg (e : WireEntry) : (logWire e s).linkcfg = s.linkcfg := rfl
@[simp] theorem logWire_linkcfgSet (e : WireEntry) : (logWire e s).linkcfgSet = s.linkcfgSet := rfl
@[simp] theorem logWire_clk (e : WireEntry) : (logWire e s).clk = s.clk := rfl
@[simp] theorem logWire_dout (e : WireEntry) : (logWire e s).dout = s.dout := rfl
@[simp] theorem logWire_sel (e : WireEntry) : (logWire e s).sel = s.sel := rfl
@[simp] theorem logWire_pins (e : WireEntry) : (logWire e s).pins = s.pins := rfl
@[simp] theorem logWire_linkReady (e : WireEntry) : (logWire e s).linkReady = s.linkReady := rfl
@[simp] theorem logWire_count (e : WireEntry) : (logWire e s).count = s.count := rfl
@[simp] theorem logWire_armed (e : WireEntry) : (logWire e s).armed = s.armed := rfl
@[simp] theorem logWire_mutex (e : WireEntry) : (logWire e s).mutex = s.mutex := rfl
@[simp] theorem logWire_inPass (e : WireEntry) : (logWire e s).inPass = s.inPass := rfl
@[simp] theorem logWire_created (e : WireEntry) : (logWire e s).created = s.created := rfl
@[simp] theorem logWire_seq (e : WireEntry) : (logWire e s).seq = s.seq := rfl
@[simp] theorem logWire_tx (e : WireEntry) : (logWire e s).tx = s.tx := rfl
@[simp] theorem logWire_rx (e : WireEntry) : (logWire e s).rx = s.rx := rfl
@[simp] theorem logWire_wire (e : WireEntry) : (logWire e s).wire = s.wire ++ [e] := rfl
@[simp] theorem logWire_events (e : WireEntry) : (logWire e s).events = s.events := rfl
@[simp] theorem logWire_past (e : WireEntry) : (logWire e s).past = s.past := rfl
@[simp] theorem logWire_results (e : WireEntry) : (logWire e s).results = s.results := rfl
@[simp] theorem logWire_sinkLog (e : WireEntry) : (logWire e s).sinkLog = s.sinkLog := rfl
@[simp] theorem logWire_input (e : WireEntry) : (logWire e s).input = s.input := rfl
@[simp] theorem logWire_levels (e : WireEntry) : (logWire e s).levels = s.levels := rfl
@[simp] theorem logWire_allocFails (e : WireEntry) : (logWire e s).allocFails = s.allocFails := rfl
@[simp] theorem logWire_interrupts (e : WireEntry) : (logWire e s).interrupts = s.interrupts := rfl
@[simp] theorem logWire_drawn (e : WireEntry) : (logWire e s).drawn = s.drawn := rfl

/-! ### pinSetInput -/

@[simp] theorem pinSetInput_x (n : Nat) : (pinSetInput n s).x = s.x := rfl
@[simp] theorem pinSetInput_pads (n : Nat) : (pinSetInput n s).pads = s.pads := rfl
@[simp] theorem pinSetInput_linkcfg (n : Nat) : (pinSetInput n s).linkcfg = s.linkcfg := rfl
@[simp] theorem pinSetInput_linkcfgSet (n : Nat) : (pinSetInput n s).linkcfgSet = s.linkcfgSet := rfl
@[simp] theorem pinSetInput_clk (n : Nat) : (pinSetInput n s).clk = s.clk := rfl
@[simp] theorem pinSetInput_dout (n : Nat) : (pinSetInput n s).dout = s.dout := rfl
@[simp] theorem pinSetInput_sel (n : Nat) : (pinSetInput n s).sel = s.sel := rfl
@[simp] theorem pinSetInput_pins (n : Nat) : (pinSetInput n s).pins = s.pins.setDir n .input := rfl
@[simp] theorem pinSetInput_linkReady (n : Nat) : (pinSetInput n s).linkReady = s.linkReady := rfl
@[simp] theorem pinSetInput_count (n : Nat) : (pinSetInput n s).count = s.count := rfl
@[simp] theorem pinSetInput_armed (n : Nat) : (pinSetInput n s).armed = s.armed := rfl
@[simp] theorem pinSetInput_mutex (n : Nat) : (pinSetInput n s).mutex = s.mutex := rfl
@[simp] theorem pinSetInput_inPass (n : Nat) : (pinSetInput n s).inPass = s.inPass := rfl
@[simp] theorem pinSetInput_created (n : Nat) : (pinSetInput n s).created = s.created := rfl
@[simp] theorem pinSetInput_seq (n : Nat) : (pinSetInput n s).seq = s.seq := rfl
@[simp] theorem pinSetInput_tx (n : Nat) : (pinSetInput n s).tx = s.tx := rfl
@[simp] theorem pinSetInput_rx (n : Nat) : (pinSetInput n s).rx = s.rx := rfl
@[simp] theorem pinSetInput_wire (n : Nat) : (pinSetInput n s).wire = s.wire ++ [.si n] := rfl
@[simp] theorem pinSetInput_events (n : Nat) : (pinSetInput n s).events = s.events := rfl
@[simp] theorem pinSetInput_past (n : Nat) : (pinSetInput n s).past = s.past := rfl
@[simp] theorem pinSetInput_results (n : Nat) : (pinSetInput n s).results = s.results := rfl
@[simp] theorem pinSetInput_sinkLog (n : Nat) : (pinSetInput n s).sinkLog = s.sinkLog := rfl
@[simp] theorem pinSetInput_input (n : Nat) : (pinSetInput n s).input = s.input := rfl
@[simp] theorem pinSetInput_levels (n : Nat) : (pinSetInput n s).levels = s.levels := rfl
@[simp] theorem pinSetInput_allocFails (n : Nat) : (pinSetInput n s).allocFails = s.allocFails := rfl
@[simp] theorem pinSetInput_interrupts (n : Nat) : (pinSetInput n s).interrupts = s.interrupts := rfl
@[simp] theorem pinSetInput_drawn (n : Nat) : (pinSetInput n s).drawn = s.drawn := rfl

/-! ### pinSetOutput -/

@[simp] theorem pinSetOutput_x (n : Nat) : (pinSetOutput n s).x = s.x := rfl
@[simp] theorem pinSetOutput_pads (n : Nat) : (pinSetOutput n s).pads = s.pads := rfl
@[simp] theorem pinSetOutput_linkcfg (n : Nat) : (pinSetOutput n s).linkcfg = s.linkcfg := rfl
@[simp] theorem pinSetOutput_linkcfgSet (n : Nat) : (pinSetOutput n s).linkcfgSet = s.linkcfgSet := rfl
@[simp] theorem pinSetOutput_clk (n : Nat) : (pinSetOutput n s).clk = s.clk := rfl
@[simp] theorem pinSetOutput_dout (n : Nat) : (pinSetOutput n s).dout = s.dout := rfl
@[simp] theorem pinSetOutput_sel (n : Nat) : (pinSetOutput n s).sel = s.sel := rfl
@[simp] theorem pinSetOutput_pins (n : Nat) : (pinSetOutput n s).pins = s.pins.setDir n .output := rfl
@[simp] theorem pinSetOutput_linkReady (n : Nat) : (pinSetOutput n s).linkReady = s.linkReady := rfl
@[simp] theorem pinSetOutput_count (n : Nat) : (pinSetOutput n s).count = s.count := rfl
@[simp] theorem pinSetOutput_armed (n : Nat) : (pinSetOutput n s).armed = s.armed := rfl
@[simp] theorem pinSetOutput_mutex (n : Nat) : (pinSetOutput n s).mutex = s.mutex := rfl
@[simp] theorem pinSetOutput_inPass (n : Nat) : (pinSetOutput n s).inPass = s.inPass := rfl
@[simp] theorem pinSetOutput_created (n : Nat) : (pinSetOutput n s).created = s.created := rfl
@[simp] theorem pinSetOutput_seq (n : Nat) : (pinSetOutput n s).seq = s.seq := rfl
@[simp] theorem pinSetOutput_tx (n : Nat) : (pinSetOutput n s).tx = s.tx := rfl
@[simp] theorem pinSetOutput_rx (n : Nat) : (pinSetOutput n s).rx = s.rx := rfl
@[simp] theorem pinSetOutput_wire (n : Nat) : (pinSetOutput n s).wire = s.wire ++ [.so n] := rfl
@[simp] theorem pinSetOutput_events (n : Nat) : (pinSetOutput n s).events = s.events := rfl
@[simp] theorem pinSetOutput_past (n : Nat) : (pinSetOutput n s).past = s.past := rfl
@[simp] theorem pinSetOutput_results (n : Nat) : (pinSetOutput n s).results = s.results := rfl
@[simp] theorem pinSetOutput_sinkLog (n : Nat) : (pinSetOutput n s).sinkLog = s.sinkLog := rfl
@[simp] theorem pinSetOutput_input (n : Nat) : (pinSetOutput n s).input = s.input := rfl
@[simp] theorem pinSetOutput_levels (n : Nat) : (pinSetOutput n s).levels = s.levels := rfl
@[simp] theorem pinSetOutput_allocFails (n : Nat) : (pinSetOutput n s).allocFails = s.allocFails := rfl
@[simp] theorem pinSetOutput_interrupts (n : Nat) : (pinSetOutput n s).interrupts = s.interrupts := rfl
@[simp] theorem pinSetOutput_drawn (n : Nat) : (pinSetOutput n s).drawn = s.drawn := rfl

/-! ### pinConfigurePull -/

@[simp] theorem pinConfigurePull_x (ns : List Nat) (m : PullMode) : (pinConfigurePull ns m s).x = s.x := rfl
@[simp] theorem pinConfigurePull_pads (ns : List Nat) (m : PullMode) : (pinConfigurePull ns m s).pads = s.pads := rfl
@[simp] theorem pinConfigurePull_linkcfg (ns : List Nat) (m : PullMode) : (pinConfigurePull ns m s).linkcfg = s.linkcfg := rfl
@[simp] theorem pinConfigurePull_linkcfgSet (ns : List Nat) (m : PullMode) : (pinConfigurePull ns m s).linkcfgSet = s.linkcfgSet := rfl
@[simp] theorem pinConfigurePull_clk (ns : List Nat) (m : PullMode) : (pinConfigurePull ns m s).clk = s.clk := rfl
@[simp] theorem pinConfigurePull_dout (ns : List Nat) (m : PullMode) : (pinConfigurePull ns m s).dout = s.dout := rfl
@[simp] theorem pinConfigurePull_sel (ns : List Nat) (m : PullMode) : (pinConfigurePull ns m s).sel = s.sel := rfl
@[simp] theorem pinConfigurePull_pins (ns : List Nat) (m : PullMode) : (pinConfigurePull ns m s).pins = ns.foldl (fun t n => t.setPull n (.set m)) s.pins := rfl
@[simp] theorem pinConfigurePull_linkReady (ns : List Nat) (m : PullMode) : (pinConfigurePull ns m s).linkReady = s.linkReady := rfl
@[simp] theorem pinConfigurePull_count (ns : List Nat) (m : PullMode) : (pinConfigurePull ns m s).count = s.count := rfl
@[simp] theorem pinConfigurePull_armed (ns : List Nat) (m : PullMode) : (pinConfigurePull ns m s).armed = s.armed := rfl
@[simp] theorem pinConfigurePull_mutex (ns : List Nat) (m : PullMode) : (pinConfigurePull ns m s).mutex = s.mutex := rfl
@[simp] theorem pinConfigurePull_inPass (ns : List Nat) (m : PullMode) : (pinConfigurePull ns m s).inPass = s.inPass := rfl
@[simp] theorem pinConfigurePull_created (ns : List Nat) (m : PullMode) : (pinConfigurePull ns m s).created = s.created := rfl
@[simp] theorem pinConfigurePull_seq (ns : List Nat) (m : PullMode) : (pinConfigurePull ns m s).seq = s.seq := rfl
@[simp] theorem pinConfigurePull_tx (ns : List Nat) (m : PullMode) : (pinConfigurePull ns m s).tx = s.tx := rfl
@[simp] theorem pinConfigurePull_rx (ns : List Nat) (m : PullMode) : (pinConfigurePull ns m s).rx = s.rx := rfl
@[simp] theorem pinConfigurePull_wire (ns : List Nat) (m : PullMode) : (pinConfigurePull ns m s).wire = s.wire ++ [.pull (maskOf ns) m] := rfl
@[simp] theorem pinConfigurePull_events (ns : List Nat) (m : PullMode) : (pinConfigurePull ns m s).events = s.events := rfl
@[simp] theorem pinConfigurePull_past (ns : List Nat) (m : PullMode) : (pinConfigurePull ns m s).past = s.past := rfl
@[simp] theorem pinConfigurePull_results (ns : List Nat) (m : PullMode) : (pinConfigurePull ns m s).results = s.results := rfl
@[simp] theorem pinConfigurePull_sinkLog (ns : List Nat) (m : PullMode) : (pinConfigurePull ns m s).sinkLog = s.sinkLog := rfl
@[simp] theorem pinConfigurePull_input (ns : List Nat) (m : PullMode) : (pinConfigurePull ns m s).input = s.input := rfl
@[simp] theorem pinConfigurePull_levels (ns : List Nat) (m : PullMode) : (pinConfigurePull ns m s).levels = s.levels := rfl
@[simp] theorem pinConfigurePull_allocFails (ns : List Nat) (m : PullMode) : (pinConfigurePull ns m s).allocFails = s.allocFails := rfl
@[simp] theorem pinConfigurePull_interrupts (ns : List Nat) (m : PullMode) : (pinConfigurePull ns m s).interrupts = s.interrupts := rfl
@[simp] theorem pinConfigurePull_drawn (ns : List Nat) (m : PullMode) : (pinConfigurePull ns m s).drawn = s.drawn := rfl

/-! ### delay -/

@[simp] theorem delay_x : (delay s).x = s.x := rfl
@[simp] theorem delay_pads : (delay s).pads = s.pads := rfl
@[simp] theorem delay_linkcfg : (delay s).linkcfg = s.linkcfg := rfl
@[simp] theorem delay_linkcfgSet : (delay s).linkcfgSet = s.linkcfgSet := rfl
@[simp] theorem delay_clk : (delay s).clk = s.clk := rfl
@[simp] theorem delay_dout : (delay s).dout = s.dout := rfl
@[simp] theorem delay_sel : (delay s).sel = s.sel := rfl
@[simp] theorem delay_pins : (delay s).pins = s.pins := rfl
@[simp] theorem delay_linkReady : (delay s).linkReady = s.linkReady := rfl
@[simp] theorem delay_count : (delay s).count = s.count := rfl
@[simp] theorem delay_armed : (delay s).armed = s.armed := rfl
@[simp] theorem delay_mutex : (delay s).mutex = s.mutex := rfl
@[simp] theorem delay_inPass : (delay s).inPass = s.inPass := rfl
@[simp] theorem delay_created : (delay s).created = s.created := rfl
@[simp] theorem delay_seq : (delay s).seq = s.seq := rfl
@[simp] theorem delay_tx : (delay s).tx = s.tx := rfl
@[simp] theorem delay_rx : (delay s).rx = s.rx := rfl
@[simp] theorem delay_wire : (delay s).wire = s.wire ++ [.d] := rfl
@[simp] theorem delay_events : (delay s).events = s.events := rfl
@[simp] theorem delay_past : (delay s).past = s.past := rfl
@[simp] theorem delay_results : (delay s).results = s.results := rfl
@[simp] theorem delay_sinkLog : (delay s).sinkLog = s.sinkLog := rfl
@[simp] theorem delay_input : (delay s).input = s.input := rfl
@[simp] theorem delay_levels : (delay s).levels = s.levels := rfl
@[simp] theorem delay_allocFails : (delay s).allocFails = s.allocFails := rfl
@[simp] theorem delay_interrupts : (delay s).interrupts = s.interrupts := rfl
@[simp] theorem delay_drawn : (delay s).drawn = s.drawn := rfl

/-! ### driveClk -/

@[simp] theorem driveClk_x (v : Bool) : (driveClk v s).x = s.x := rfl
@[simp] theorem driveClk_pads (v : Bool) : (driveClk v s).pads = s.pads := rfl
@[simp] theorem driveClk_linkcfg (v : Bool) : (driveClk v s).linkcfg = s.linkcfg := rfl
@[simp] theorem driveClk_linkcfgSet (v : Bool) : (driveClk v s).linkcfgSet = s.linkcfgSet := rfl
@[simp] theorem driveClk_clk (v : Bool) : (driveClk v s).clk = v := rfl
@[simp] theorem driveClk_dout (v : Bool) : (driveClk v s).dout = s.dout := rfl
@[simp] theorem driveClk_sel (v : Bool) : (driveClk v s).sel = s.sel := rfl
@[simp] theorem driveClk_pins (v : Bool) : (driveClk v s).pins = s.pins := rfl
@[simp] theorem driveClk_linkReady (v : Bool) : (driveClk v s).linkReady = s.linkReady := rfl
@[simp] theorem driveClk_count (v : Bool) : (driveClk v s).count = s.count := rfl
@[simp] theorem driveClk_armed (v : Bool) : (driveClk v s).armed = s.armed := rfl
@[simp] theorem driveClk_mutex (v : Bool) : (driveClk v s).mutex = s.mutex := rfl
@[simp] theorem driveClk_inPass (v : Bool) : (driveClk v s).inPass = s.inPass := rfl
@[simp] theorem driveClk_created (v : Bool) : (driveClk v s).created = s.created := rfl
@[simp] theorem driveClk_seq (v : Bool) : (driveClk v s).seq = s.seq := rfl
@[simp] theorem driveClk_tx (v : Bool) : (driveClk v s).tx = s.tx := rfl
@[simp] theorem driveClk_rx (v : Bool) : (driveClk v s).rx = s.rx := rfl
@[simp] theorem driveClk_wire (v : Bool) : (driveClk v s).wire = s.wire ++ [.w s.linkcfg.clk v] := rfl
@[simp] theorem driveClk_events (v : Bool) : (driveClk v s).events = s.events := rfl
@[simp] theorem driveClk_past (v : Bool) : (driveClk v s).past = s.past := rfl
@[simp] theorem driveClk_results (v : Bool) : (driveClk v s).results = s.results := rfl
@[simp] theorem driveClk_sinkLog (v : Bool) : (driveClk v s).sinkLog = s.sinkLog := rfl
@[simp] theorem driveClk_input (v : Bool) : (driveClk v s).input = s.input := rfl
@[simp] theorem driveClk_levels (v : Bool) : (driveClk v s).levels = s.levels := rfl
@[simp] theorem driveClk_allocFails (v : Bool) : (driveClk v s).allocFails = s.allocFails := rfl
@[simp] theorem driveClk_interrupts (v : Bool) : (driveClk v s).interrupts = s.interrupts := rfl
@[simp] theorem driveClk_drawn (v : Bool) : (driveClk v s).drawn = s.drawn := rfl

/-! ### driveDout -/

@[simp] theorem driveDout_x (v : Bool) : (driveDout v s).x = s.x := rfl
@[simp] theorem driveDout_pads (v : Bool) : (driveDout v s).pads = s.pads := rfl
@[simp] theorem driveDout_linkcfg (v : Bool) : (driveDout v s).linkcfg = s.linkcfg := rfl
@[simp] theorem driveDout_linkcfgSet (v : Bool) : (driveDout v s).linkcfgSet = s.linkcfgSet := rfl
@[simp] theorem driveDout_clk (v : Bool) : (driveDout v s).clk = s.clk := rfl
@[simp] theorem driveDout_dout (v : Bool) : (driveDout v s).dout = v := rfl
@[simp] theorem driveDout_sel (v : Bool) : (driveDout v s).sel = s.sel := rfl
@[simp] theorem driveDout_pins (v : Bool) : (driveDout v s).pins = s.pins := rfl
@[simp] theorem driveDout_linkReady (v : Bool) : (driveDout v s).linkReady = s.linkReady := rfl
@[simp] theorem driveDout_count (v : Bool) : (driveDout v s).count = s.count := rfl
@[simp] theorem driveDout_armed (v : Bool) : (driveDout v s).armed = s.armed := rfl
@[simp] theorem driveDout_mutex (v : Bool) : (driveDout v s).mutex = s.mutex := rfl
@[simp] theorem driveDout_inPass (v : Bool) : (driveDout v s).inPass = s.inPass := rfl
@[simp] theorem driveDout_created (v : Bool) : (driveDout v s).created = s.created := rfl
@[simp] theorem driveDout_seq (v : Bool) : (driveDout v s).seq = s.seq := rfl
@[simp] theorem driveDout_tx (v : Bool) : (driveDout v s).tx = s.tx := rfl
@[simp] theorem driveDout_rx (v : Bool) : (driveDout v s).rx = s.rx := rfl
@[simp] theorem driveDout_wire (v : Bool) : (driveDout v s).wire = s.wire ++ [.w s.linkcfg.dout v] := rfl
@[simp] theorem driveDout_events (v : Bool) : (driveDout v s).events = s.events := rfl
@[simp] theorem driveDout_past (v : Bool) : (driveDout v s).past = s.past := rfl
@[simp] theorem driveDout_results (v : Bool) : (driveDout v s).results = s.results := rfl
@[simp] theorem driveDout_sinkLog (v : Bool) : (driveDout v s).sinkLog = s.sinkLog := rfl
@[simp] theorem driveDout_input (v : Bool) : (driveDout v s).input = s.input := rfl
@[simp] theorem driveDout_levels (v : Bool) : (driveDout v s).levels = s.levels := rfl
@[simp] theorem driveDout_allocFails (v : Bool) : (driveDout v s).allocFails = s.allocFails := rfl
@[simp] theorem driveDout_interrupts (v : Bool) : (driveDout v s).interrupts = s.interrupts := rfl
@[simp] theorem driveDout_drawn (v : Bool) : (driveDout v s).drawn = s.drawn := rfl

/-! ### driveSel -/

@[simp] theorem driveSel_x (v : Bool) : (driveSel v s).x = s.x := rfl
@[simp] theorem driveSel_pads (v : Bool) : (driveSel v s).pads = s.pads := rfl
@[simp] theorem driveSel_linkcfg (v : Bool) : (driveSel v s).linkcfg = s.linkcfg := rfl
@[simp] theorem driveSel_linkcfgSet (v : Bool) : (driveSel v s).linkcfgSet = s.linkcfgSet := rfl
@[simp] theorem driveSel_clk (v : Bool) : (driveSel v s).clk = s.clk := rfl
@[simp] theorem driveSel_dout (v : Bool) : (driveSel v s).dout = s.dout := rfl
@[simp] theorem driveSel_sel (v : Bool) : (driveSel v s).sel = v := rfl
@[simp] theorem driveSel_pins (v : Bool) : (driveSel v s).pins = s.pins := rfl
@[simp] theorem driveSel_linkReady (v : Bool) : (driveSel v s).linkReady = s.linkReady := rfl
@[simp] theorem driveSel_count (v : Bool) : (driveSel v s).count = s.count := rfl
@[simp] theorem driveSel_armed (v : Bool) : (driveSel v s).armed = s.armed := rfl
@[simp] theorem driveSel_mutex (v : Bool) : (driveSel v s).mutex = s.mutex := rfl
@[simp] theorem driveSel_inPass (v : Bool) : (driveSel v s).inPass = s.inPass := rfl
@[simp] theorem driveSel_created (v : Bool) : (driveSel v s).created = s.created := rfl
@[simp] theorem driveSel_seq (v : Bool) : (driveSel v s).seq = s.seq := rfl
@[simp] theorem driveSel_tx (v : Bool) : (driveSel v s).tx = s.tx := rfl
@[simp] theorem driveSel_rx (v : Bool) : (driveSel v s).rx = s.rx := rfl
@[simp] theorem driveSel_wire (v : Bool) : (driveSel v s).wire = s.wire ++ [.w s.linkcfg.sel v] := rfl
@[simp] theorem driveSel_events (v : Bool) : (driveSel v s).events = s.events := rfl
@[simp] theorem driveSel_past (v : Bool) : (driveSel v s).past = s.past := rfl
@[simp] theorem driveSel_results (v : Bool) : (driveSel v s).results = s.results := rfl
@[simp] theorem driveSel_sinkLog (v : Bool) : (driveSel v s).sinkLog = s.sinkLog := rfl
@[simp] theorem driveSel_input (v : Bool) : (driveSel v s).input = s.input := rfl
@[simp] theorem driveSel_levels (v : Bool) : (driveSel v s).levels = s.levels := rfl
@[simp] theorem driveSel_allocFails (v : Bool) : (driveSel v s).allocFails = s.allocFails := rfl
@[simp] theorem driveSel_interrupts (v : Bool) : (driveSel v s).interrupts = s.interrupts := rfl
@[simp] theorem driveSel_drawn (v : Bool) : (driveSel v s).drawn = s.drawn := rfl

/-! ### emit -/

@[simp] theorem emit_x (p : PadIx) (e : Event) : (emit p e s).x = s.x := rfl
@[simp] theorem emit_pads (p : PadIx) (e : Event) : (emit p e s).pads = s.pads := rfl
@[simp] theorem emit_linkcfg (p : PadIx) (e : Event) : (emit p e s).linkcfg = s.linkcfg := rfl
@[simp] theorem emit_linkcfgSet (p : PadIx) (e : Event) : (emit p e s).linkcfgSet = s.linkcfgSet := rfl
@[simp] theorem emit_clk (p : PadIx) (e : Event) : (emit p e s).clk = s.clk := rfl
@[simp] theorem emit_dout (p : PadIx) (e : Event) : (emit p e s).dout = s.dout := rfl
@[simp] theorem emit_sel (p : PadIx) (e : Event) : (emit p e s).sel = s.sel := rfl
@[simp] theorem emit_pins (p : PadIx) (e : Event) : (emit p e s).pins = s.pins := rfl
@[simp] theorem emit_linkReady (p : PadIx) (e : Event) : (emit p e s).linkReady = s.linkReady := rfl
@[simp] theorem emit_count (p : PadIx) (e : Event) : (emit p e s).count = s.count := rfl
@[simp] theorem emit_armed (p : PadIx) (e : Event) : (emit p e s).armed = s.armed := rfl
@[simp] theorem emit_mutex (p : PadIx) (e : Event) : (emit p e s).mutex = s.mutex := rfl
@[simp] theorem emit_inPass (p : PadIx) (e : Event) : (emit p e s).inPass = s.inPass := rfl
@[simp] theorem emit_created (p : PadIx) (e : Event) : (emit p e s).created = s.created := rfl
@[simp] theorem emit_seq (p : PadIx) (e : Event) : (emit p e s).seq = s.seq := rfl
@[simp] theorem emit_tx (p : PadIx) (e : Event) : (emit p e s).tx = s.tx := rfl
@[simp] theorem emit_rx (p : PadIx) (e : Event) : (emit p e s).rx = s.rx := rfl
@[simp] theorem emit_wire (p : PadIx) (e : Event) : (emit p e s).wire = s.wire := rfl
@[simp] theorem emit_events (p : PadIx) (e : Event) : (emit p e s).events = s.events.set p (s.events[p] ++ [e]) := rfl
@[simp] theorem emit_past (p : PadIx) (e : Event) : (emit p e s).past = s.past := rfl
@[simp] theorem emit_results (p : PadIx) (e : Event) : (emit p e s).results = s.results := rfl
@[simp] theorem emit_sinkLog (p : PadIx) (e : Event) : (emit p e s).sinkLog = s.sinkLog := rfl
@[simp] theorem emit_input (p : PadIx) (e : Event) : (emit p e s).input = s.input := rfl
@[simp] theorem emit_levels (p : PadIx) (e : Event) : (emit p e s).levels = s.levels := rfl
@[simp] theorem emit_allocFails (p : PadIx) (e : Event) : (emit p e s).allocFails = s.allocFails := rfl
@[simp] theorem emit_interrupts (p : PadIx) (e : Event) : (emit p e s).interrupts = s.interrupts := rfl
@[simp] theorem emit_drawn (p : PadIx) (e : Event) : (emit p e s).drawn = s.drawn := rfl

/-! ### drawAlloc -/

@[simp] theorem drawAlloc_x : (drawAlloc s).x = s.x := rfl
@[simp] theorem drawAlloc_pads : (drawAlloc s).pads = s.pads := rfl
@[simp] theorem drawAlloc_linkcfg : (drawAlloc s).linkcfg = s.linkcfg := rfl
@[simp] theorem drawAlloc_linkcfgSet : (drawAlloc s).linkcfgSet = s.linkcfgSet := rfl
@[simp] theorem drawAlloc_clk : (drawAlloc s).clk = s.clk := rfl
@[simp] theorem drawAlloc_dout : (drawAlloc s).dout = s.dout := rfl
@[simp] theorem drawAlloc_sel : (drawAlloc s).sel = s.sel := rfl
@[simp] theorem drawAlloc_pins : (drawAlloc s).pins = s.pins := rfl
@[simp] theorem drawAlloc_linkReady : (drawAlloc s).linkReady = s.linkReady := rfl
@[simp] theorem drawAlloc_count : (drawAlloc s).count = s.count := rfl
@[simp] theorem drawAlloc_armed : (drawAlloc s).armed = s.armed := rfl
@[simp] theorem drawAlloc_mutex : (drawAlloc s).mutex = s.mutex := rfl
@[simp] theorem drawAlloc_inPass : (drawAlloc s).inPass = s.inPass := rfl
@[simp] theorem drawAlloc_created : (drawAlloc s).created = s.created := rfl
@[simp] theorem drawAlloc_seq : (drawAlloc s).seq = s.seq := rfl
@[simp] theorem drawAlloc_tx : (drawAlloc s).tx = s.tx := rfl
@[simp] theorem drawAlloc_rx : (drawAlloc s).rx = s.rx := rfl
@[simp] theorem drawAlloc_wire : (drawAlloc s).wire = s.wire := rfl
@[simp] theorem drawAlloc_events : (drawAlloc s).events = s.events := rfl
@[simp] theorem drawAlloc_past : (drawAlloc s).past = s.past := rfl
@[simp] theorem drawAlloc_results : (drawAlloc s).results = s.results := rfl
@[simp] theorem drawAlloc_sinkLog : (drawAlloc s).sinkLog = s.sinkLog := rfl
@[simp] theorem drawAlloc_input : (drawAlloc s).input = s.input := rfl
@[simp] theorem drawAlloc_levels : (drawAlloc s).levels = s.levels := rfl
@[simp] theorem drawAlloc_allocFails : (drawAlloc s).allocFails = s.allocFails.tail := rfl
@[simp] theorem drawAlloc_interrupts : (drawAlloc s).interrupts = s.interrupts := rfl
@[simp] theorem drawAlloc_drawn : (drawAlloc s).drawn = s.drawn + 1 := rfl

/-! ### drawInterrupt -/

@[simp] theorem drawInterrupt_x : (drawInterrupt s).x = s.x := rfl
@[simp] theorem drawInterrupt_pads : (drawInterrupt s).pads = s.pads := rfl
@[simp] theorem drawInterrupt_linkcfg : (drawInterrupt s).linkcfg = s.linkcfg := rfl
@[simp] theorem drawInterrupt_linkcfgSet : (drawInterrupt s).linkcfgSet = s.linkcfgSet := rfl
@[simp] theorem drawInterrupt_clk : (drawInterrupt s).clk = s.clk := rfl
@[simp] theorem drawInterrupt_dout : (drawInterrupt s).dout = s.dout := rfl
@[simp] theorem drawInterrupt_sel : (drawInterrupt s).sel = s.sel := rfl
@[simp] theorem drawInterrupt_pins : (drawInterrupt s).pins = s.pins := rfl
@[simp] theorem drawInterrupt_linkReady : (drawInterrupt s).linkReady = s.linkReady := rfl
@[simp] theorem drawInterrupt_count : (drawInterrupt s).count = s.count := rfl
@[simp] theorem drawInterrupt_armed : (drawInterrupt s).armed = s.armed := rfl
@[simp] theorem drawInterrupt_mutex : (drawInterrupt s).mutex = s.mutex := rfl
@[simp] theorem drawInterrupt_inPass : (drawInterrupt s).inPass = s.inPass := rfl
@[simp] theorem drawInterrupt_created : (drawInterrupt s).created = s.created := rfl
@[simp] theorem drawInterrupt_seq : (drawInterrupt s).seq = s.seq := rfl
@[simp] theorem drawInterrupt_tx : (drawInterrupt s).tx = s.tx := rfl
@[simp] theorem drawInterrupt_rx : (drawInterrupt s).rx = s.rx := rfl
@[simp] theorem drawInterrupt_wire : (drawInterrupt s).wire = s.wire := rfl
@[simp] theorem drawInterrupt_events : (drawInterrupt s).events = s.events := rfl
@[simp] theorem drawInterrupt_past : (drawInterrupt s).past = s.past := rfl
@[simp] theorem drawInterrupt_results : (drawInterrupt s).results = s.results := rfl
@[simp] theorem drawInterrupt_sinkLog : (drawInterrupt s).sinkLog = s.sinkLog := rfl
@[simp] theorem drawInterrupt_input : (drawInterrupt s).input = s.input := rfl
@[simp] theorem drawInterrupt_levels : (drawInterrupt s).levels = s.levels := rfl
@[simp] theorem drawInterrupt_allocFails : (drawInterrupt s).allocFails = s.allocFails := rfl
@[simp] theorem drawInterrupt_interrupts : (drawInterrupt s).interrupts = s.interrupts.tail := rfl
@[simp] theorem drawInterrupt_drawn : (drawInterrupt s).drawn = s.drawn + 1 := rfl

/-! ### logSink -/

@[simp] theorem logSink_x (c : SinkCall) : (logSink c s).x = s.x := rfl
@[simp] theorem logSink_pads (c : SinkCall) : (logSink c s).pads = s.pads := rfl
@[simp] theorem logSink_linkcfg (c : SinkCall) : (logSink c s).linkcfg = s.linkcfg := rfl
@[simp] theorem logSink_linkcfgSet (c : SinkCall) : (logSink c s).linkcfgSet = s.linkcfgSet := rfl
@[simp] theorem logSink_clk (c : SinkCall) : (logSink c s).clk = s.clk := rfl
@[simp] theorem logSink_dout (c : SinkCall) : (logSink c s).dout = s.dout := rfl
@[simp] theorem logSink_sel (c : SinkCall) : (logSink c s).sel = s.sel := rfl
@[simp] theorem logSink_pins (c : SinkCall) : (logSink c s).pins = s.pins := rfl
@[simp] theorem logSink_linkReady (c : SinkCall) : (logSink c s).linkReady = s.linkReady := rfl
@[simp] theorem logSink_count (c : SinkCall) : (logSink c s).count = s.count := rfl
@[simp] theorem logSink_armed (c : SinkCall) : (logSink c s).armed = s.armed := rfl
@[simp] theorem logSink_mutex (c : SinkCall) : (logSink c s).mutex = s.mutex := rfl
@[simp] theorem logSink_inPass (c : SinkCall) : (logSink c s).inPass = s.inPass := rfl
@[simp] theorem logSink_created (c : SinkCall) : (logSink c s).created = s.created := rfl
@[simp] theorem logSink_seq (c : SinkCall) : (logSink c s).seq = s.seq := rfl
@[simp] theorem logSink_tx (c : SinkCall) : (logSink c s).tx = s.tx := rfl
@[simp] theorem logSink_rx (c : SinkCall) : (logSink c s).rx = s.rx := rfl
@[simp] theorem logSink_wire (c : SinkCall) : (logSink c s).wire = s.wire := rfl
@[simp] theorem logSink_events (c : SinkCall) : (logSink c s).events = s.events := rfl
@[simp] theorem logSink_past (c : SinkCall) : (logSink c s).past = s.past := rfl
@[simp] theorem logSink_results (c : SinkCall) : (logSink c s).results = s.results := rfl
@[simp] theorem logSink_sinkLog (c : SinkCall) : (logSink c s).sinkLog = s.sinkLog ++ [c] := rfl
@[simp] theorem logSink_input (c : SinkCall) : (logSink c s).input = s.input := rfl
@[simp] theorem logSink_levels (c : SinkCall) : (logSink c s).levels = s.levels := rfl
@[simp] theorem logSink_allocFails (c : SinkCall) : (logSink c s).allocFails = s.allocFails := rfl
@[simp] theorem logSink_interrupts (c : SinkCall) : (logSink c s).interrupts = s.interrupts := rfl
@[simp] theorem logSink_drawn (c : SinkCall) : (logSink c s).drawn = s.drawn := rfl

/-! ### ret -/

@[simp] theorem ret_x (r : Result) : (ret r s).x = s.x := rfl
@[simp] theorem ret_pads (r : Result) : (ret r s).pads = s.pads := rfl
@[simp] theorem ret_linkcfg (r : Result) : (ret r s).linkcfg = s.linkcfg := rfl
@[simp] theorem ret_linkcfgSet (r : Result) : (ret r s).linkcfgSet = s.linkcfgSet := rfl
@[simp] theorem ret_clk (r : Result) : (ret r s).clk = s.clk := rfl
@[simp] theorem ret_dout (r : Result) : (ret r s).dout = s.dout := rfl
@[simp] theorem ret_sel (r : Result) : (ret r s).sel = s.sel := rfl
@[simp] theorem ret_pins (r : Result) : (ret r s).pins = s.pins := rfl
@[simp] theorem ret_linkReady (r : Result) : (ret r s).linkReady = s.linkReady := rfl
@[simp] theorem ret_count (r : Result) : (ret r s).count = s.count := rfl
@[simp] theorem ret_armed (r : Result) : (ret r s).armed = s.armed := rfl
@[simp] theorem ret_mutex (r : Result) : (ret r s).mutex = s.mutex := rfl
@[simp] theorem ret_inPass (r : Result) : (ret r s).inPass = s.inPass := rfl
@[simp] theorem ret_created (r : Result) : (ret r s).created = s.created := rfl
@[simp] theorem ret_seq (r : Result) : (ret r s).seq = s.seq := rfl
@[simp] theorem ret_tx (r : Result) : (ret r s).tx = s.tx := rfl
@[simp] theorem ret_rx (r : Result) : (ret r s).rx = s.rx := rfl
@[simp] theorem ret_wire (r : Result) : (ret r s).wire = s.wire := rfl
@[simp] theorem ret_events (r : Result) : (ret r s).events = s.events := rfl
@[simp] theorem ret_past (r : Result) : (ret r s).past = s.past := rfl
@[simp] theorem ret_results (r : Result) : (ret r s).results = s.results ++ [r] := rfl
@[simp] theorem ret_sinkLog (r : Result) : (ret r s).sinkLog = s.sinkLog := rfl
@[simp] theorem ret_input (r : Result) : (ret r s).input = s.input := rfl
@[simp] theorem ret_levels (r : Result) : (ret r s).levels = s.levels := rfl
@[simp] theorem ret_allocFails (r : Result) : (ret r s).allocFails = s.allocFails := rfl
@[simp] theorem ret_interrupts (r : Result) : (ret r s).interrupts = s.interrupts := rfl
@[simp] theorem ret_drawn (r : Result) : (ret r s).drawn = s.drawn := rfl

/-! ### setArmed -/

@[simp] theorem setArmed_x (a : Sched) : (setArmed a s).x = s.x := rfl
@[simp] theorem setArmed_pads (a : Sched) : (setArmed a s).pads = s.pads := rfl
@[simp] theorem setArmed_linkcfg (a : Sched) : (setArmed a s).linkcfg = s.linkcfg := rfl
@[simp] theorem setArmed_linkcfgSet (a : Sched) : (setArmed a s).linkcfgSet = s.linkcfgSet := rfl
@[simp] theorem setArmed_clk (a : Sched) : (setArmed a s).clk = s.clk := rfl
@[simp] theorem setArmed_dout (a : Sched) : (setArmed a s).dout = s.dout := rfl
@[simp] theorem setArmed_sel (a : Sched) : (setArmed a s).sel = s.sel := rfl
@[simp] theorem setArmed_pins (a : Sched) : (setArmed a s).pins = s.pins := rfl
@[simp] theorem setArmed_linkReady (a : Sched) : (setArmed a s).linkReady = s.linkReady := rfl
@[simp] theorem setArmed_count (a : Sched) : (setArmed a s).count = s.count := rfl
@[simp] theorem setArmed_armed (a : Sched) : (setArmed a s).armed = a := rfl
@[simp] theorem setArmed_mutex (a : Sched) : (setArmed a s).mutex = s.mutex := rfl
@[simp] theorem setArmed_inPass (a : Sched) : (setArmed a s).inPass = s.inPass := rfl
@[simp] theorem setArmed_created (a : Sched) : (setArmed a s).created = s.created := rfl
@[simp] theorem setArmed_seq (a : Sched) : (setArmed a s).seq = s.seq := rfl
@[simp] theorem setArmed_tx (a : Sched) : (setArmed a s).tx = s.tx := rfl
@[simp] theorem setArmed_rx (a : Sched) : (setArmed a s).rx = s.rx := rfl
@[simp] theorem setArmed_wire (a : Sched) : (setArmed a s).wire = s.wire := rfl
@[simp] theorem setArmed_events (a : Sched) : (setArmed a s).events = s.events := rfl
@[simp] theorem setArmed_past (a : Sched) : (setArmed a s).past = s.past := rfl
@[simp] theorem setArmed_results (a : Sched) : (setArmed a s).results = s.results := rfl
@[simp] theorem setArmed_sinkLog (a : Sched) : (setArmed a s).sinkLog = s.sinkLog := rfl
@[simp] theorem setArmed_input (a : Sched) : (setArmed a s).input = s.input := rfl
@[simp] theorem setArmed_levels (a : Sched) : (setArmed a s).levels = s.levels := rfl
@[simp] theorem setArmed_allocFails (a : Sched) : (setArmed a s).allocFails = s.allocFails := rfl
@[simp] theorem setArmed_interrupts (a : Sched) : (setArmed a s).interrupts = s.interrupts := rfl
@[simp] theorem setArmed_drawn (a : Sched) : (setArmed a s).drawn = s.drawn := rfl

/-! ### setCount -/

@[simp] theorem setCount_x (n : Nat) : (setCount n s).x = s.x := rfl
@[simp] theorem setCount_pads (n : Nat) : (setCount n s).pads = s.pads := rfl
@[simp] theorem setCount_linkcfg (n : Nat) : (setCount n s).linkcfg = s.linkcfg := rfl
@[simp] theorem setCount_linkcfgSet (n : Nat) : (setCount n s).linkcfgSet = s.linkcfgSet := rfl
@[simp] theorem setCount_clk (n : Nat) : (setCount n s).clk = s.clk := rfl
@[simp] theorem setCount_dout (n : Nat) : (setCount n s).dout = s.dout := rfl
@[simp] theorem setCount_sel (n : Nat) : (setCount n s).sel = s.sel := rfl
@[simp] theorem setCount_pins (n : Nat) : (setCount n s).pins = s.pins := rfl
@[simp] theorem setCount_linkReady (n : Nat) : (setCount n s).linkReady = s.linkReady := rfl
@[simp] theorem setCount_count (n : Nat) : (setCount n s).count = n := rfl
@[simp] theorem setCount_armed (n : Nat) : (setCount n s).armed = s.armed := rfl
@[simp] theorem setCount_mutex (n : Nat) : (setCount n s).mutex = s.mutex := rfl
@[simp] theorem setCount_inPass (n : Nat) : (setCount n s).inPass = s.inPass := rfl
@[simp] theorem setCount_created (n : Nat) : (setCount n s).created = s.created := rfl
@[simp] theorem setCount_seq (n : Nat) : (setCount n s).seq = s.seq := rfl
@[simp] theorem setCount_tx (n : Nat) : (setCount n s).tx = s.tx := rfl
@[simp] theorem setCount_rx (n : Nat) : (setCount n s).rx = s.rx := rfl
@[simp] theorem setCount_wire (n : Nat) : (setCount n s).wire = s.wire := rfl
@[simp] theorem setCount_events (n : Nat) : (setCount n s).events = s.events := rfl
@[simp] theorem setCount_past (n : Nat) : (setCount n s).past = s.past := rfl
@[simp] theorem setCount_results (n : Nat) : (setCount n s).results = s.results := rfl
@[simp] theorem setCount_sinkLog (n : Nat) : (setCount n s).sinkLog = s.sinkLog := rfl
@[simp] theorem setCount_input (n : Nat) : (setCount n s).input = s.input := rfl
@[simp] theorem setCount_levels (n : Nat) : (setCount n s).levels = s.levels := rfl
@[simp] theorem setCount_allocFails (n : Nat) : (setCount n s).allocFails = s.allocFails := rfl
@[simp] theorem setCount_interrupts (n : Nat) : (setCount n s).interrupts = s.interrupts := rfl
@[simp] theorem setCount_drawn (n : Nat) : (setCount n s).drawn = s.drawn := rfl

/-! ### lock -/

@[simp] theorem lock_x : (lock s).x = s.x := rfl
@[simp] theorem lock_pads : (lock s).pads = s.pads := rfl
@[simp] theorem lock_linkcfg : (lock s).linkcfg = s.linkcfg := rfl
@[simp] theorem lock_linkcfgSet : (lock s).linkcfgSet = s.linkcfgSet := rfl
@[simp] theorem lock_clk : (lock s).clk = s.clk := rfl
@[simp] theorem lock_dout : (lock s).dout = s.dout := rfl
@[simp] theorem lock_sel : (lock s).sel = s.sel := rfl
@[simp] theorem lock_pins : (lock s).pins = s.pins := rfl
@[simp] theorem lock_linkReady : (lock s).linkReady = s.linkReady := rfl
@[simp] theorem lock_count : (lock s).count = s.count := rfl
@[simp] theorem lock_armed : (lock s).armed = s.armed := rfl
@[simp] theorem lock_mutex : (lock s).mutex = .held := rfl
@[simp] theorem lock_inPass : (lock s).inPass = s.inPass := rfl
@[simp] theorem lock_created : (lock s).created = s.created := rfl
@[simp] theorem lock_seq : (lock s).seq = s.seq := rfl
@[simp] theorem lock_tx : (lock s).tx = s.tx := rfl
@[simp] theorem lock_rx : (lock s).rx = s.rx := rfl
@[simp] theorem lock_wire : (lock s).wire = s.wire := rfl
@[simp] theorem lock_events : (lock s).events = s.events := rfl
@[simp] theorem lock_past : (lock s).past = s.past := rfl
@[simp] theorem lock_results : (lock s).results = s.results := rfl
@[simp] theorem lock_sinkLog : (lock s).sinkLog = s.sinkLog := rfl
@[simp] theorem lock_input : (lock s).input = s.input := rfl
@[simp] theorem lock_levels : (lock s).levels = s.levels := rfl
@[simp] theorem lock_allocFails : (lock s).allocFails = s.allocFails := rfl
@[simp] theorem lock_interrupts : (lock s).interrupts = s.interrupts := rfl
@[simp] theorem lock_drawn : (lock s).drawn = s.drawn := rfl

/-! ### unlock -/

@[simp] theorem unlock_x : (unlock s).x = s.x := rfl
@[simp] theorem unlock_pads : (unlock s).pads = s.pads := rfl
@[simp] theorem unlock_linkcfg : (unlock s).linkcfg = s.linkcfg := rfl
@[simp] theorem unlock_linkcfgSet : (unlock s).linkcfgSet = s.linkcfgSet := rfl
@[simp] theorem unlock_clk : (unlock s).clk = s.clk := rfl
@[simp] theorem unlock_dout : (unlock s).dout = s.dout := rfl
@[simp] theorem unlock_sel : (unlock s).sel = s.sel := rfl
@[simp] theorem unlock_pins : (unlock s).pins = s.pins := rfl
@[simp] theorem unlock_linkReady : (unlock s).linkReady = s.linkReady := rfl
@[simp] theorem unlock_count : (unlock s).count = s.count := rfl
@[simp] theorem unlock_armed : (unlock s).armed = s.armed := rfl
@[simp] theorem unlock_mutex : (unlock s).mutex = .free := rfl
@[simp] theorem unlock_inPass : (unlock s).inPass = s.inPass := rfl
@[simp] theorem unlock_created : (unlock s).created = s.created := rfl
@[simp] theorem unlock_seq : (unlock s).seq = s.seq := rfl
@[simp] theorem unlock_tx : (unlock s).tx = s.tx := rfl
@[simp] theorem unlock_rx : (unlock s).rx = s.rx := rfl
@[simp] theorem unlock_wire : (unlock s).wire = s.wire := rfl
@[simp] theorem unlock_events : (unlock s).events = s.events := rfl
@[simp] theorem unlock_past : (unlock s).past = s.past := rfl
@[simp] theorem unlock_results : (unlock s).results = s.results := rfl
@[simp] theorem unlock_sinkLog : (unlock s).sinkLog = s.sinkLog := rfl
@[simp] theorem unlock_input : (unlock s).input = s.input := rfl
@[simp] theorem unlock_levels : (unlock s).levels = s.levels := rfl
@[simp] theorem unlock_allocFails : (unlock s).allocFails = s.allocFails := rfl
@[simp] theorem unlock_interrupts : (unlock s).interrupts = s.interrupts := rfl
@[simp] theorem unlock_drawn : (unlock s).drawn = s.drawn := rfl

/-! ### setSeq -/

@[simp] theorem setSeq_x (q : Position) : (setSeq q s).x = s.x := rfl
@[simp] theorem setSeq_pads (q : Position) : (setSeq q s).pads = s.pads := rfl
@[simp] theorem setSeq_linkcfg (q : Position) : (setSeq q s).linkcfg = s.linkcfg := rfl
@[simp] theorem setSeq_linkcfgSet (q : Position) : (setSeq q s).linkcfgSet = s.linkcfgSet := rfl
@[simp] theorem setSeq_clk (q : Position) : (setSeq q s).clk = s.clk := rfl
@[simp] theorem setSeq_dout (q : Position) : (setSeq q s).dout = s.dout := rfl
@[simp] theorem setSeq_sel (q : Position) : (setSeq q s).sel = s.sel := rfl
@[simp] theorem setSeq_pins (q : Position) : (setSeq q s).pins = s.pins := rfl
@[simp] theorem setSeq_linkReady (q : Position) : (setSeq q s).linkReady = s.linkReady := rfl
@[simp] theorem setSeq_count (q : Position) : (setSeq q s).count = s.count := rfl
@[simp] theorem setSeq_armed (q : Position) : (setSeq q s).armed = s.armed := rfl
@[simp] theorem setSeq_mutex (q : Position) : (setSeq q s).mutex = s.mutex := rfl
@[simp] theorem setSeq_inPass (q : Position) : (setSeq q s).inPass = s.inPass := rfl
@[simp] theorem setSeq_created (q : Position) : (setSeq q s).created = s.created := rfl
@[simp] theorem setSeq_seq (q : Position) : (setSeq q s).seq = q := rfl
@[simp] theorem setSeq_tx (q : Position) : (setSeq q s).tx = s.tx := rfl
@[simp] theorem setSeq_rx (q : Position) : (setSeq q s).rx = s.rx := rfl
@[simp] theorem setSeq_wire (q : Position) : (setSeq q s).wire = s.wire := rfl
@[simp] theorem setSeq_events (q : Position) : (setSeq q s).events = s.events := rfl
@[simp] theorem setSeq_past (q : Position) : (setSeq q s).past = s.past := rfl
@[simp] theorem setSeq_results (q : Position) : (setSeq q s).results = s.results := rfl
@[simp] theorem setSeq_sinkLog (q : Position) : (setSeq q s).sinkLog = s.sinkLog := rfl
@[simp] theorem setSeq_input (q : Position) : (setSeq q s).input = s.input := rfl
@[simp] theorem setSeq_levels (q : Position) : (setSeq q s).levels = s.levels := rfl
@[simp] theorem setSeq_allocFails (q : Position) : (setSeq q s).allocFails = s.allocFails := rfl
@[simp] theorem setSeq_interrupts (q : Position) : (setSeq q s).interrupts = s.interrupts := rfl
@[simp] theorem setSeq_drawn (q : Position) : (setSeq q s).drawn = s.drawn := rfl

/-! ### setTx -/

@[simp] theorem setTx_x (f : Frame) : (setTx f s).x = s.x := rfl
@[simp] theorem setTx_pads (f : Frame) : (setTx f s).pads = s.pads := rfl
@[simp] theorem setTx_linkcfg (f : Frame) : (setTx f s).linkcfg = s.linkcfg := rfl
@[simp] theorem setTx_linkcfgSet (f : Frame) : (setTx f s).linkcfgSet = s.linkcfgSet := rfl
@[simp] theorem setTx_clk (f : Frame) : (setTx f s).clk = s.clk := rfl
@[simp] theorem setTx_dout (f : Frame) : (setTx f s).dout = s.dout := rfl
@[simp] theorem setTx_sel (f : Frame) : (setTx f s).sel = s.sel := rfl
@[simp] theorem setTx_pins (f : Frame) : (setTx f s).pins = s.pins := rfl
@[simp] theorem setTx_linkReady (f : Frame) : (setTx f s).linkReady = s.linkReady := rfl
@[simp] theorem setTx_count (f : Frame) : (setTx f s).count = s.count := rfl
@[simp] theorem setTx_armed (f : Frame) : (setTx f s).armed = s.armed := rfl
@[simp] theorem setTx_mutex (f : Frame) : (setTx f s).mutex = s.mutex := rfl
@[simp] theorem setTx_inPass (f : Frame) : (setTx f s).inPass = s.inPass := rfl
@[simp] theorem setTx_created (f : Frame) : (setTx f s).created = s.created := rfl
@[simp] theorem setTx_seq (f : Frame) : (setTx f s).seq = s.seq := rfl
@[simp] theorem setTx_tx (f : Frame) : (setTx f s).tx = f := rfl
@[simp] theorem setTx_rx (f : Frame) : (setTx f s).rx = s.rx := rfl
@[simp] theorem setTx_wire (f : Frame) : (setTx f s).wire = s.wire := rfl
@[simp] theorem setTx_events (f : Frame) : (setTx f s).events = s.events := rfl
@[simp] theorem setTx_past (f : Frame) : (setTx f s).past = s.past := rfl
@[simp] theorem setTx_results (f : Frame) : (setTx f s).results = s.results := rfl
@[simp] theorem setTx_sinkLog (f : Frame) : (setTx f s).sinkLog = s.sinkLog := rfl
@[simp] theorem setTx_input (f : Frame) : (setTx f s).input = s.input := rfl
@[simp] theorem setTx_levels (f : Frame) : (setTx f s).levels = s.levels := rfl
@[simp] theorem setTx_allocFails (f : Frame) : (setTx f s).allocFails = s.allocFails := rfl
@[simp] theorem setTx_interrupts (f : Frame) : (setTx f s).interrupts = s.interrupts := rfl
@[simp] theorem setTx_drawn (f : Frame) : (setTx f s).drawn = s.drawn := rfl

/-! ### setRx -/

@[simp] theorem setRx_x (f : Frame) : (setRx f s).x = s.x := rfl
@[simp] theorem setRx_pads (f : Frame) : (setRx f s).pads = s.pads := rfl
@[simp] theorem setRx_linkcfg (f : Frame) : (setRx f s).linkcfg = s.linkcfg := rfl
@[simp] theorem setRx_linkcfgSet (f : Frame) : (setRx f s).linkcfgSet = s.linkcfgSet := rfl
@[simp] theorem setRx_clk (f : Frame) : (setRx f s).clk = s.clk := rfl
@[simp] theorem setRx_dout (f : Frame) : (setRx f s).dout = s.dout := rfl
@[simp] theorem setRx_sel (f : Frame) : (setRx f s).sel = s.sel := rfl
@[simp] theorem setRx_pins (f : Frame) : (setRx f s).pins = s.pins := rfl
@[simp] theorem setRx_linkReady (f : Frame) : (setRx f s).linkReady = s.linkReady := rfl
@[simp] theorem setRx_count (f : Frame) : (setRx f s).count = s.count := rfl
@[simp] theorem setRx_armed (f : Frame) : (setRx f s).armed = s.armed := rfl
@[simp] theorem setRx_mutex (f : Frame) : (setRx f s).mutex = s.mutex := rfl
@[simp] theorem setRx_inPass (f : Frame) : (setRx f s).inPass = s.inPass := rfl
@[simp] theorem setRx_created (f : Frame) : (setRx f s).created = s.created := rfl
@[simp] theorem setRx_seq (f : Frame) : (setRx f s).seq = s.seq := rfl
@[simp] theorem setRx_tx (f : Frame) : (setRx f s).tx = s.tx := rfl
@[simp] theorem setRx_rx (f : Frame) : (setRx f s).rx = f := rfl
@[simp] theorem setRx_wire (f : Frame) : (setRx f s).wire = s.wire := rfl
@[simp] theorem setRx_events (f : Frame) : (setRx f s).events = s.events := rfl
@[simp] theorem setRx_past (f : Frame) : (setRx f s).past = s.past := rfl
@[simp] theorem setRx_results (f : Frame) : (setRx f s).results = s.results := rfl
@[simp] theorem setRx_sinkLog (f : Frame) : (setRx f s).sinkLog = s.sinkLog := rfl
@[simp] theorem setRx_input (f : Frame) : (setRx f s).input = s.input := rfl
@[simp] theorem setRx_levels (f : Frame) : (setRx f s).levels = s.levels := rfl
@[simp] theorem setRx_allocFails (f : Frame) : (setRx f s).allocFails = s.allocFails := rfl
@[simp] theorem setRx_interrupts (f : Frame) : (setRx f s).interrupts = s.interrupts := rfl
@[simp] theorem setRx_drawn (f : Frame) : (setRx f s).drawn = s.drawn := rfl

/-! ### dropBuffers -/

@[simp] theorem dropBuffers_x : (dropBuffers s).x = s.x := rfl
@[simp] theorem dropBuffers_pads : (dropBuffers s).pads = s.pads := rfl
@[simp] theorem dropBuffers_linkcfg : (dropBuffers s).linkcfg = s.linkcfg := rfl
@[simp] theorem dropBuffers_linkcfgSet : (dropBuffers s).linkcfgSet = s.linkcfgSet := rfl
@[simp] theorem dropBuffers_clk : (dropBuffers s).clk = s.clk := rfl
@[simp] theorem dropBuffers_dout : (dropBuffers s).dout = s.dout := rfl
@[simp] theorem dropBuffers_sel : (dropBuffers s).sel = s.sel := rfl
@[simp] theorem dropBuffers_pins : (dropBuffers s).pins = s.pins := rfl
@[simp] theorem dropBuffers_linkReady : (dropBuffers s).linkReady = s.linkReady := rfl
@[simp] theorem dropBuffers_count : (dropBuffers s).count = s.count := rfl
@[simp] theorem dropBuffers_armed : (dropBuffers s).armed = s.armed := rfl
@[simp] theorem dropBuffers_mutex : (dropBuffers s).mutex = s.mutex := rfl
@[simp] theorem dropBuffers_inPass : (dropBuffers s).inPass = s.inPass := rfl
@[simp] theorem dropBuffers_created : (dropBuffers s).created = s.created := rfl
@[simp] theorem dropBuffers_seq : (dropBuffers s).seq = s.seq := rfl
@[simp] theorem dropBuffers_tx : (dropBuffers s).tx = Config.leftTx s.past.wire s.wire := rfl
@[simp] theorem dropBuffers_rx : (dropBuffers s).rx = Config.leftRx s.past.wire s.wire := rfl
@[simp] theorem dropBuffers_wire : (dropBuffers s).wire = s.wire := rfl
@[simp] theorem dropBuffers_events : (dropBuffers s).events = s.events := rfl
@[simp] theorem dropBuffers_past : (dropBuffers s).past = s.past := rfl
@[simp] theorem dropBuffers_results : (dropBuffers s).results = s.results := rfl
@[simp] theorem dropBuffers_sinkLog : (dropBuffers s).sinkLog = s.sinkLog := rfl
@[simp] theorem dropBuffers_input : (dropBuffers s).input = s.input := rfl
@[simp] theorem dropBuffers_levels : (dropBuffers s).levels = s.levels := rfl
@[simp] theorem dropBuffers_allocFails : (dropBuffers s).allocFails = s.allocFails := rfl
@[simp] theorem dropBuffers_interrupts : (dropBuffers s).interrupts = s.interrupts := rfl
@[simp] theorem dropBuffers_drawn : (dropBuffers s).drawn = s.drawn := rfl

/-! ### setInPass -/

@[simp] theorem setInPass_x (b : Bool) : (setInPass b s).x = s.x := rfl
@[simp] theorem setInPass_pads (b : Bool) : (setInPass b s).pads = s.pads := rfl
@[simp] theorem setInPass_linkcfg (b : Bool) : (setInPass b s).linkcfg = s.linkcfg := rfl
@[simp] theorem setInPass_linkcfgSet (b : Bool) : (setInPass b s).linkcfgSet = s.linkcfgSet := rfl
@[simp] theorem setInPass_clk (b : Bool) : (setInPass b s).clk = s.clk := rfl
@[simp] theorem setInPass_dout (b : Bool) : (setInPass b s).dout = s.dout := rfl
@[simp] theorem setInPass_sel (b : Bool) : (setInPass b s).sel = s.sel := rfl
@[simp] theorem setInPass_pins (b : Bool) : (setInPass b s).pins = s.pins := rfl
@[simp] theorem setInPass_linkReady (b : Bool) : (setInPass b s).linkReady = s.linkReady := rfl
@[simp] theorem setInPass_count (b : Bool) : (setInPass b s).count = s.count := rfl
@[simp] theorem setInPass_armed (b : Bool) : (setInPass b s).armed = s.armed := rfl
@[simp] theorem setInPass_mutex (b : Bool) : (setInPass b s).mutex = s.mutex := rfl
@[simp] theorem setInPass_inPass (b : Bool) : (setInPass b s).inPass = b := rfl
@[simp] theorem setInPass_created (b : Bool) : (setInPass b s).created = s.created := rfl
@[simp] theorem setInPass_seq (b : Bool) : (setInPass b s).seq = s.seq := rfl
@[simp] theorem setInPass_tx (b : Bool) : (setInPass b s).tx = s.tx := rfl
@[simp] theorem setInPass_rx (b : Bool) : (setInPass b s).rx = s.rx := rfl
@[simp] theorem setInPass_wire (b : Bool) : (setInPass b s).wire = s.wire := rfl
@[simp] theorem setInPass_events (b : Bool) : (setInPass b s).events = s.events := rfl
@[simp] theorem setInPass_past (b : Bool) : (setInPass b s).past = s.past := rfl
@[simp] theorem setInPass_results (b : Bool) : (setInPass b s).results = s.results := rfl
@[simp] theorem setInPass_sinkLog (b : Bool) : (setInPass b s).sinkLog = s.sinkLog := rfl
@[simp] theorem setInPass_input (b : Bool) : (setInPass b s).input = s.input := rfl
@[simp] theorem setInPass_levels (b : Bool) : (setInPass b s).levels = s.levels := rfl
@[simp] theorem setInPass_allocFails (b : Bool) : (setInPass b s).allocFails = s.allocFails := rfl
@[simp] theorem setInPass_interrupts (b : Bool) : (setInPass b s).interrupts = s.interrupts := rfl
@[simp] theorem setInPass_drawn (b : Bool) : (setInPass b s).drawn = s.drawn := rfl

/-! ### setLinkReady -/

@[simp] theorem setLinkReady_x (b : Bool) : (setLinkReady b s).x = s.x := rfl
@[simp] theorem setLinkReady_pads (b : Bool) : (setLinkReady b s).pads = s.pads := rfl
@[simp] theorem setLinkReady_linkcfg (b : Bool) : (setLinkReady b s).linkcfg = s.linkcfg := rfl
@[simp] theorem setLinkReady_linkcfgSet (b : Bool) : (setLinkReady b s).linkcfgSet = s.linkcfgSet := rfl
@[simp] theorem setLinkReady_clk (b : Bool) : (setLinkReady b s).clk = s.clk := rfl
@[simp] theorem setLinkReady_dout (b : Bool) : (setLinkReady b s).dout = s.dout := rfl
@[simp] theorem setLinkReady_sel (b : Bool) : (setLinkReady b s).sel = s.sel := rfl
@[simp] theorem setLinkReady_pins (b : Bool) : (setLinkReady b s).pins = s.pins := rfl
@[simp] theorem setLinkReady_linkReady (b : Bool) : (setLinkReady b s).linkReady = b := rfl
@[simp] theorem setLinkReady_count (b : Bool) : (setLinkReady b s).count = s.count := rfl
@[simp] theorem setLinkReady_armed (b : Bool) : (setLinkReady b s).armed = s.armed := rfl
@[simp] theorem setLinkReady_mutex (b : Bool) : (setLinkReady b s).mutex = s.mutex := rfl
@[simp] theorem setLinkReady_inPass (b : Bool) : (setLinkReady b s).inPass = s.inPass := rfl
@[simp] theorem setLinkReady_created (b : Bool) : (setLinkReady b s).created = s.created := rfl
@[simp] theorem setLinkReady_seq (b : Bool) : (setLinkReady b s).seq = s.seq := rfl
@[simp] theorem setLinkReady_tx (b : Bool) : (setLinkReady b s).tx = s.tx := rfl
@[simp] theorem setLinkReady_rx (b : Bool) : (setLinkReady b s).rx = s.rx := rfl
@[simp] theorem setLinkReady_wire (b : Bool) : (setLinkReady b s).wire = s.wire := rfl
@[simp] theorem setLinkReady_events (b : Bool) : (setLinkReady b s).events = s.events := rfl
@[simp] theorem setLinkReady_past (b : Bool) : (setLinkReady b s).past = s.past := rfl
@[simp] theorem setLinkReady_results (b : Bool) : (setLinkReady b s).results = s.results := rfl
@[simp] theorem setLinkReady_sinkLog (b : Bool) : (setLinkReady b s).sinkLog = s.sinkLog := rfl
@[simp] theorem setLinkReady_input (b : Bool) : (setLinkReady b s).input = s.input := rfl
@[simp] theorem setLinkReady_levels (b : Bool) : (setLinkReady b s).levels = s.levels := rfl
@[simp] theorem setLinkReady_allocFails (b : Bool) : (setLinkReady b s).allocFails = s.allocFails := rfl
@[simp] theorem setLinkReady_interrupts (b : Bool) : (setLinkReady b s).interrupts = s.interrupts := rfl
@[simp] theorem setLinkReady_drawn (b : Bool) : (setLinkReady b s).drawn = s.drawn := rfl

/-! ### popInput -/

@[simp] theorem popInput_x : (popInput s).x = s.x := rfl
@[simp] theorem popInput_pads : (popInput s).pads = s.pads := rfl
@[simp] theorem popInput_linkcfg : (popInput s).linkcfg = s.linkcfg := rfl
@[simp] theorem popInput_linkcfgSet : (popInput s).linkcfgSet = s.linkcfgSet := rfl
@[simp] theorem popInput_clk : (popInput s).clk = s.clk := rfl
@[simp] theorem popInput_dout : (popInput s).dout = s.dout := rfl
@[simp] theorem popInput_sel : (popInput s).sel = s.sel := rfl
@[simp] theorem popInput_pins : (popInput s).pins = s.pins := rfl
@[simp] theorem popInput_linkReady : (popInput s).linkReady = s.linkReady := rfl
@[simp] theorem popInput_count : (popInput s).count = s.count := rfl
@[simp] theorem popInput_armed : (popInput s).armed = s.armed := rfl
@[simp] theorem popInput_mutex : (popInput s).mutex = s.mutex := rfl
@[simp] theorem popInput_inPass : (popInput s).inPass = s.inPass := rfl
@[simp] theorem popInput_created : (popInput s).created = s.created := rfl
@[simp] theorem popInput_seq : (popInput s).seq = s.seq := rfl
@[simp] theorem popInput_tx : (popInput s).tx = s.tx := rfl
@[simp] theorem popInput_rx : (popInput s).rx = s.rx := rfl
@[simp] theorem popInput_wire : (popInput s).wire = s.wire := rfl
@[simp] theorem popInput_events : (popInput s).events = s.events := rfl
@[simp] theorem popInput_past : (popInput s).past = s.past := rfl
@[simp] theorem popInput_results : (popInput s).results = s.results := rfl
@[simp] theorem popInput_sinkLog : (popInput s).sinkLog = s.sinkLog := rfl
@[simp] theorem popInput_input : (popInput s).input = s.input.tail := rfl
@[simp] theorem popInput_levels : (popInput s).levels = s.levels := rfl
@[simp] theorem popInput_allocFails : (popInput s).allocFails = s.allocFails := rfl
@[simp] theorem popInput_interrupts : (popInput s).interrupts = s.interrupts := rfl
@[simp] theorem popInput_drawn : (popInput s).drawn = s.drawn := rfl

/-! ### pushCall -/

@[simp] theorem pushCall_x (pk : Packet) : (pushCall pk s).x = s.x := rfl
@[simp] theorem pushCall_pads (pk : Packet) : (pushCall pk s).pads = s.pads := rfl
@[simp] theorem pushCall_linkcfg (pk : Packet) : (pushCall pk s).linkcfg = s.linkcfg := rfl
@[simp] theorem pushCall_linkcfgSet (pk : Packet) : (pushCall pk s).linkcfgSet = s.linkcfgSet := rfl
@[simp] theorem pushCall_clk (pk : Packet) : (pushCall pk s).clk = s.clk := rfl
@[simp] theorem pushCall_dout (pk : Packet) : (pushCall pk s).dout = s.dout := rfl
@[simp] theorem pushCall_sel (pk : Packet) : (pushCall pk s).sel = s.sel := rfl
@[simp] theorem pushCall_pins (pk : Packet) : (pushCall pk s).pins = s.pins := rfl
@[simp] theorem pushCall_linkReady (pk : Packet) : (pushCall pk s).linkReady = s.linkReady := rfl
@[simp] theorem pushCall_count (pk : Packet) : (pushCall pk s).count = s.count := rfl
@[simp] theorem pushCall_armed (pk : Packet) : (pushCall pk s).armed = s.armed := rfl
@[simp] theorem pushCall_mutex (pk : Packet) : (pushCall pk s).mutex = s.mutex := rfl
@[simp] theorem pushCall_inPass (pk : Packet) : (pushCall pk s).inPass = s.inPass := rfl
@[simp] theorem pushCall_created (pk : Packet) : (pushCall pk s).created = s.created := rfl
@[simp] theorem pushCall_seq (pk : Packet) : (pushCall pk s).seq = s.seq := rfl
@[simp] theorem pushCall_tx (pk : Packet) : (pushCall pk s).tx = s.tx := rfl
@[simp] theorem pushCall_rx (pk : Packet) : (pushCall pk s).rx = s.rx := rfl
@[simp] theorem pushCall_wire (pk : Packet) : (pushCall pk s).wire = s.wire := rfl
@[simp] theorem pushCall_events (pk : Packet) : (pushCall pk s).events = s.events := rfl
@[simp] theorem pushCall_past (pk : Packet) : (pushCall pk s).past = s.past := rfl
@[simp] theorem pushCall_results (pk : Packet) : (pushCall pk s).results = s.results := rfl
@[simp] theorem pushCall_sinkLog (pk : Packet) : (pushCall pk s).sinkLog = s.sinkLog := rfl
@[simp] theorem pushCall_input (pk : Packet) : (pushCall pk s).input = .call pk :: s.input := rfl
@[simp] theorem pushCall_levels (pk : Packet) : (pushCall pk s).levels = s.levels := rfl
@[simp] theorem pushCall_allocFails (pk : Packet) : (pushCall pk s).allocFails = s.allocFails := rfl
@[simp] theorem pushCall_interrupts (pk : Packet) : (pushCall pk s).interrupts = s.interrupts := rfl
@[simp] theorem pushCall_drawn (pk : Packet) : (pushCall pk s).drawn = s.drawn := rfl

/-! ### pinRead -/

@[simp] theorem pinRead_x (n : Nat) : (pinRead n s).2.x = s.x := rfl
@[simp] theorem pinRead_pads (n : Nat) : (pinRead n s).2.pads = s.pads := rfl
@[simp] theorem pinRead_linkcfg (n : Nat) : (pinRead n s).2.linkcfg = s.linkcfg := rfl
@[simp] theorem pinRead_linkcfgSet (n : Nat) : (pinRead n s).2.linkcfgSet = s.linkcfgSet := rfl
@[simp] theorem pinRead_clk (n : Nat) : (pinRead n s).2.clk = s.clk := rfl
@[simp] theorem pinRead_dout (n : Nat) : (pinRead n s).2.dout = s.dout := rfl
@[simp] theorem pinRead_sel (n : Nat) : (pinRead n s).2.sel = s.sel := rfl
@[simp] theorem pinRead_pins (n : Nat) : (pinRead n s).2.pins = s.pins := rfl
@[simp] theorem pinRead_linkReady (n : Nat) : (pinRead n s).2.linkReady = s.linkReady := rfl
@[simp] theorem pinRead_count (n : Nat) : (pinRead n s).2.count = s.count := rfl
@[simp] theorem pinRead_armed (n : Nat) : (pinRead n s).2.armed = s.armed := rfl
@[simp] theorem pinRead_mutex (n : Nat) : (pinRead n s).2.mutex = s.mutex := rfl
@[simp] theorem pinRead_inPass (n : Nat) : (pinRead n s).2.inPass = s.inPass := rfl
@[simp] theorem pinRead_created (n : Nat) : (pinRead n s).2.created = s.created := rfl
@[simp] theorem pinRead_seq (n : Nat) : (pinRead n s).2.seq = s.seq := rfl
@[simp] theorem pinRead_tx (n : Nat) : (pinRead n s).2.tx = s.tx := rfl
@[simp] theorem pinRead_rx (n : Nat) : (pinRead n s).2.rx = s.rx := rfl
@[simp] theorem pinRead_wire (n : Nat) : (pinRead n s).2.wire = s.wire ++ [.r n (s.nextLevel n)] := rfl
@[simp] theorem pinRead_events (n : Nat) : (pinRead n s).2.events = s.events := rfl
@[simp] theorem pinRead_past (n : Nat) : (pinRead n s).2.past = s.past := rfl
@[simp] theorem pinRead_results (n : Nat) : (pinRead n s).2.results = s.results := rfl
@[simp] theorem pinRead_sinkLog (n : Nat) : (pinRead n s).2.sinkLog = s.sinkLog := rfl
@[simp] theorem pinRead_input (n : Nat) : (pinRead n s).2.input = s.input := rfl
@[simp] theorem pinRead_levels (n : Nat) : (pinRead n s).2.levels = s.levels.tail := rfl
@[simp] theorem pinRead_allocFails (n : Nat) : (pinRead n s).2.allocFails = s.allocFails := rfl
@[simp] theorem pinRead_interrupts (n : Nat) : (pinRead n s).2.interrupts = s.interrupts := rfl
@[simp] theorem pinRead_drawn (n : Nat) : (pinRead n s).2.drawn = s.drawn := rfl
@[simp] theorem pinRead_level (n : Nat) : (pinRead n s).1 = s.nextLevel n := rfl

/-! ### Accessors: slots and pads -/

theorem slot_def (p : PadIx) (i : SlotIx) : s.slot p i = (s.x[p])[i] := rfl

theorem pad_def (p : PadIx) : s.pad p = s.pads[p] := rfl

/-- Reading a slot after a slot write gives the value written there, and elsewhere what was there (R11). -/
theorem slot_setSlot (p q : PadIx) (i j : SlotIx) (v : Sample) :
    (setSlot p i v s).slot q j = if p = q ∧ i = j then some v else s.slot q j := by
  simp only [State.slot, setSlot]
  by_cases h : p = q
  · subst h
    by_cases h2 : i = j
    · subst h2; simp
    · simp [h2, Fin.val_inj]
  · simp [h, Fin.val_inj]

@[simp] theorem slot_setSlot_same (p : PadIx) (i : SlotIx) (v : Sample) : (setSlot p i v s).slot p i = some v := by
  simp [slot_setSlot]

/-- A state with the same slots reads the same (the frame of every other update). -/
theorem slot_congr (t : State) (h : t.x = s.x) (p : PadIx) (i : SlotIx) : t.slot p i = s.slot p i := by
  simp only [State.slot, h]

theorem pad_congr (t : State) (h : t.pads = s.pads) (p : PadIx) : t.pad p = s.pad p := by
  simp only [State.pad, h]

@[simp] theorem slot_clearSlots (p : PadIx) (i : SlotIx) : (clearSlots s).slot p i = none := by
  simp [State.slot]

/-- Reading a pad after a pad was replaced. -/
theorem pad_setPad (p q : PadIx) (d : Pad) : (setPad p d s).pad q = if p = q then d else s.pad q := by
  simp only [State.pad, setPad]
  by_cases h : p = q
  · subst h; simp
  · simp [h, Fin.val_inj]

@[simp] theorem pad_setPad_same (p : PadIx) (d : Pad) : (setPad p d s).pad p = d := by simp [pad_setPad]

/-- The events of a pad after one record was appended to some pad's history (R23). -/
theorem events_emit (p q : PadIx) (e : Event) :
    (emit p e s).events[q] = if p = q then s.events[q] ++ [e] else s.events[q] := by
  simp only [emit]
  by_cases h : p = q
  · subst h; simp
  · simp [h, Fin.val_inj]

@[simp] theorem pad_setSlot (q : PadIx) (j : SlotIx) (v : Sample) (p : PadIx) : (setSlot q j v s).pad p = s.pad p := rfl
@[simp] theorem pad_clearSlots (p : PadIx) : (clearSlots s).pad p = s.pad p := rfl
@[simp] theorem slot_setPad (q : PadIx) (d : Pad) (p : PadIx) (i : SlotIx) : (setPad q d s).slot p i = s.slot p i := rfl
@[simp] theorem slot_logWire (e : WireEntry) (p : PadIx) (i : SlotIx) : (logWire e s).slot p i = s.slot p i := rfl
@[simp] theorem pad_logWire (e : WireEntry) (p : PadIx) : (logWire e s).pad p = s.pad p := rfl
@[simp] theorem slot_pinSetInput (n : Nat) (p : PadIx) (i : SlotIx) : (pinSetInput n s).slot p i = s.slot p i := rfl
@[simp] theorem pad_pinSetInput (n : Nat) (p : PadIx) : (pinSetInput n s).pad p = s.pad p := rfl
@[simp] theorem slot_pinSetOutput (n : Nat) (p : PadIx) (i : SlotIx) : (pinSetOutput n s).slot p i = s.slot p i := rfl
@[simp] theorem pad_pinSetOutput (n : Nat) (p : PadIx) : (pinSetOutput n s).pad p = s.pad p := rfl
@[simp] theorem slot_pinConfigurePull (ns : List Nat) (m : PullMode) (p : PadIx) (i : SlotIx) : (pinConfigurePull ns m s).slot p i = s.slot p i := rfl
@[simp] theorem pad_pinConfigurePull (ns : List Nat) (m : PullMode) (p : PadIx) : (pinConfigurePull ns m s).pad p = s.pad p := rfl
@[simp] theorem slot_delay (p : PadIx) (i : SlotIx) : (delay s).slot p i = s.slot p i := rfl
@[simp] theorem pad_delay (p : PadIx) : (delay s).pad p = s.pad p := rfl
@[simp] theorem slot_driveClk (v : Bool) (p : PadIx) (i : SlotIx) : (driveClk v s).slot p i = s.slot p i := rfl
@[simp] theorem pad_driveClk (v : Bool) (p : PadIx) : (driveClk v s).pad p = s.pad p := rfl
@[simp] theorem slot_driveDout (v : Bool) (p : PadIx) (i : SlotIx) : (driveDout v s).slot p i = s.slot p i := rfl
@[simp] theorem pad_driveDout (v : Bool) (p : PadIx) : (driveDout v s).pad p = s.pad p := rfl
@[simp] theorem slot_driveSel (v : Bool) (p : PadIx) (i : SlotIx) : (driveSel v s).slot p i = s.slot p i := rfl
@[simp] theorem pad_driveSel (v : Bool) (p : PadIx) : (driveSel v s).pad p = s.pad p := rfl
@[simp] theorem slot_emit (q : PadIx) (e : Event) (p : PadIx) (i : SlotIx) : (emit q e s).slot p i = s.slot p i := rfl
@[simp] theorem pad_emit (q : PadIx) (e : Event) (p : PadIx) : (emit q e s).pad p = s.pad p := rfl
@[simp] theorem slot_drawAlloc (p : PadIx) (i : SlotIx) : (drawAlloc s).slot p i = s.slot p i := rfl
@[simp] theorem pad_drawAlloc (p : PadIx) : (drawAlloc s).pad p = s.pad p := rfl
@[simp] theorem slot_drawInterrupt (p : PadIx) (i : SlotIx) : (drawInterrupt s).slot p i = s.slot p i := rfl
@[simp] theorem pad_drawInterrupt (p : PadIx) : (drawInterrupt s).pad p = s.pad p := rfl
@[simp] theorem slot_logSink (c : SinkCall) (p : PadIx) (i : SlotIx) : (logSink c s).slot p i = s.slot p i := rfl
@[simp] theorem pad_logSink (c : SinkCall) (p : PadIx) : (logSink c s).pad p = s.pad p := rfl
@[simp] theorem slot_ret (r : Result) (p : PadIx) (i : SlotIx) : (ret r s).slot p i = s.slot p i := rfl
@[simp] theorem pad_ret (r : Result) (p : PadIx) : (ret r s).pad p = s.pad p := rfl
@[simp] theorem slot_setArmed (a : Sched) (p : PadIx) (i : SlotIx) : (setArmed a s).slot p i = s.slot p i := rfl
@[simp] theorem pad_setArmed (a : Sched) (p : PadIx) : (setArmed a s).pad p = s.pad p := rfl
@[simp] theorem slot_setCount (n : Nat) (p : PadIx) (i : SlotIx) : (setCount n s).slot p i = s.slot p i := rfl
@[simp] theorem pad_setCount (n : Nat) (p : PadIx) : (setCount n s).pad p = s.pad p := rfl
@[simp] theorem slot_lock (p : PadIx) (i : SlotIx) : (lock s).slot p i = s.slot p i := rfl
@[simp] theorem pad_lock (p : PadIx) : (lock s).pad p = s.pad p := rfl
@[simp] theorem slot_unlock (p : PadIx) (i : SlotIx) : (unlock s).slot p i = s.slot p i := rfl
@[simp] theorem pad_unlock (p : PadIx) : (unlock s).pad p = s.pad p := rfl
@[simp] theorem slot_setSeq (q : Position) (p : PadIx) (i : SlotIx) : (setSeq q s).slot p i = s.slot p i := rfl
@[simp] theorem pad_setSeq (q : Position) (p : PadIx) : (setSeq q s).pad p = s.pad p := rfl
@[simp] theorem slot_setTx (f : Frame) (p : PadIx) (i : SlotIx) : (setTx f s).slot p i = s.slot p i := rfl
@[simp] theorem pad_setTx (f : Frame) (p : PadIx) : (setTx f s).pad p = s.pad p := rfl
@[simp] theorem slot_setRx (f : Frame) (p : PadIx) (i : SlotIx) : (setRx f s).slot p i = s.slot p i := rfl
@[simp] theorem pad_setRx (f : Frame) (p : PadIx) : (setRx f s).pad p = s.pad p := rfl
@[simp] theorem slot_dropBuffers (p : PadIx) (i : SlotIx) : (dropBuffers s).slot p i = s.slot p i := rfl
@[simp] theorem pad_dropBuffers (p : PadIx) : (dropBuffers s).pad p = s.pad p := rfl
@[simp] theorem slot_setInPass (b : Bool) (p : PadIx) (i : SlotIx) : (setInPass b s).slot p i = s.slot p i := rfl
@[simp] theorem pad_setInPass (b : Bool) (p : PadIx) : (setInPass b s).pad p = s.pad p := rfl
@[simp] theorem slot_setLinkReady (b : Bool) (p : PadIx) (i : SlotIx) : (setLinkReady b s).slot p i = s.slot p i := rfl
@[simp] theorem pad_setLinkReady (b : Bool) (p : PadIx) : (setLinkReady b s).pad p = s.pad p := rfl
@[simp] theorem slot_popInput (p : PadIx) (i : SlotIx) : (popInput s).slot p i = s.slot p i := rfl
@[simp] theorem pad_popInput (p : PadIx) : (popInput s).pad p = s.pad p := rfl
@[simp] theorem slot_pushCall (pk : Packet) (p : PadIx) (i : SlotIx) : (pushCall pk s).slot p i = s.slot p i := rfl
@[simp] theorem pad_pushCall (pk : Packet) (p : PadIx) : (pushCall pk s).pad p = s.pad p := rfl
@[simp] theorem slot_pinRead (n : Nat) (p : PadIx) (i : SlotIx) : (pinRead n s).2.slot p i = s.slot p i := rfl
@[simp] theorem pad_pinRead (n : Nat) (p : PadIx) : (pinRead n s).2.pad p = s.pad p := rfl

end Sys2Proof.Machine
end

