-- ==== Sys2Proof/Laws/Link.lean ====
section
/-! SUPPORT. Laws/Link.lean: what each operation of the link does, once: the cell, the byte, the exchange, the transfer,
the initialisation (R60 to R63), and that their traces keep the line discipline (R64). -/
namespace Sys2Proof.Machine

/-- Eight received samples packed into a byte come out again bit by bit, the first in bit 7 (R56f). -/
theorem byteBits_packByte (d0 d1 d2 d3 d4 d5 d6 d7 : Bool) :
    byteBits (packByte [d0, d1, d2, d3, d4, d5, d6, d7]) = [d0, d1, d2, d3, d4, d5, d6, d7] := by
  revert d0 d1 d2 d3 d4 d5 d6 d7; decide

@[simp] theorem byteBits_length (v : Byte) : (byteBits v).length = 8 := rfl

/-- A list of eight bits is the bits of its packed byte. -/
theorem byteBits_packByte_of_length (ds : List Bool) (h : ds.length = 8) : byteBits (packByte ds) = ds := by
  match ds, h with
  | [d0, d1, d2, d3, d4, d5, d6, d7], _ => exact byteBits_packByte d0 d1 d2 d3 d4 d5 d6 d7

/-- The level a bit cell samples: the next answer of the environment after the clock was raised (R61). -/
def cellLevel (b : Bool) (s : State) : Bool :=
  s.levels.headD (Config.pinLevel s.linkcfg.din s.past.wire (s.wire ++ [.w s.linkcfg.dout b, .d, .w s.linkcfg.clk true]))

/-- One bit cell, whole (R61). -/
theorem bitCell_eq (b : Bool) (s : State) :
    bitCell b s = (cellLevel b s,
      { s with dout := b, clk := false, levels := s.levels.tail, wire := s.wire ++ cellTrace s.linkcfg b (cellLevel b s) }) := by
  simp only [bitCell, pinRead, delay, driveDout, driveClk, pinWrite, logWire, State.nextLevel, cellTrace, cellLevel,
    List.append_assoc, List.cons_append, List.nil_append]

/-- Several bit cells, whole: the samples are the script's as far as it goes (R31, R61). -/
theorem bitCells_spec (bs : List Bool) (s : State) :
    ∃ ds : List Bool, ds.length = bs.length ∧
      bitCells bs s = (ds, { s with
        dout := bs.getLastD s.dout, clk := if bs = [] then s.clk else false
        levels := s.levels.drop bs.length, wire := s.wire ++ cellsTrace s.linkcfg bs ds }) ∧
      (bs.length ≤ s.levels.length → ds = s.levels.take bs.length) := by
  induction bs generalizing s with
  | nil => exact ⟨[], rfl, by simp [bitCells, cellsTrace], by simp⟩
  | cons b bs ih =>
    obtain ⟨ds, hl, he, ht⟩ := ih (bitCell b s).2
    refine ⟨(bitCell b s).1 :: ds, by simp [hl], ?_, ?_⟩
    · simp only [bitCells, he]
      simp only [bitCell_eq, cellsTrace, List.append_assoc, List.length_cons, Prod.mk.injEq, State.mk.injEq, true_and,
        and_true, reduceCtorEq, if_false]
      refine ⟨by simp, List.getLastD_cons.symm, by cases s.levels <;> simp⟩
    · intro h
      simp only [bitCell_eq, cellLevel] at ht ⊢
      cases hs : s.levels with
      | nil => simp [hs] at h
      | cons v vs =>
        simp only [hs, List.tail_cons, List.length_cons, List.headD_cons, List.take_succ_cons] at ht h ⊢
        rw [ht (by omega)]

/-- One byte, whole (R62). -/
theorem byteCells_spec (v : Byte) (s : State) :
    ∃ r : Byte, byteCells v s = (r, { s with
        dout := v.getLsbD 0, clk := false, levels := s.levels.drop 8, wire := s.wire ++ byteTrace s.linkcfg v r }) ∧
      (8 ≤ s.levels.length → byteBits r = s.levels.take 8) := by
  obtain ⟨ds, hl, he, ht⟩ := bitCells_spec (byteBits v) s
  have hb := byteBits_packByte_of_length ds (by simpa using hl)
  refine ⟨packByte ds, ?_, fun h => by rw [hb]; simpa using ht (by simpa using h)⟩
  simp only [byteCells, he, byteTrace, hb]
  simp [byteBits, List.getLastD]

@[simp] theorem lastBit_nil (d : Bool) : lastBit [] d = d := rfl

theorem lastBit_cons (v : Byte) (vs : List Byte) (d : Bool) : lastBit (v :: vs) d = lastBit vs (v.getLsbD 0) := by
  cases vs with
  | nil => simp [lastBit]
  | cons w ws =>
    have h := List.getLast?_eq_some_getLast (List.cons_ne_nil w ws)
    simp only [lastBit, List.getLast?_cons_cons, h]

/-- Several bytes, whole (R63). -/
theorem exchange_spec (tx : List Byte) (s : State) :
    ∃ rx : List Byte, rx.length = tx.length ∧
      exchange tx s = (rx, { s with
        dout := lastBit tx s.dout, clk := if tx = [] then s.clk else false
        levels := s.levels.drop (8 * tx.length), wire := s.wire ++ exchangeTrace s.linkcfg tx rx }) ∧
      (8 * tx.length ≤ s.levels.length → rx.flatMap byteBits = s.levels.take (8 * tx.length)) := by
  induction tx generalizing s with
  | nil => exact ⟨[], rfl, by simp [exchange, exchangeTrace], by simp⟩
  | cons v vs ih =>
    obtain ⟨r, hr, hrt⟩ := byteCells_spec v s
    obtain ⟨rs, hl, he, ht⟩ := ih (byteCells v s).2
    refine ⟨r :: rs, by simp [hl], ?_, ?_⟩
    · simp only [exchange, he]
      simp only [hr, exchangeTrace, List.append_assoc, List.length_cons, Prod.mk.injEq, State.mk.injEq, true_and,
        and_true, reduceCtorEq, if_false]
      refine ⟨by simp, (lastBit_cons v vs s.dout).symm, ?_⟩
      rw [List.drop_drop]; congr 1; omega
    · intro h
      simp only [List.length_cons] at h
      simp only [hr, List.length_drop] at ht
      rw [List.flatMap_cons, hrt (by omega), ht (by omega), List.length_cons, Nat.mul_succ, Nat.add_comm, List.take_add]

/-- One transfer, whole: select low, the bytes, select high, the response in `rx` (R63). -/
theorem transfer_spec (tx : List Byte) (s : State) :
    ∃ rx : List Byte, rx.length = tx.length ∧
      transfer tx s = (rx, { s with
        dout := lastBit tx s.dout, clk := if tx = [] then s.clk else false, sel := true
        rx := storeResponse rx s.rx
        levels := s.levels.drop (8 * tx.length), wire := s.wire ++ transferTrace s.linkcfg tx rx }) ∧
      (8 * tx.length ≤ s.levels.length → rx.flatMap byteBits = s.levels.take (8 * tx.length)) := by
  obtain ⟨rx, hl, he, ht⟩ := exchange_spec tx (driveSel Config.selectActive s)
  refine ⟨rx, hl, ?_, ht⟩
  simp only [transfer, he]
  simp [driveSel, pinWrite, logWire, setRx, transferTrace, Config.selectActive]

/-- The initialisation of the link, whole (R60, D5). -/
theorem initLink_eq (s : State) :
    initLink s = { s with
      pins := initDirs s.linkcfg s.pins, clk := false, dout := false, sel := true, linkReady := true
      wire := s.wire ++ initTrace s.linkcfg } := by
  simp [initLink, pinSetOutput, pinSetInput, driveClk, driveDout, driveSel, pinWrite, logWire, delay, setLinkReady,
    initDirs, initTrace]

/-! ### The line discipline of the traces (R64) -/

/-- A trace in two parts is read part after part. -/
theorem lineRun_append (l : LinkPins) (q : LineState) (a b : List WireEntry) :
    lineRun l q (a ++ b) = (lineRun l q a).bind fun r => lineRun l r b := by
  induction a generalizing q with
  | nil => rfl
  | cons e es ih => simp only [List.cons_append, lineRun]; cases lineStep l q e <;> simp [ih]

/-- Two traces that end where they began, one after the other. -/
theorem lineRun_both (l : LinkPins) (q : LineState) (a b : List WireEntry) (ha : lineRun l q a = some q)
    (hb : lineRun l q b = some q) : lineRun l q (a ++ b) = some q := by
  rw [lineRun_append, ha]; exact hb

/-- Four different link pins, as inequations. -/
theorem LinkPins.distinct_iff (l : LinkPins) : l.distinct = true ↔
    l.clk ≠ l.dout ∧ l.clk ≠ l.din ∧ l.clk ≠ l.sel ∧ l.dout ≠ l.din ∧ l.dout ≠ l.sel ∧ l.din ≠ l.sel := by
  simp [LinkPins.distinct, and_assoc]

theorem lineRun_cellTrace (l : LinkPins) (hd : l.distinct = true) (sel b d : Bool) :
    lineRun l { clk := false, sel := sel } (cellTrace l b d) = some { clk := false, sel := sel } := by
  obtain ⟨h1, h2, h3, h4, h5, h6⟩ := l.distinct_iff.mp hd
  simp [cellTrace, lineRun, lineStep, h1.symm]

theorem lineRun_cellsTrace (l : LinkPins) (hd : l.distinct = true) (sel : Bool) (bs ds : List Bool) :
    lineRun l { clk := false, sel := sel } (cellsTrace l bs ds) = some { clk := false, sel := sel } := by
  induction bs generalizing ds with
  | nil => rfl
  | cons b bs ih =>
    cases ds with
    | nil => rfl
    | cons d ds => exact lineRun_both l _ _ _ (lineRun_cellTrace l hd sel b d) (ih ds)

theorem lineRun_exchangeTrace (l : LinkPins) (hd : l.distinct = true) (sel : Bool) (tx rx : List Byte) :
    lineRun l { clk := false, sel := sel } (exchangeTrace l tx rx) = some { clk := false, sel := sel } := by
  induction tx generalizing rx with
  | nil => rfl
  | cons v vs ih =>
    cases rx with
    | nil => rfl
    | cons r rs => exact lineRun_both l _ _ _ (lineRun_cellsTrace l hd sel _ _) (ih rs)

/-- A transfer keeps the discipline and comes back to rest (R63, R64). -/
theorem lineRun_transferTrace (l : LinkPins) (hd : l.distinct = true) (tx rx : List Byte) :
    lineRun l .rest (transferTrace l tx rx) = some .rest := by
  have k := lineRun_exchangeTrace l hd false tx rx
  obtain ⟨h1, h2, h3, h4, h5, h6⟩ := l.distinct_iff.mp hd
  simp [transferTrace, lineRun, lineStep, h3.symm, h5.symm, LineState.rest, lineRun_append, k]

/-- The initialisation keeps the discipline and comes back to rest (R60, R64). -/
theorem lineRun_initTrace (l : LinkPins) (hd : l.distinct = true) : lineRun l .rest (initTrace l) = some .rest := by
  obtain ⟨h1, h2, h3, h4, h5, h6⟩ := l.distinct_iff.mp hd
  simp [initTrace, lineRun, lineStep, LineState.rest, h1.symm, h3.symm, h5.symm]

/-! ### The directions after the initialisation (R60) -/

theorem wf_initDirs (l : LinkPins) (t : PinTable) (h : t.wf) : (initDirs l t).wf :=
  PinTable.wf_setDir _ _ _ (PinTable.wf_setDir _ _ _ (PinTable.wf_setDir _ _ _ (PinTable.wf_setDir _ _ _ h)))

/-- What every pin holds after the initialisation set the four directions (R60). -/
theorem get_initDirs (l : LinkPins) (t : PinTable) (h : t.wf) (n : Nat) :
    PinTable.get n (initDirs l t) = if n = l.din then { PinTable.get n t with dir := .input }
      else if n = l.clk ∨ n = l.dout ∨ n = l.sel then { PinTable.get n t with dir := .output }
      else PinTable.get n t := by
  have a := PinTable.wf_setDir l.clk .output _ h
  have b := PinTable.wf_setDir l.dout .output _ a
  have c := PinTable.wf_setDir l.sel .output _ b
  simp only [initDirs, PinTable.get_setDir _ _ _ _ c, PinTable.get_setDir _ _ _ _ b, PinTable.get_setDir _ _ _ _ a,
    PinTable.get_setDir _ _ _ _ h]
  by_cases k1 : n = l.din <;> by_cases k2 : n = l.clk <;> by_cases k3 : n = l.dout <;> by_cases k4 : n = l.sel <;>
    simp only [k1, k2, k3, k4, if_true, if_false, or_true, true_or, or_self] <;> simp_all

end Sys2Proof.Machine
end

