-- ==== Sys2Proof/Laws/Ops.lean ====
section
/-! SUPPORT. Laws/Ops.lean: running steps one after the other, the guards, and the small lemmas of the operands. -/
namespace Sys2Proof.Machine

/-! ### andThen and runAll -/

@[simp] theorem andThen_next (s : State) (f : State → Out) : andThen (.next s) f = f s := rfl
@[simp] theorem andThen_fault (r : Fault) (f : State → Out) : andThen (.fault r) f = .fault r := rfl
@[simp] theorem andThen_refused (r : Refusal) (f : State → Out) : andThen (.refused r) f = .refused r := rfl

/-- A chain answers a next state exactly when its first part does and the rest goes on from there. -/
theorem andThen_eq_next (o : Out) (f : State → Out) (t : State) :
    andThen o f = .next t ↔ ∃ s, o = .next s ∧ f s = .next t := by
  cases o <;> simp [andThen]

theorem andThen_assoc (o : Out) (f g : State → Out) : andThen (andThen o f) g = andThen o fun s => andThen (f s) g := by
  cases o <;> rfl

@[simp] theorem runAll_nil (s : State) : runAll [] s = .next s := rfl
theorem runAll_cons (f : State → Out) (fs : List (State → Out)) (s : State) :
    runAll (f :: fs) s = andThen (f s) (runAll fs) := rfl

theorem runAll_append (fs gs : List (State → Out)) (s : State) :
    runAll (fs ++ gs) s = andThen (runAll fs s) (runAll gs) := by
  induction fs generalizing s with
  | nil => rfl
  | cons f fs ih =>
    simp only [List.cons_append, runAll_cons]
    cases f s <;> simp [ih]

/-- What holds before a sequence and is kept by each of its steps holds after it. -/
theorem runAll_keeps (P : State → Prop) (fs : List (State → Out))
    (h : ∀ f ∈ fs, ∀ s t, P s → f s = .next t → P t) (s t : State) (hs : P s) (ht : runAll fs s = .next t) : P t := by
  induction fs generalizing s with
  | nil => simp only [runAll_nil, Host.Outcome.next.injEq] at ht; exact ht ▸ hs
  | cons f fs ih =>
    rw [runAll_cons, andThen_eq_next] at ht
    obtain ⟨u, hu, ht⟩ := ht
    exact ih (fun g hg => h g (List.mem_cons_of_mem _ hg)) u (h f (List.mem_cons_self ..) s u hs hu) ht

/-! ### Guards -/

/-- An operation that needs an AcquisitionSet answers a next state only when there is one (R125). -/
theorem whenCreated_eq_next (s t : State) (f : State → Out) :
    whenCreated s f = .next t ↔ s.created = true ∧ f s = .next t := by
  unfold whenCreated; split <;> simp_all

@[simp] theorem whenCreated_of (s : State) (f : State → Out) (h : s.created = true) : whenCreated s f = f s := by
  simp [whenCreated, h]

@[simp] theorem whenCreated_of_not (s : State) (f : State → Out) (h : s.created = false) :
    whenCreated s f = .refused .notCreated := by simp [whenCreated, h]

/-- An operation that needs the link answers a next state only when it was initialised (R125). -/
theorem whenLinkReady_eq_next (s t : State) (f : State → Out) :
    whenLinkReady s f = .next t ↔ s.linkReady = true ∧ f s = .next t := by
  unfold whenLinkReady; split <;> simp_all

@[simp] theorem whenLinkReady_of (s : State) (f : State → Out) (h : s.linkReady = true) : whenLinkReady s f = f s := by
  simp [whenLinkReady, h]

@[simp] theorem whenLinkReady_of_not (s : State) (f : State → Out) (h : s.linkReady = false) :
    whenLinkReady s f = .refused .linkNotInitialised := by simp [whenLinkReady, h]

/-- A slot read answers a next state only when the slot was written (R27). -/
theorem withSlot_eq_next (p : PadIx) (i : SlotIx) (s t : State) (f : Sample → Out) :
    withSlot p i s f = .next t ↔ ∃ v, s.slot p i = some v ∧ f v = .next t := by
  unfold withSlot; split <;> simp_all

theorem withSlot_some (p : PadIx) (i : SlotIx) (s : State) (f : Sample → Out) (v : Sample) (h : s.slot p i = some v) :
    withSlot p i s f = f v := by simp [withSlot, h]

theorem withSlot_none (p : PadIx) (i : SlotIx) (s : State) (f : Sample → Out) (h : s.slot p i = none) :
    withSlot p i s f = .fault (.unwrittenSlot p i) := by simp [withSlot, h]

/-- A pad is live exactly when it has a type (R109). -/
theorem live_iff (s : State) (p : PadIx) : s.live p = true ↔ (s.pad p).type ≠ .none := by
  unfold State.live; split <;> simp_all

theorem not_live_iff (s : State) (p : PadIx) : s.live p = false ↔ (s.pad p).type = .none := by
  unfold State.live; split <;> simp_all

/-! ### Operands -/

/-- The raw result is the two low bits of the second byte above the third byte (R47, R56b, R71). -/
theorem rawResult_toNat (rx : Frame) : (rawResult rx).toNat = rx.b1.toNat % 4 * 256 + rx.b2.toNat := by
  unfold rawResult
  simp only [BitVec.toNat_setWidth, BitVec.toNat_and, BitVec.toNat_or, BitVec.toNat_shiftLeft]
  have h1 := rx.b1.isLt
  have h2 := rx.b2.isLt
  have e : (0x3FF#16).toNat = 2^10 - 1 := rfl
  rw [e, Nat.and_two_pow_sub_one_eq_mod]
  have : (rx.b1.toNat % 2^16) <<< 8 % 2^16 = rx.b1.toNat * 256 := by
    rw [Nat.shiftLeft_eq]; omega
  rw [this, Nat.mod_eq_of_lt (show rx.b2.toNat < 2^16 by omega)]
  have := Nat.two_pow_add_eq_or_of_lt (i := 8) (b := rx.b2.toNat) (by omega) rx.b1.toNat
  rw [show rx.b1.toNat * 256 = 2^8 * rx.b1.toNat by ring, ← this]
  omega

/-- The orientation rule on numbers: no wrap can occur (R56c, R74). -/
theorem oriented_toNat (c : Fin 4) (raw : BitVec 10) :
    (oriented c raw).toNat = if verticalChannel c then 1023 - raw.toNat else raw.toNat := by
  have h := raw.isLt
  unfold oriented
  split <;> simp only [BitVec.toNat_sub, BitVec.toNat_setWidth, BitVec.toNat_ofNat] <;> omega

/-- A digital sample is 0 or 1 (R12, R80). -/
theorem digitalSample_cases (b : Bool) : digitalSample b = 0 ∨ digitalSample b = 1 := by cases b <;> simp [digitalSample]

/-- Bit `n` of a mask is 1 exactly when pin `n` is in the set (R52). -/
theorem maskOf_testBit (ns : List Nat) (n : Nat) : (maskOf ns).testBit n = decide (n ∈ ns) := by
  unfold maskOf
  suffices h : ∀ m : Nat, (ns.foldl (fun m n => m ||| (1 <<< n)) m).testBit n = (m.testBit n || decide (n ∈ ns)) by
    simpa using h 0
  induction ns with
  | nil => simp
  | cons k ks ih =>
    intro m
    rw [List.foldl_cons, ih, Nat.testBit_or, Nat.one_shiftLeft, Nat.testBit_two_pow]
    by_cases hk : k = n
    · subst hk; simp
    · simp [hk, Ne.symm hk]

/-- The used pins of a map are the pins its entries name (R52). -/
theorem mem_usedPins (m : Vector PinRef 12) (n : Nat) : n ∈ usedPins m ↔ ∃ i : Fin 12, m[i] = .pin n := by
  simp only [usedPins, List.mem_filterMap]
  constructor
  · rintro ⟨r, hr, hn⟩
    cases r with
    | unused => simp [PinRef.pin?] at hn
    | pin k =>
      simp only [PinRef.pin?, Option.some.injEq] at hn
      subst hn
      rw [Vector.mem_toList_iff, Vector.mem_iff_getElem] at hr
      obtain ⟨i, hi, h⟩ := hr
      exact ⟨⟨i, hi⟩, h⟩
  · rintro ⟨i, h⟩
    exact ⟨m[i], by rw [Vector.mem_toList_iff]; exact Vector.getElem_mem _, by rw [h]; rfl⟩

end Sys2Proof.Machine
end

