-- ==== Sys2Proof/Laws/Adc.lean ====
section
/-! SUPPORT. Laws/Adc.lean: what a channel read and the read of the four channels do, once (R72, R73), and the length of
the traces they leave (R63). -/
namespace Sys2Proof.Machine

/-- The second byte of a request in plain arithmetic (R46, R70). -/
theorem requestByte_eq (c : Fin 8) : requestByte c = BitVec.ofNat 8 (0x80 + 16 * c.val) := by
  revert c; decide

/-- The request of a channel of the block, its bytes in plain arithmetic (R46, R70). -/
theorem requestFrame_bytes (c : Fin 4) : (requestFrame (c.castLE (by omega))).bytes = requestBytes c := by
  revert c; decide

/-- The stored value of a channel read, in plain arithmetic (R71, R72, R74). -/
theorem oriented_rawResult (c : Fin 4) (f : Frame) :
    oriented c (rawResult f) = BitVec.ofNat 16 (channelValue c f) := by
  apply BitVec.eq_of_toNat_eq
  rw [oriented_toNat, rawResult_toNat, BitVec.toNat_ofNat]
  have h1 := f.b2.isLt
  have : verticalChannel c = true ↔ c = 0 ∨ c = 2 := by revert c; decide
  simp only [channelValue]
  split <;> split <;> first | omega | (rw [Nat.mod_eq_of_lt]; omega) | simp_all

/-- What a channel stores never exceeds `ADC_MAX` (R12, R74). -/
theorem channelValue_le (c : Fin 4) (f : Frame) : channelValue c f ≤ 1023 := by
  have := f.b2.isLt
  simp only [channelValue]
  split <;> omega

/-- A response buffer of three received bytes holds exactly those (R63). -/
theorem storeResponse_three (rx : List Byte) (f : Frame) (h : rx.length = 3) : (storeResponse rx f).bytes = rx := by
  match rx, h with
  | [_, _, _], _ => rfl

/-- One channel read, whole, for the response `f` it received (R72); the buffers are gone at its end (R22). -/
theorem readChannel_spec (p : PadIx) (c : Fin 4) (s : State) :
    ∃ f : Frame, readChannel p c s = dropBuffers { s with
        x := (setSlot p (analogSlot c) (BitVec.ofNat 16 (channelValue c f)) s).x
        clk := false, dout := false, sel := true, levels := s.levels.drop 24
        wire := s.wire ++ transferTrace s.linkcfg (requestBytes c) f.bytes } ∧
      (24 ≤ s.levels.length → f.bytes.flatMap byteBits = s.levels.take 24) := by
  obtain ⟨rx, hl, he, ht⟩ := transfer_spec (requestBytes c) (setTx (requestFrame (c.castLE (by omega))) s)
  have h3 : (requestBytes c).length = 3 := rfl
  rw [h3] at hl ht he
  refine ⟨storeResponse rx s.rx, ?_, ?_⟩
  · simp only [readChannel, setTx_tx, requestFrame_bytes, he, oriented_rawResult, storeResponse_three _ _ hl]
    simp [dropBuffers, setSlot, setTx, lastBit, requestBytes]
  · rw [storeResponse_three _ _ hl]; exact ht

/-- The trace of bit cells has six entries a cell (R48). -/
theorem cellsTrace_length (l : LinkPins) (bs ds : List Bool) (h : ds.length = bs.length) :
    (cellsTrace l bs ds).length = 6 * bs.length := by
  induction bs generalizing ds with
  | nil => cases ds <;> simp [cellsTrace]
  | cons b bs ih =>
    cases ds with
    | nil => simp at h
    | cons d ds => simp [cellsTrace, cellTrace, ih ds (by simpa using h)]; omega

/-- The trace of bytes has 48 entries a byte (R62, R63). -/
theorem exchangeTrace_length (l : LinkPins) (tx rx : List Byte) (h : rx.length = tx.length) :
    (exchangeTrace l tx rx).length = 48 * tx.length := by
  induction tx generalizing rx with
  | nil => cases rx <;> simp [exchangeTrace]
  | cons v vs ih =>
    cases rx with
    | nil => simp at h
    | cons r rs =>
      rw [exchangeTrace, byteTrace, List.length_append, cellsTrace_length l (byteBits v) (byteBits r) rfl, ih rs (by simpa using h)]
      simp; omega

/-- The trace of a transfer has `2 + 48·n` entries (R63). -/
theorem transferTrace_length (l : LinkPins) (tx rx : List Byte) (h : rx.length = tx.length) :
    (transferTrace l tx rx).length = 2 + 48 * tx.length := by
  simp [transferTrace, exchangeTrace_length _ _ _ h]; omega

/-- The slots after one channel read of the response `f` (R72). -/
theorem slot_of_channel (p : PadIx) (c : Fin 4) (f : Frame) (s t : State)
    (h : t.x = (setSlot p (analogSlot c) (BitVec.ofNat 16 (channelValue c f)) s).x) (q : PadIx) (i : SlotIx) :
    t.slot q i = if p = q ∧ analogSlot c = i then some (BitVec.ofNat 16 (channelValue c f)) else s.slot q i :=
  (slot_congr _ t h q i).trans (slot_setSlot s p q (analogSlot c) i _)

theorem analogSlot_inj {a b : Fin 4} : analogSlot a = analogSlot b ↔ a = b := by
  revert a b; decide

/-- The read of the four channels as four reads one after the other (R73). -/
theorem readAxes_eq (p : PadIx) (s : State) (h : s.linkReady = true) :
    readAxes p s = .next (readChannel p 3 (readChannel p 2 (readChannel p 1 (readChannel p 0 s)))) := by
  have hr : ∀ c t, t.linkReady = true → (readChannel p c t).linkReady = true := by
    intro c t ht
    obtain ⟨f, e, -⟩ := readChannel_spec p c t
    rw [e]; exact ht
  have h0 := hr 0 s h
  have h1 := hr 1 _ h0
  have h2 := hr 2 _ h1
  simp [readAxes, runAll, readChannelChecked, h, h0, h1, h2]

/-- The read of the four channels needs the link (R63, R73). -/
theorem readAxes_not_ready (p : PadIx) (s : State) (h : s.linkReady = false) :
    readAxes p s = .refused .linkNotInitialised := by
  have h0 : readChannelChecked p 0 s = .refused .linkNotInitialised := by simp [readChannelChecked, h]
  rw [readAxes, runAll_cons, h0, andThen_refused]

/-- The read of the four channels, whole (R73). -/
theorem readAxes_spec (p : PadIx) (s : State) (h : s.linkReady = true) :
    ∃ (f : Fin 4 → Frame) (t : State), readAxes p s = .next t ∧
      t = { s with
        x := t.x, tx := t.tx, rx := t.rx
        clk := false, dout := false, sel := true, levels := s.levels.drop 96
        wire := s.wire ++ transferTrace s.linkcfg (requestBytes 0) (f 0).bytes ++
          transferTrace s.linkcfg (requestBytes 1) (f 1).bytes ++
          transferTrace s.linkcfg (requestBytes 2) (f 2).bytes ++
          transferTrace s.linkcfg (requestBytes 3) (f 3).bytes } ∧
      (∀ c, t.slot p (analogSlot c) = some (BitVec.ofNat 16 (channelValue c (f c)))) ∧
      (∀ q i, (q ≠ p ∨ ∀ c, i ≠ analogSlot c) → t.slot q i = s.slot q i) ∧
      (96 ≤ s.levels.length → (f 0).bytes.flatMap byteBits ++ (f 1).bytes.flatMap byteBits ++
        (f 2).bytes.flatMap byteBits ++ (f 3).bytes.flatMap byteBits = s.levels.take 96) := by
  rw [readAxes_eq p s h]
  obtain ⟨f0, e0, l0⟩ := readChannel_spec p 0 s
  have s0 := slot_of_channel p 0 f0 s (readChannel p 0 s) (by rw [e0, dropBuffers_x])
  generalize readChannel p 0 s = a at *
  obtain ⟨f1, e1, l1⟩ := readChannel_spec p 1 a
  have s1 := slot_of_channel p 1 f1 a (readChannel p 1 a) (by rw [e1, dropBuffers_x])
  generalize readChannel p 1 a = b at *
  obtain ⟨f2, e2, l2⟩ := readChannel_spec p 2 b
  have s2 := slot_of_channel p 2 f2 b (readChannel p 2 b) (by rw [e2, dropBuffers_x])
  generalize readChannel p 2 b = c at *
  obtain ⟨f3, e3, l3⟩ := readChannel_spec p 3 c
  have s3 := slot_of_channel p 3 f3 c (readChannel p 3 c) (by rw [e3, dropBuffers_x])
  generalize readChannel p 3 c = d at *
  refine ⟨fun c => match c with | 0 => f0 | 1 => f1 | 2 => f2 | 3 => f3, d, rfl, ?_, ?_, ?_, ?_⟩
  · rw [e3, e2, e1, e0]
    simp [dropBuffers, List.drop_drop]
  · intro j
    rw [s3, s2, s1, s0]
    match j with
    | 0 | 1 | 2 | 3 => simp [analogSlot_inj]
  · intro q i hq
    have hn : ∀ c, ¬ (p = q ∧ analogSlot c = i) := fun c hc =>
      hq.elim (fun h => h hc.1.symm) (fun h => h c hc.2.symm)
    rw [s3, s2, s1, s0]
    simp only [hn, if_false]
  · intro hl
    have v0 : a.levels = s.levels.drop 24 := by rw [e0, dropBuffers_levels]
    have v1 : b.levels = s.levels.drop 48 := by rw [e1]; simp only [dropBuffers_levels, v0, List.drop_drop]
    have v2 : c.levels = s.levels.drop 72 := by rw [e2]; simp only [dropBuffers_levels, v1, List.drop_drop]
    rw [v0, List.length_drop] at l1
    rw [v1, List.length_drop] at l2
    rw [v2, List.length_drop] at l3
    simp only [l0 (by omega), l1 (by omega), l2 (by omega), l3 (by omega)]
    rw [show (96 : Nat) = 24 + 24 + 24 + 24 from rfl, List.take_add, List.take_add, List.take_add]

/-- Packing a byte's bits gives the byte (R62). -/
theorem packByte_byteBits (v : Byte) : packByte (byteBits v) = v := by
  revert v; decide +kernel

/-- Two frames with the same bits on the wire are the same frame. -/
theorem Frame.eq_of_bits (f g : Frame) (h : f.bytes.flatMap byteBits = g.bytes.flatMap byteBits) : f = g := by
  obtain ⟨a, b, c⟩ := f
  obtain ⟨d, e, k⟩ := g
  simp only [Frame.bytes, List.flatMap_cons, List.flatMap_nil, List.append_nil] at h
  obtain ⟨h1, h⟩ := List.append_inj h (by simp)
  obtain ⟨h2, h3⟩ := List.append_inj h (by simp)
  have inj : ∀ v w : Byte, byteBits v = byteBits w → v = w := fun v w e => by
    rw [← packByte_byteBits v, e, packByte_byteBits]
  rw [inj _ _ h1, inj _ _ h2, inj _ _ h3]

/-- One channel read when the environment answers a given frame (R47, R72). -/
theorem readChannel_scripted (p : PadIx) (c : Fin 4) (s : State) (f : Frame) (rest : List Bool)
    (h : s.levels = f.bytes.flatMap byteBits ++ rest) :
    readChannel p c s = dropBuffers { s with
      x := (setSlot p (analogSlot c) (BitVec.ofNat 16 (channelValue c f)) s).x
      clk := false, dout := false, sel := true, levels := rest
      wire := s.wire ++ transferTrace s.linkcfg (requestBytes c) f.bytes } := by
  obtain ⟨g, e, l⟩ := readChannel_spec p c s
  have hl : (f.bytes.flatMap byteBits).length = 24 := by simp [Frame.bytes]
  have hg : g = f := Frame.eq_of_bits g f (by rw [l (by simp [h, hl]), h, List.take_left' hl])
  rw [e, hg, h, List.drop_left' hl]

/-- The read of the four channels when the environment answers four given frames (R73). -/
theorem readAxes_scripted (p : PadIx) (s : State) (f0 f1 f2 f3 : Frame) (rest : List Bool) (hr : s.linkReady = true)
    (h : s.levels = f0.bytes.flatMap byteBits ++ (f1.bytes.flatMap byteBits ++ (f2.bytes.flatMap byteBits ++
      (f3.bytes.flatMap byteBits ++ rest)))) :
    readAxes p s = .next (dropBuffers { s with
      x := (setSlot p 15 (BitVec.ofNat 16 (channelValue 3 f3)) (setSlot p 14 (BitVec.ofNat 16 (channelValue 2 f2))
        (setSlot p 13 (BitVec.ofNat 16 (channelValue 1 f1)) (setSlot p 12 (BitVec.ofNat 16 (channelValue 0 f0)) s)))).x
      clk := false, dout := false, sel := true, levels := rest
      wire := s.wire ++ transferTrace s.linkcfg (requestBytes 0) f0.bytes ++
        transferTrace s.linkcfg (requestBytes 1) f1.bytes ++ transferTrace s.linkcfg (requestBytes 2) f2.bytes ++
        transferTrace s.linkcfg (requestBytes 3) f3.bytes }) := by
  rw [readAxes_eq p s hr, readChannel_scripted p 0 s f0 _ h, readChannel_scripted p 1 _ f1 _ rfl,
    readChannel_scripted p 2 _ f2 _ rfl, readChannel_scripted p 3 _ f3 _ rfl]
  rfl

end Sys2Proof.Machine
end

