-- ==== Sys2Proof/Laws/Decode.lean ====
section
/-! SUPPORT. Laws/Decode.lean: the fields of a word, the operand data and the admission of an operation, and what it means
for a word to match a row (R53, R54, R57). -/
namespace Sys2Proof

/-- The three fields of a word written as a number (R53). -/
theorem fields_ofNat (n : Nat) (h : n < 65536) : cmdFam (BitVec.ofNat 16 n) = n / 4096 ∧
    cmdOp (BitVec.ofNat 16 n) = n / 256 % 16 ∧ cmdArg (BitVec.ofNat 16 n) = n % 256 := by
  simp only [cmdFam, cmdOp, cmdArg, BitVec.toNat_ofNat]
  omega

/-- A word is its three fields put together (R53). -/
theorem word_fields (w : BitVec 16) : w.toNat = 4096 * cmdFam w + 256 * cmdOp w + cmdArg w ∧ cmdFam w < 16 ∧
    cmdOp w < 16 ∧ cmdArg w < 256 := by
  have := w.isLt
  simp only [cmdFam, cmdOp, cmdArg]
  omega

/-- A word from its number. -/
theorem ofNat_of_toNat (w : BitVec 16) (n : Nat) (h : w.toNat = n) : BitVec.ofNat 16 n = w := by
  subst h; simp

@[simp] theorem bytesOf_map (l : List Byte) : bytesOf (l.map .byte) = some l := by
  induction l with
  | nil => rfl
  | cons a l ih => simp [bytesOf, ih]

@[simp] theorem cfgsOf_map (l : List PadCfg) : cfgsOf (l.map .cfg) = some l := by
  induction l with
  | nil => rfl
  | cons a l ih => simp [cfgsOf, ih]

/-- Operand data read as bytes is the list of those bytes (R57). -/
theorem bytesOf_some (l : List Datum) (b : List Byte) (h : bytesOf l = some b) : l = b.map .byte := by
  induction l generalizing b with
  | nil => obtain rfl := Option.some.inj h; rfl
  | cons a l ih =>
    cases a <;> simp [bytesOf] at h
    obtain ⟨c, hc, rfl⟩ := h
    simp [ih c hc]

/-- Operand data read as configurations is the list of those configurations (R57). -/
theorem cfgsOf_some (l : List Datum) (b : List PadCfg) (h : cfgsOf l = some b) : l = b.map .cfg := by
  induction l generalizing b with
  | nil => obtain rfl := Option.some.inj h; rfl
  | cons a l ih =>
    cases a <;> simp [cfgsOf] at h
    obtain ⟨c, hc, rfl⟩ := h
    simp [ih c hc]

theorem linkcfgOf_some (l : List Datum) (i : Instr) (h : linkcfgOf l = some i) :
    ∃ a b c d, l = [.pin a, .pin b, .pin c, .pin d] ∧ i = .setupLinkcfg a b c d := by
  unfold linkcfgOf at h
  split at h
  · exact ⟨_, _, _, _, rfl, (Option.some.inj h).symm⟩
  · simp at h

theorem setupPadOf_some (p : PadIx) (l : List Datum) (i : Instr) (h : setupPadOf p l = some i) :
    ∃ c, l = [.cfg c] ∧ i = .setupPad p c := by
  unfold setupPadOf at h
  split at h
  · exact ⟨_, rfl, (Option.some.inj h).symm⟩
  · simp at h

/-- An operation without data is read exactly when its argument is legal and no data follows. -/
theorem plain_eq_ok (w : BitVec 16) (data : List Datum) (legal : Bool) (i j : Instr) :
    plain w data legal i = .ok j ↔ legal = true ∧ data = [] ∧ i = j := by
  unfold plain
  split <;> (try split) <;> simp_all

/-- An operation with data is read exactly when its argument is legal and the data is what it should be. -/
theorem withData_eq_ok (w : BitVec 16) (legal : Bool) (o : Option Instr) (j : Instr) :
    withData w legal o = .ok j ↔ legal = true ∧ o = some j := by
  unfold withData
  split <;> (try split) <;> simp_all

/-- A word is illegal for its operation exactly when its argument is (R55). -/
theorem plain_eq_illegal (w : BitVec 16) (data : List Datum) (legal : Bool) (i : Instr) :
    plain w data legal i = .error (.illegalCommand w) ↔ legal = false := by
  unfold plain
  split <;> (try split) <;> simp_all

theorem withData_eq_illegal (w : BitVec 16) (legal : Bool) (o : Option Instr) :
    withData w legal o = .error (.illegalCommand w) ↔ legal = false := by
  unfold withData
  split <;> (try split) <;> simp_all

theorem hit_iff (r : CmdRow) (w : BitVec 16) : r.hit w = true ↔ w &&& r.mask = r.bits := by simp [CmdRow.hit]

/-- A mask that keeps the bits from `k` up compares the quotients by `2^k` (R54). -/
theorem and_mask_eq_iff (w bits : BitVec 16) (k : Nat) (hk : k < 16) (hb : bits.toNat % 2 ^ k = 0) :
    w &&& BitVec.ofNat 16 (65536 - 2 ^ k) = bits ↔ w.toNat / 2 ^ k = bits.toNat / 2 ^ k := by
  have hw := w.isLt
  have hp : 0 < 2 ^ k := Nat.two_pow_pos k
  have key : (w &&& BitVec.ofNat 16 (65536 - 2 ^ k)).toNat = w.toNat / 2 ^ k * 2 ^ k := by
    rw [BitVec.toNat_and, BitVec.toNat_ofNat]
    apply Nat.eq_of_testBit_eq
    intro i
    have e : (65536 - 2 ^ k) % 2 ^ 16 = (2 ^ (16 - k) - 1) * 2 ^ k := by
      rw [Nat.sub_mul, ← pow_add, show 16 - k + k = 16 by omega]
      omega
    rw [Nat.testBit_and, Nat.testBit_mul_two_pow, e, Nat.testBit_mul_two_pow, Nat.testBit_two_pow_sub_one,
      Nat.testBit_div_two_pow]
    by_cases h : k ≤ i
    · by_cases h2 : i < 16
      · have : i - k < 16 - k := by omega
        simp [h, this]
      · have : w.toNat.testBit i = false :=
          Nat.testBit_lt_two_pow (lt_of_lt_of_le hw (Nat.pow_le_pow_right (by omega) (by omega : 16 ≤ i)))
        simp [h, this]
    · simp [h]
  rw [← BitVec.toNat_inj, key]
  constructor
  · intro h; rw [← h, Nat.mul_div_cancel _ hp]
  · intro h; rw [h]; exact Nat.div_mul_cancel (Nat.dvd_of_mod_eq_zero hb)

/-- The number of free low bits of each row's mask, in the order of `cmdRows` (R54). -/
def rowFreeBits : List Nat := [0, 1, 8, 8, 2, 0, 3, 1, 5, 1, 1, 2, 3, 4, 1, 1, 0, 0, 1, 1, 0, 1, 0, 0]

/-- A row's mask keeps the bits above its free ones, and its pattern has none of those (R54). -/
theorem cmdRows_masks : ∀ x ∈ cmdRows.zip rowFreeBits,
    x.1.mask = BitVec.ofNat 16 (65536 - 2 ^ x.2) ∧ x.2 < 16 ∧ x.1.bits.toNat % 2 ^ x.2 = 0 := by decide

/-- A word hits a row exactly when it agrees with the pattern above the free bits (R54). -/
theorem hit_row_iff (x : CmdRow × Nat) (hx : x ∈ cmdRows.zip rowFreeBits) (w : BitVec 16) :
    x.1.hit w = true ↔ w.toNat / 2 ^ x.2 = x.1.bits.toNat / 2 ^ x.2 := by
  obtain ⟨hm, hk, hb⟩ := cmdRows_masks x hx
  rw [hit_iff, hm, and_mask_eq_iff w x.1.bits x.2 hk hb]

end Sys2Proof
end

