-- ==== Sys2Proof/Laws/Dig.lean ====
section
/-! SUPPORT. Laws/Dig.lean: what a slot read, the read of the twelve slots and the preparation of a pad's pins do, once
(R80 to R82). -/
namespace Sys2Proof.Machine

/-- The slot reads of a digital slot that is unused (R80). -/
theorem sampleSlot_unused (p : PadIx) (i : Fin 12) (s : State) (h : (s.pad p).pinMap[i] = .unused) :
    sampleSlot p i s = setSlot p (digitalSlot i) 0 s := by
  unfold sampleSlot; rw [h]

/-- The slot read of a digital slot on pin `n` (R80). -/
theorem sampleSlot_pin (p : PadIx) (i : Fin 12) (s : State) (n : Nat) (h : (s.pad p).pinMap[i] = .pin n) :
    sampleSlot p i s = { s with
      x := (setSlot p (digitalSlot i) (digitalSample (s.nextLevel n)) s).x
      levels := s.levels.tail, wire := s.wire ++ [.r n (s.nextLevel n)] } := by
  unfold sampleSlot; rw [h]; rfl

theorem digitalSlot_inj {a b : Fin 12} : digitalSlot a = digitalSlot b ↔ a = b := by
  simp [digitalSlot, Fin.ext_iff]

theorem digitalSlot_ne_analogSlot (a : Fin 12) (c : Fin 4) : digitalSlot a ≠ analogSlot c := by
  simp only [digitalSlot, analogSlot, ne_eq, Fin.mk.injEq]; omega

/-- Every slot is a digital or an analog one (R12). -/
theorem slot_cases (i : SlotIx) : (∃ a : Fin 12, i = digitalSlot a) ∨ ∃ c : Fin 4, i = analogSlot c := by
  by_cases h : i.val < 12
  · exact .inl ⟨⟨i.val, h⟩, rfl⟩
  · exact .inr ⟨⟨i.val - 12, by omega⟩, by simp only [analogSlot, Fin.ext_iff]; omega⟩

/-- The digital slots 0 to 11, in order. -/
theorem finRange_twelve : List.finRange 12 = [(0 : Fin 12), 1, 2, 3, 4, 5, 6, 7, 8, 9, 10, 11] := rfl

/-- A pin map read entry by entry in slot order. -/
theorem map_finRange_pinMap (m : Vector PinRef 12) : (List.finRange 12).map (fun i => m[i]) = m.toList := by
  apply List.ext_getElem <;> simp

@[simp] theorem filterMap_pin?_unused (rs : List PinRef) :
    (PinRef.unused :: rs).filterMap PinRef.pin? = rs.filterMap PinRef.pin? := rfl
@[simp] theorem filterMap_pin?_pin (n : Nat) (rs : List PinRef) :
    (PinRef.pin n :: rs).filterMap PinRef.pin? = n :: rs.filterMap PinRef.pin? := rfl

/-- A slot read leaves the pads as they are (R80). -/
@[simp] theorem sampleSlot_pads (p : PadIx) (i : Fin 12) (s : State) : (sampleSlot p i s).pads = s.pads := by
  unfold sampleSlot; split <;> rfl

/-- Several slot reads, whole, for the entries `g` of the pad's map: one answer of the environment for each used entry
(R80, R81). -/
theorem sampleSlots_spec (p : PadIx) (g : Fin 12 → PinRef) (is : List (Fin 12)) (hn : is.Nodup) (s : State)
    (hg : ∀ i, (s.pad p).pinMap[i] = g i) :
    ∃ (ds : List Bool) (t : State), is.foldl (fun t i => sampleSlot p i t) s = t ∧
      ds.length = ((is.map g).filterMap PinRef.pin?).length ∧
      t = { s with
        x := t.x, levels := s.levels.drop ds.length
        wire := s.wire ++ readsTrace ((is.map g).filterMap PinRef.pin?) ds } ∧
      is.map (fun i => t.slot p (digitalSlot i)) = (samplesOf (is.map g) ds).map some ∧
      (∀ q i, (q ≠ p ∨ ∀ a ∈ is, i ≠ digitalSlot a) → t.slot q i = s.slot q i) ∧
      (ds.length ≤ s.levels.length → ds = s.levels.take ds.length) := by
  induction is generalizing s with
  | nil => exact ⟨[], s, rfl, rfl, by simp [readsTrace], rfl, fun _ _ _ => rfl, by simp⟩
  | cons i is ih =>
    obtain ⟨hi, hn⟩ := List.nodup_cons.mp hn
    obtain ⟨ds, t, he, hl, ht, hs, hf, hd⟩ := ih hn (sampleSlot p i s) (by simpa [State.pad] using hg)
    have hi' : ∀ a ∈ is, digitalSlot i ≠ digitalSlot a := fun a ha h => hi (digitalSlot_inj.mp h ▸ ha)
    have hm : (s.pad p).pinMap[i] = g i := hg i
    simp only [List.map_cons]
    cases h : g i with
    | unused =>
      have e := sampleSlot_unused p i s (hm.trans h)
      rw [e] at ht hf hd
      refine ⟨ds, t, he, hl, ht, ?_, fun q j hq => ?_, hd⟩
      · rw [hs, hf p _ (.inr hi')]; simp [samplesOf]
      · rw [hf q j (hq.imp_right fun h a ha => h a (List.mem_cons_of_mem _ ha)), slot_setSlot, if_neg]
        rintro ⟨rfl, rfl⟩
        exact hq.elim (fun h => h rfl) (fun h => h i (List.mem_cons_self ..) rfl)
    | pin n =>
      have e := sampleSlot_pin p i s n (hm.trans h)
      have es : ∀ q j, (sampleSlot p i s).slot q j =
          if p = q ∧ digitalSlot i = j then some (digitalSample (s.nextLevel n)) else s.slot q j := fun q j => by
        rw [e]; exact slot_setSlot s p q (digitalSlot i) j _
      refine ⟨s.nextLevel n :: ds, t, he, by simp [hl], ?_, ?_, fun q j hq => ?_, fun hv => ?_⟩
      · rw [ht, e]; simp [readsTrace]
      · rw [hs, hf p _ (.inr hi'), es]; simp [samplesOf, digitalSample]
      · rw [hf q j (hq.imp_right fun h a ha => h a (List.mem_cons_of_mem _ ha)), es, if_neg]
        rintro ⟨rfl, rfl⟩
        exact hq.elim (fun h => h rfl) (fun h => h i (List.mem_cons_self ..) rfl)
      · rw [e] at hd
        cases hc : s.levels with
        | nil => simp [hc] at hv
        | cons v vs =>
          simp only [hc, List.length_cons, List.tail_cons] at hv hd ⊢
          rw [List.take_succ_cons, ← hd (by omega)]
          simp [State.nextLevel, hc]

/-- The read of a pad's twelve digital slots, whole (R81). -/
theorem sampleButtons_spec (p : PadIx) (s : State) :
    ∃ (ds : List Bool) (t : State), sampleButtons p s = t ∧ ds.length = (usedPins (s.pad p).pinMap).length ∧
      t = { s with
        x := t.x, levels := s.levels.drop ds.length
        wire := s.wire ++ readsTrace (usedPins (s.pad p).pinMap) ds } ∧
      (List.finRange 12).map (fun i => t.slot p (digitalSlot i)) = (samplesOf (s.pad p).pinMap.toList ds).map some ∧
      (∀ q i, (q ≠ p ∨ ∀ a, i ≠ digitalSlot a) → t.slot q i = s.slot q i) ∧
      (ds.length ≤ s.levels.length → ds = s.levels.take ds.length) := by
  obtain ⟨ds, t, he, hl, ht, hs, hf, hd⟩ := sampleSlots_spec p (fun i => (s.pad p).pinMap[i]) (List.finRange 12)
    (List.nodup_finRange 12) s fun _ => rfl
  rw [map_finRange_pinMap] at hl ht hs
  exact ⟨ds, t, he, hl, ht, hs, fun q i hq => hf q i (hq.imp_right fun h a _ => h a), hd⟩

/-- As many samples come out as the map has entries, if there are answers enough (R81). -/
theorem samplesOf_length (rs : List PinRef) (ds : List Bool) (h : ds.length = (rs.filterMap PinRef.pin?).length) :
    (samplesOf rs ds).length = rs.length := by
  induction rs generalizing ds with
  | nil => rfl
  | cons r rs ih =>
    cases r with
    | unused => simp [samplesOf, ih ds (by simpa using h)]
    | pin n =>
      cases ds with
      | nil => simp at h
      | cons d ds => simp [samplesOf, ih ds (by simpa using h)]

/-- Every sample is 0 or 1 (R12, R80). -/
theorem samplesOf_range (rs : List PinRef) (ds : List Bool) : ∀ v ∈ samplesOf rs ds, v = 0 ∨ v = 1 := by
  induction rs generalizing ds with
  | nil => simp [samplesOf]
  | cons r rs ih =>
    cases r with
    | unused =>
      intro v hv
      rcases List.mem_cons.mp (by simpa [samplesOf] using hv) with h | h
      · exact .inl h
      · exact ih ds v h
    | pin n =>
      cases ds with
      | nil =>
        intro v hv
        rcases List.mem_cons.mp (by simpa [samplesOf] using hv) with h | h
        · exact .inl h
        · exact ih [] v h
      | cons d ds =>
        intro v hv
        rcases List.mem_cons.mp (by simpa [samplesOf] using hv) with h | h
        · subst h; cases d <;> simp
        · exact ih ds v h

/-- Making several pins inputs, whole (R31, R82). -/
theorem foldl_pinSetInput (ns : List Nat) (s : State) :
    ns.foldl (fun t n => pinSetInput n t) s = { s with
      pins := ns.foldl (fun t n => t.setDir n .input) s.pins, wire := s.wire ++ ns.map WireEntry.si } := by
  induction ns generalizing s with
  | nil => simp
  | cons n ns ih => rw [List.foldl_cons, ih]; simp [pinSetInput, logWire]

/-- The preparation of a pad's pins, whole (R82). -/
theorem preparePins_spec (p : PadIx) (s : State) :
    ∃ t, preparePins p s = t ∧
      t = { s with pins := t.pins, wire := s.wire ++ prepareTrace (s.pad p).pinMap } ∧
      (s.pins.wf → t.pins.wf ∧ ∀ n, PinTable.get n t.pins =
        if n ∈ usedPins (s.pad p).pinMap then { dir := .input, pull := .set .up } else PinTable.get n s.pins) := by
  refine ⟨_, rfl, ?_, fun h => ?_⟩
  · simp [preparePins, foldl_pinSetInput, pinConfigurePull, logWire, prepareTrace, Config.pullMode]
  · have hw := PinTable.wf_foldl_setDir (usedPins (s.pad p).pinMap) .input s.pins h
    simp only [preparePins, foldl_pinSetInput, pinConfigurePull, logWire, Config.pullMode]
    refine ⟨PinTable.wf_foldl_setPull _ _ _ hw, fun n => ?_⟩
    rw [PinTable.get_foldl_setPull _ _ _ _ hw, PinTable.get_foldl_setDir _ _ _ _ h]
    split <;> simp_all

end Sys2Proof.Machine
end

