-- ==== Sys2Proof/Laws/Norm.lean ====
section
/-! SUPPORT. Laws/Norm.lean: what each event of a batch and the whole batch do, once (R90 to R94). -/
namespace Sys2Proof.Machine

/-- One hat axis, whole (R90). -/
theorem reportHat_eq (p : PadIx) (a : HatAxis) (s : State) (u v : Sample) (hu : s.slot p (hatFirst a) = some u)
    (hv : s.slot p (hatSecond a) = some v) :
    reportHat p a s = .next (emit p (.abs (hatAxisId a) (ternary u v) (-1) 1 0 0) s) := by
  simp only [reportHat, withSlot_some _ _ _ _ _ hu, withSlot_some _ _ _ _ _ hv, sinkAxis]

/-- One analog axis, whole (R91). -/
theorem reportAbs_eq (p : PadIx) (k : Fin 4) (s : State) (v : Sample) (hv : s.slot p (analogSlot k) = some v) :
    reportAbs p k s = .next (emit p (.abs (analogAxisId k) (clamp v.toNat 0 1023) 0 1023 4 8) s) := by
  simp only [reportAbs, withSlot_some _ _ _ _ _ hv, sinkAxis]; rfl

/-- One button, whole (R92). -/
theorem reportKey_eq (p : PadIx) (k : Fin 8) (s : State) (v : Sample) (hv : s.slot p (buttonSlot k) = some v) :
    reportKey p k s = .next (emit p (.key k (v != 0)) s) := by
  simp only [reportKey, withSlot_some _ _ _ _ _ hv, sinkKey, pressed]

@[simp] theorem batchOf_length (v : SlotIx → Sample) : (batchOf v).length = 15 := rfl

/-- Event `k` of a batch, whole, when every slot of the pad is written (R51, R94). -/
theorem batchStep_eq (p : PadIx) (k : Fin 15) (s : State) (v : SlotIx → Sample) (hv : ∀ i, s.slot p i = some (v i)) :
    batchStep p k s = .next (emit p ((batchOf v).getD k.val .syn) s) := by
  match k with
  | 0 | 1 => exact reportHat_eq p _ s _ _ (hv _) (hv _)
  | 2 | 3 | 4 | 5 => exact reportAbs_eq p _ s _ (hv _)
  | 6 | 7 | 8 | 9 | 10 | 11 | 12 | 13 => exact reportKey_eq p _ s _ (hv _)
  | 14 => rfl

/-- Whatever event of a batch answers a next state appended one record to the pad's events and changed nothing else
(R94). -/
theorem batchStep_next (p : PadIx) (k : Fin 15) (s t : State) (h : batchStep p k s = .next t) :
    ∃ e, t = emit p e s := by
  have hat : ∀ a, reportHat p a s = .next t → ∃ e, t = emit p e s := fun a h => by
    simp only [reportHat, withSlot_eq_next, Host.Outcome.next.injEq, sinkAxis] at h
    obtain ⟨_, _, _, _, rfl⟩ := h; exact ⟨_, rfl⟩
  have axis : ∀ j, reportAbs p j s = .next t → ∃ e, t = emit p e s := fun j h => by
    simp only [reportAbs, withSlot_eq_next, Host.Outcome.next.injEq, sinkAxis] at h
    obtain ⟨_, _, rfl⟩ := h; exact ⟨_, rfl⟩
  have key : ∀ j, reportKey p j s = .next t → ∃ e, t = emit p e s := fun j h => by
    simp only [reportKey, withSlot_eq_next, Host.Outcome.next.injEq, sinkKey] at h
    obtain ⟨_, _, rfl⟩ := h; exact ⟨_, rfl⟩
  match k with
  | 0 | 1 => exact hat _ h
  | 2 | 3 | 4 | 5 => exact axis _ h
  | 6 | 7 | 8 | 9 | 10 | 11 | 12 | 13 => exact key _ h
  | 14 => exact ⟨.syn, (Host.Outcome.next.inj h).symm⟩

/-- Several records appended one after the other are their list appended. -/
theorem emit_then_events (p : PadIx) (e : Event) (es : List Event) (s : State) :
    ({ emit p e s with events := (emit p e s).events.set p ((emit p e s).events[p] ++ es) } : State) =
      { s with events := s.events.set p (s.events[p] ++ e :: es) } := by
  simp [emit]

/-- Some events of a batch one after the other, whole, when every slot of the pad is written (R94). -/
theorem runAll_batchStep (p : PadIx) (ks : List (Fin 15)) (s : State) (v : SlotIx → Sample)
    (hv : ∀ i, s.slot p i = some (v i)) :
    runAll (ks.map (batchStep p)) s = .next { s with
      events := s.events.set p (s.events[p] ++ ks.map fun k => (batchOf v).getD k.val .syn) } := by
  induction ks generalizing s with
  | nil => simp
  | cons k ks ih =>
    rw [List.map_cons, runAll_cons, batchStep_eq p k s v hv, andThen_next, ih (emit p _ s) hv, emit_then_events, List.map_cons]

/-- The whole batch of one pad, when every slot of it is written (R94). -/
theorem flushBatch_eq (p : PadIx) (s : State) (v : SlotIx → Sample) (hv : ∀ i, s.slot p i = some (v i)) :
    flushBatch p s = .next { s with events := s.events.set p (s.events[p] ++ batchOf v) } :=
  runAll_batchStep p _ s v hv

/-- Whatever a batch answers, when it answers a next state, is the state with records appended to the pad's events (R94). -/
theorem flushBatch_next (p : PadIx) (s t : State) (h : flushBatch p s = .next t) :
    ∃ es, t = { s with events := s.events.set p (s.events[p] ++ es) } := by
  refine runAll_keeps (fun t => ∃ es, t = { s with events := s.events.set p (s.events[p] ++ es) }) _ ?_ s t
    ⟨[], by simp⟩ h
  rintro f hf a b ⟨es, rfl⟩ hb
  obtain ⟨k, -, rfl⟩ := List.mem_map.mp hf
  obtain ⟨e, rfl⟩ := batchStep_next p k _ _ hb
  exact ⟨es ++ [e], by simp [emit]⟩

/-- The values of a written pad, one function for all its slots. -/
theorem exists_values (p : PadIx) (s : State) (h : ∀ i, s.written p i) :
    ∃ v : SlotIx → Sample, ∀ i, s.slot p i = some (v i) :=
  ⟨fun i => (s.slot p i).get (h i), fun i => (Option.some_get (h i)).symm⟩

end Sys2Proof.Machine
end

