-- ==== Sys2Proof/Laws/Sched.lean ====
section
/-! SUPPORT. Laws/Sched.lean: what the sampling of a pad, a pass and a move of the pass agent do, once (R100, R101, R19),
and that the pass walked position by position is the pass in one step. -/
namespace Sys2Proof.Machine

/-! ### What sampling leaves alone -/

/-- Everything that no read, exchange, event or move of the pass agent changes: the configuration, the pins, the link
flag, the scheduler, the set, the results and the model's other inputs. -/
structure Kept (s t : State) : Prop where
  pads : t.pads = s.pads
  linkcfg : t.linkcfg = s.linkcfg
  linkcfgSet : t.linkcfgSet = s.linkcfgSet
  pins : t.pins = s.pins
  linkReady : t.linkReady = s.linkReady
  count : t.count = s.count
  armed : t.armed = s.armed
  mutex : t.mutex = s.mutex
  created : t.created = s.created
  results : t.results = s.results
  sinkLog : t.sinkLog = s.sinkLog
  past : t.past = s.past
  input : t.input = s.input
  allocFails : t.allocFails = s.allocFails
  interrupts : t.interrupts = s.interrupts
  drawn : t.drawn = s.drawn

theorem Kept.refl (s : State) : Kept s s := ⟨rfl, rfl, rfl, rfl, rfl, rfl, rfl, rfl, rfl, rfl, rfl, rfl, rfl, rfl, rfl, rfl⟩

theorem Kept.trans {s t u : State} (h : Kept s t) (k : Kept t u) : Kept s u where
  pads := k.pads.trans h.pads
  linkcfg := k.linkcfg.trans h.linkcfg
  linkcfgSet := k.linkcfgSet.trans h.linkcfgSet
  pins := k.pins.trans h.pins
  linkReady := k.linkReady.trans h.linkReady
  count := k.count.trans h.count
  armed := k.armed.trans h.armed
  mutex := k.mutex.trans h.mutex
  created := k.created.trans h.created
  results := k.results.trans h.results
  sinkLog := k.sinkLog.trans h.sinkLog
  past := k.past.trans h.past
  input := k.input.trans h.input
  allocFails := k.allocFails.trans h.allocFails
  interrupts := k.interrupts.trans h.interrupts
  drawn := k.drawn.trans h.drawn

theorem Kept.live {s t : State} (h : Kept s t) (p : PadIx) : t.live p = s.live p := by
  simp only [State.live, State.pad, h.pads]

/-- A state that keeps all this and the position is the old one in every other field but the ten that sampling writes. -/
theorem Kept.eq {s t : State} (h : Kept s t) (hq : t.seq = s.seq) (hi : t.inPass = s.inPass) :
    t = { s with
      x := t.x, clk := t.clk, dout := t.dout, sel := t.sel, tx := t.tx, rx := t.rx, wire := t.wire
      events := t.events, levels := t.levels } := by
  cases s; cases t; cases h; simp_all

theorem kept_sampleSlot (p : PadIx) (i : Fin 12) (s : State) : Kept s (sampleSlot p i s) := by
  unfold sampleSlot
  split <;> exact ⟨rfl, rfl, rfl, rfl, rfl, rfl, rfl, rfl, rfl, rfl, rfl, rfl, rfl, rfl, rfl, rfl⟩

theorem kept_readChannel (p : PadIx) (c : Fin 4) (s : State) : Kept s (readChannel p c s) := by
  obtain ⟨f, e, -⟩ := readChannel_spec p c s
  rw [e]; exact ⟨rfl, rfl, rfl, rfl, rfl, rfl, rfl, rfl, rfl, rfl, rfl, rfl, rfl, rfl, rfl, rfl⟩

theorem kept_emit (p : PadIx) (e : Event) (s : State) : Kept s (emit p e s) :=
  ⟨rfl, rfl, rfl, rfl, rfl, rfl, rfl, rfl, rfl, rfl, rfl, rfl, rfl, rfl, rfl, rfl⟩

theorem kept_setSeq (q : Position) (s : State) : Kept s (setSeq q s) :=
  ⟨rfl, rfl, rfl, rfl, rfl, rfl, rfl, rfl, rfl, rfl, rfl, rfl, rfl, rfl, rfl, rfl⟩

theorem kept_setInPass (b : Bool) (s : State) : Kept s (setInPass b s) :=
  ⟨rfl, rfl, rfl, rfl, rfl, rfl, rfl, rfl, rfl, rfl, rfl, rfl, rfl, rfl, rfl, rfl⟩

/-- Whatever a checked channel read answers, when it answers a next state, is the channel read (R63, R72). -/
theorem readChannelChecked_next (p : PadIx) (c : Fin 4) (s t : State) (h : readChannelChecked p c s = .next t) :
    s.linkReady = true ∧ t = readChannel p c s := by
  simp only [readChannelChecked, whenLinkReady_eq_next, Host.Outcome.next.injEq] at h
  exact ⟨h.1, h.2.symm⟩

theorem readChannelChecked_of (p : PadIx) (c : Fin 4) (s : State) (h : s.linkReady = true) :
    readChannelChecked p c s = .next (readChannel p c s) := by
  simp [readChannelChecked, h]

/-! ### One pad, one pass -/

/-- The sampling of one pad, whole (R37, R58, R100): its reads and exchanges, every slot written, the batch of those slots. -/
theorem samplePad_spec (p : PadIx) (s : State) (h : s.linkReady = true) :
    ∃ (ds : List Bool) (f : Fin 4 → Frame) (v : SlotIx → Sample) (t : State), samplePad p s = .next t ∧
      Kept s t ∧ t.seq = s.seq ∧ t.inPass = s.inPass ∧ t.clk = false ∧ t.sel = true ∧
      ds.length = (usedPins (s.pad p).pinMap).length ∧
      t.wire = s.wire ++ padTrace s.linkcfg (s.pad p).pinMap ds f ∧
      (List.finRange 12).map (fun i => t.slot p (digitalSlot i)) = (samplesOf (s.pad p).pinMap.toList ds).map some ∧
      (∀ c, t.slot p (analogSlot c) = some (BitVec.ofNat 16 (channelValue c (f c)))) ∧
      (∀ i, t.slot p i = some (v i)) ∧ (∀ q i, q ≠ p → t.slot q i = s.slot q i) ∧
      t.events = s.events.set p (s.events[p] ++ batchOf v) := by
  obtain ⟨ds, a, ha, hl, ea, hd, fa, -⟩ := sampleButtons_spec p s
  obtain ⟨f, b, hb, eb, hc, fb, -⟩ := readAxes_spec p a (by rw [ea]; exact h)
  have hdb : ∀ i, b.slot p (digitalSlot i) = a.slot p (digitalSlot i) := fun i =>
    fb p _ (.inr fun c => digitalSlot_ne_analogSlot i c)
  have hw : ∀ i, b.written p i := fun i => by
    rcases slot_cases i with ⟨j, rfl⟩ | ⟨c, rfl⟩
    · have : a.slot p (digitalSlot j) ∈ (samplesOf (s.pad p).pinMap.toList ds).map some := by
        rw [← hd]; exact List.mem_map_of_mem (List.mem_finRange j)
      obtain ⟨w, -, hw⟩ := List.mem_map.mp this
      simp [State.written, hdb, ← hw]
    · simp [State.written, hc]
  obtain ⟨v, hv⟩ := exists_values p b hw
  refine ⟨ds, f, v, { b with events := b.events.set p (b.events[p] ++ batchOf v) }, ?_, ?_, ?_, ?_, ?_, ?_, hl, ?_, ?_,
    hc, hv, ?_, ?_⟩
  · rw [samplePad, ha, hb, andThen_next, flushBatch_eq p b v hv]
  · rw [eb, ea]; exact ⟨rfl, rfl, rfl, rfl, rfl, rfl, rfl, rfl, rfl, rfl, rfl, rfl, rfl, rfl, rfl, rfl⟩
  · rw [eb, ea]
  · rw [eb, ea]
  · rw [eb]
  · rw [eb]
  · rw [eb, ea]; simp [padTrace]
  · rw [← hd]; exact List.map_congr_left fun i _ => hdb i
  · intro q i hq
    exact (fb q i (.inl hq)).trans (fa q i (.inl hq))
  · rw [eb, ea]

/-- One pad of a pass: sampled when it is live, skipped whole when it is not (R100). -/
theorem passPad_spec (p : PadIx) (s : State) (h : s.linkReady = true) :
    ∃ (ds : List Bool) (f : Fin 4 → Frame) (v : SlotIx → Sample) (t : State), passPad p s = .next t ∧
      Kept s t ∧ t.seq = s.seq ∧ t.inPass = s.inPass ∧
      t.wire = s.wire ++ (if s.live p then padTrace s.linkcfg (s.pad p).pinMap ds f else []) ∧
      (∀ q i, q ≠ p → t.slot q i = s.slot q i) ∧
      t.events = (if s.live p then s.events.set p (s.events[p] ++ batchOf v) else s.events) ∧
      (s.live p = true → ds.length = (usedPins (s.pad p).pinMap).length ∧
        (List.finRange 12).map (fun i => t.slot p (digitalSlot i)) =
          (samplesOf (s.pad p).pinMap.toList ds).map some ∧
        (∀ c, t.slot p (analogSlot c) = some (BitVec.ofNat 16 (channelValue c (f c)))) ∧
        ∀ i, t.slot p i = some (v i)) ∧
      (s.live p = false → t = s) := by
  by_cases hp : s.live p = true
  · obtain ⟨ds, f, v, t, ht, hk, hq, hi, -, -, hl, hw, hd, hc, hv, ho, he⟩ := samplePad_spec p s h
    exact ⟨ds, f, v, t, by simp [passPad, hp, ht], hk, hq, hi, by simp [hp, hw], ho, by simp [hp, he],
      fun _ => ⟨hl, hd, hc, hv⟩, by simp [hp]⟩
  · exact ⟨[], fun _ => Frame.zero, fun _ => 0, s, by simp [passPad, hp], Kept.refl s, rfl, rfl, by simp [hp],
      fun _ _ _ => rfl, by simp [hp], fun h => absurd h hp, fun _ => rfl⟩

/-- One pass, whole (R37, R100, R110): pad 0, then pad 1. -/
theorem samplingPass_spec (s : State) (h : s.linkReady = true) :
    ∃ (ds : PadIx → List Bool) (f : PadIx → Fin 4 → Frame) (v : PadIx → SlotIx → Sample) (t : State),
      samplingPass s = .next t ∧ Kept s t ∧ t.seq = s.seq ∧ t.inPass = s.inPass ∧
      t.wire = s.wire ++ (if s.live 0 then padTrace s.linkcfg (s.pad 0).pinMap (ds 0) (f 0) else []) ++
        (if s.live 1 then padTrace s.linkcfg (s.pad 1).pinMap (ds 1) (f 1) else []) ∧
      (∀ p, s.live p = true → (ds p).length = (usedPins (s.pad p).pinMap).length ∧
        (List.finRange 12).map (fun i => t.slot p (digitalSlot i)) =
          (samplesOf (s.pad p).pinMap.toList (ds p)).map some ∧
        (∀ c, t.slot p (analogSlot c) = some (BitVec.ofNat 16 (channelValue c (f p c)))) ∧
        (∀ i, t.slot p i = some (v p i)) ∧ t.events[p] = s.events[p] ++ batchOf (v p)) ∧
      (∀ p, s.live p = false → t.events[p] = s.events[p] ∧ ∀ i, t.slot p i = s.slot p i) := by
  obtain ⟨d0, f0, v0, a, ha, ka, qa, ia, wa, oa, ea, la, na⟩ := passPad_spec 0 s h
  obtain ⟨d1, f1, v1, b, hb, kb, qb, ib, wb, ob, eb, lb, nb⟩ := passPad_spec 1 a (ka.linkReady.trans h)
  have hpad : a.pad 1 = s.pad 1 := pad_congr s a ka.pads 1
  rw [ka.live, ka.linkcfg, hpad] at wb
  rw [ka.live, hpad] at lb
  rw [ka.live] at nb eb
  refine ⟨fun p => if p = 0 then d0 else d1, fun p => if p = 0 then f0 else f1, fun p => if p = 0 then v0 else v1, b,
    by simp [samplingPass, runAll_cons, ha, hb], ka.trans kb, qb.trans qa, ib.trans ia, ?_, ?_, ?_⟩
  · rw [wb, wa]; simp
  · intro p hp
    match p with
    | 0 =>
      obtain ⟨l, d, c, v⟩ := la hp
      have k : ∀ i, b.slot 0 i = a.slot 0 i := fun i => ob 0 i (by decide)
      refine ⟨l, ?_, fun c' => (k _).trans (c c'), fun i => (k i).trans (v i), ?_⟩
      · simp only [k]; exact d
      · rw [eb, ea, hp]; split <;> simp
    | 1 =>
      obtain ⟨l, d, c, v⟩ := lb hp
      refine ⟨l, d, c, v, ?_⟩
      by_cases h0 : s.live 0 = true <;> simp [eb, ea, hp, h0]
  · intro p hp
    match p with
    | 0 =>
      obtain rfl := na hp
      refine ⟨?_, fun i => ob 0 i (by decide)⟩
      rw [eb]; split <;> simp
    | 1 =>
      obtain rfl := nb hp
      refine ⟨?_, fun i => oa 1 i (by decide)⟩
      rw [ea]; split <;> simp

/-! ### The pass agent -/

/-- Everything a slot read does, it does whatever the position is. -/
theorem sampleSlot_setSeq (p : PadIx) (i : Fin 12) (q : Position) (s : State) :
    sampleSlot p i (setSeq q s) = setSeq q (sampleSlot p i s) := by
  have : (setSeq q s).pad p = s.pad p := rfl
  unfold sampleSlot
  rw [this]; split <;> rfl

theorem bitCells_setSeq (bs : List Bool) (q : Position) (s : State) :
    bitCells bs (setSeq q s) = ((bitCells bs s).1, setSeq q (bitCells bs s).2) := by
  induction bs generalizing s with
  | nil => rfl
  | cons b bs ih =>
    have h : bitCell b (setSeq q s) = ((bitCell b s).1, setSeq q (bitCell b s).2) := rfl
    simp only [bitCells, h, ih]

theorem exchange_setSeq (vs : List Byte) (q : Position) (s : State) :
    exchange vs (setSeq q s) = ((exchange vs s).1, setSeq q (exchange vs s).2) := by
  induction vs generalizing s with
  | nil => rfl
  | cons v vs ih => simp only [exchange, byteCells, bitCells_setSeq, ih]

theorem readChannel_setSeq (p : PadIx) (c : Fin 4) (q : Position) (s : State) :
    readChannel p c (setSeq q s) = setSeq q (readChannel p c s) := by
  have h : ∀ vs u, transfer vs (setSeq q u) = ((transfer vs u).1, setSeq q (transfer vs u).2) := fun vs u => by
    have k : driveSel Config.selectActive (setSeq q u) = setSeq q (driveSel Config.selectActive u) := rfl
    simp only [transfer, k, exchange_setSeq]; rfl
  have k : ∀ f, setTx f (setSeq q s) = setSeq q (setTx f s) := fun _ => rfl
  simp only [readChannel, k, h, setSeq_tx, setSeq_rx]
  generalize transfer _ _ = r
  rfl

theorem batchStep_setSeq (p : PadIx) (k : Fin 15) (q : Position) (s : State) :
    batchStep p k (setSeq q s) = andThen (batchStep p k s) fun t => .next (setSeq q t) := by
  have w : ∀ (i : SlotIx) (f g : Sample → Out), (∀ v, f v = andThen (g v) fun t => .next (setSeq q t)) →
      withSlot p i (setSeq q s) f = andThen (withSlot p i s g) fun t => .next (setSeq q t) := fun i f g hfg => by
    simp only [withSlot, show (setSeq q s).slot p i = s.slot p i from rfl]
    cases s.slot p i with
    | none => rfl
    | some v => exact hfg v
  match k with
  | 0 | 1 => exact w _ _ _ fun _ => w _ _ _ fun _ => rfl
  | 2 | 3 | 4 | 5 => exact w _ _ _ fun _ => rfl
  | 6 | 7 | 8 | 9 | 10 | 11 | 12 | 13 => exact w _ _ _ fun _ => rfl
  | 14 => rfl

@[simp] theorem setSeq_setSeq (q r : Position) (s : State) : setSeq q (setSeq r s) = setSeq q s := rfl

theorem passMove_dig (p : PadIx) (i : Fin 12) (s : State) (h : i ≠ 0 ∨ s.live p = true) :
    passMove (setSeq (.dig p i) s) = .next (setSeq (afterSlot p i) (sampleSlot p i s)) := by
  have hl : (setSeq (.dig p i) s).live p = s.live p := rfl
  simp only [passMove, setSeq_seq, hl, sampleSlot_setSeq, setSeq_setSeq]
  rcases h with h | h <;> simp [h]

theorem passMove_skip (p : PadIx) (s : State) (h : s.live p = false) :
    passMove (setSeq (.dig p 0) s) = .next (setSeq (afterPad p) s) := by
  have hl : (setSeq (.dig p 0) s).live p = s.live p := rfl
  simp [passMove, hl, h]

theorem passMove_adc (p : PadIx) (c : Fin 4) (s : State) :
    passMove (setSeq (.adc p c) s) =
      andThen (readChannelChecked p c s) fun t => .next (setSeq (afterChannel p c) t) := by
  simp only [passMove, setSeq_seq, readChannelChecked, whenLinkReady, readChannel_setSeq, setSeq_linkReady]
  split <;> simp only [andThen_next, andThen_refused, setSeq_setSeq]

theorem passMove_norm (p : PadIx) (k : Fin 15) (s : State) :
    passMove (setSeq (.norm p k) s) = andThen (batchStep p k s) fun t => .next (setSeq (afterEvent p k) t) := by
  simp only [passMove, setSeq_seq, batchStep_setSeq, andThen_assoc, andThen_next, setSeq_setSeq]

theorem passMoves_add (m n : Nat) (s : State) : passMoves (m + n) s = andThen (passMoves m s) (passMoves n) := by
  induction m generalizing s with
  | zero => simp [passMoves]
  | succ m ih =>
    rw [Nat.succ_add]
    simp only [passMoves]
    cases passMove s <;> simp [ih]

theorem passMoves_out (n : Nat) (s : State) (h : s.seq = .out) : passMoves n s = .next s := by
  induction n with
  | zero => rfl
  | succ n ih => simp [passMoves, passMove, h, ih]

/-- The twelve slot reads of a live pad, walked (R81). -/
theorem walk_dig (p : PadIx) (s : State) (h : s.live p = true) :
    passMoves 12 (setSeq (.dig p 0) s) = .next (setSeq (.adc p 0) (sampleButtons p s)) := by
  simp [passMoves, passMove_dig, h, afterSlot, sampleButtons]

/-- The four channels, walked (R73). -/
theorem walk_adc (p : PadIx) (s : State) :
    passMoves 4 (setSeq (.adc p 0) s) = andThen (readAxes p s) fun t => .next (setSeq (.norm p 0) t) := by
  simp [passMoves, passMove_adc, afterChannel, readAxes, runAll_cons, andThen_assoc]

/-- The fifteen events, walked (R94). -/
theorem walk_norm (p : PadIx) (s : State) :
    passMoves 15 (setSeq (.norm p 0) s) = andThen (flushBatch p s) fun t => .next (setSeq (afterPad p) t) := by
  simp [passMoves, passMove_norm, afterEvent, flushBatch, runAll_cons, andThen_assoc]

/-- One pad of a pass, walked: at most 31 moves (R100). -/
theorem walk_pad (p : PadIx) (s : State) :
    ∃ n, n ≤ 31 ∧ passMoves n (setSeq (.dig p 0) s) = andThen (passPad p s) fun t => .next (setSeq (afterPad p) t) := by
  by_cases h : s.live p = true
  · refine ⟨31, le_refl _, ?_⟩
    rw [show (31 : Nat) = 12 + 4 + 15 from rfl, passMoves_add, passMoves_add, walk_dig p s h, andThen_next, walk_adc,
      passPad, if_pos h, samplePad, andThen_assoc, andThen_assoc]
    simp only [andThen_next, walk_norm]
  · refine ⟨1, by omega, ?_⟩
    simp [passMoves, passMove_skip, h, passPad]

/-- The two pads of a pass, walked to the re-arm: at most 62 moves (R100). -/
theorem walk_pass (s : State) :
    ∃ n, n ≤ 62 ∧ passMoves n (setSeq (.dig 0 0) s) = andThen (samplingPass s) fun t => .next (setSeq .rearm t) := by
  obtain ⟨m, hm, em⟩ := walk_pad 0 s
  cases h : passPad 0 s with
  | next a =>
    obtain ⟨n, hn, en⟩ := walk_pad 1 a
    refine ⟨m + n, by omega, ?_⟩
    rw [passMoves_add, em, h, andThen_next, andThen_next, samplingPass, runAll_cons, h, andThen_next, runAll_cons,
      andThen_assoc]
    exact en
  | fault r => exact ⟨m, by omega, by simp [em, h, samplingPass, runAll_cons]⟩
  | refused r => exact ⟨m, by omega, by simp [em, h, samplingPass, runAll_cons]⟩

/-! ### The scheduler's registers make no difference to a pass (R39, R147) -/

/-- A state with another count, arming and mutex. -/
def withSched (n : Nat) (a : Sched) (m : Mutex) (s : State) : State := { s with count := n, armed := a, mutex := m }

variable (n : Nat) (a : Sched) (m : Mutex)

theorem sampleSlot_withSched (p : PadIx) (i : Fin 12) (s : State) : sampleSlot p i (withSched n a m s) = withSched n a m (sampleSlot p i s) := by
  have : (withSched n a m s).pad p = s.pad p := rfl
  unfold sampleSlot
  rw [this]; split <;> rfl

theorem bitCells_withSched (bs : List Bool) (s : State) :
    bitCells bs (withSched n a m s) = ((bitCells bs s).1, withSched n a m (bitCells bs s).2) := by
  induction bs generalizing s with
  | nil => rfl
  | cons b bs ih =>
    have h : bitCell b (withSched n a m s) = ((bitCell b s).1, withSched n a m (bitCell b s).2) := rfl
    simp only [bitCells, h, ih]

theorem exchange_withSched (vs : List Byte) (s : State) :
    exchange vs (withSched n a m s) = ((exchange vs s).1, withSched n a m (exchange vs s).2) := by
  induction vs generalizing s with
  | nil => rfl
  | cons v vs ih => simp only [exchange, byteCells, bitCells_withSched, ih]

theorem readChannel_withSched (p : PadIx) (c : Fin 4) (s : State) :
    readChannel p c (withSched n a m s) = withSched n a m (readChannel p c s) := by
  have h : ∀ vs u, transfer vs (withSched n a m u) = ((transfer vs u).1, withSched n a m (transfer vs u).2) := fun vs u => by
    have k : driveSel Config.selectActive (withSched n a m u) = withSched n a m (driveSel Config.selectActive u) := rfl
    simp only [transfer, k, exchange_withSched]; rfl
  have k : ∀ f, setTx f (withSched n a m s) = withSched n a m (setTx f s) := fun _ => rfl
  simp only [readChannel, k, h, show ∀ u, (withSched n a m u).tx = u.tx from fun _ => rfl, show ∀ u, (withSched n a m u).rx = u.rx from fun _ => rfl]
  generalize transfer _ _ = r
  rfl

theorem batchStep_withSched (p : PadIx) (k : Fin 15) (s : State) :
    batchStep p k (withSched n a m s) = andThen (batchStep p k s) fun t => .next (withSched n a m t) := by
  have w : ∀ (i : SlotIx) (f g : Sample → Out), (∀ v, f v = andThen (g v) fun t => .next (withSched n a m t)) →
      withSlot p i (withSched n a m s) f = andThen (withSlot p i s g) fun t => .next (withSched n a m t) := fun i f g hfg => by
    simp only [withSlot, show (withSched n a m s).slot p i = s.slot p i from rfl]
    cases s.slot p i with
    | none => rfl
    | some v => exact hfg v
  match k with
  | 0 | 1 => exact w _ _ _ fun _ => w _ _ _ fun _ => rfl
  | 2 | 3 | 4 | 5 => exact w _ _ _ fun _ => rfl
  | 6 | 7 | 8 | 9 | 10 | 11 | 12 | 13 => exact w _ _ _ fun _ => rfl
  | 14 => rfl

/-- A move of the pass agent with other values of the scheduler's registers is the same move, those values kept (R39). -/
theorem passMove_withSched (s : State) : passMove (withSched n a m s) = andThen (passMove s) fun t => .next (withSched n a m t) := by
  have hl : ∀ p, (withSched n a m s).live p = s.live p := fun _ => rfl
  have hq : ∀ q u, setSeq q (withSched n a m u) = withSched n a m (setSeq q u) := fun _ _ => rfl
  unfold passMove
  rw [show (withSched n a m s).seq = s.seq from rfl]
  split
  · rfl
  · rw [hl, sampleSlot_withSched]
    split <;> rfl
  · simp only [readChannelChecked, whenLinkReady, readChannel_withSched, show (withSched n a m s).linkReady = s.linkReady from rfl]
    split <;> simp only [andThen_next, andThen_refused, hq]
  · simp only [batchStep_withSched, andThen_assoc, andThen_next, hq]
  · rfl

theorem passMoves_withSched (k : Nat) (s : State) :
    passMoves k (withSched n a m s) = andThen (passMoves k s) fun t => .next (withSched n a m t) := by
  induction k generalizing s with
  | zero => rfl
  | succ k ih =>
    simp only [passMoves, passMove_withSched, andThen_assoc, andThen_next, ih]

end Sys2Proof.Machine
end

