-- ==== Sys2Proof/Laws/Invariant.lean ====
section
/-! SUPPORT. Laws/Invariant.lean: that the shared operations of sampling keep the invariant, what one move of the pass agent
can do, and that the moves come to the end of the pass (R12, R15, R17, R19, R100). -/
namespace Sys2Proof.Machine

/-! ### Slots -/

/-- A slot write of an allowed value keeps the ranges of the digital slots (R12). -/
theorem digitalRange_setSlot (p : PadIx) (j : SlotIx) (v : Sample) (s : State)
    (h : ∀ q (i : Fin 12) w, s.slot q (digitalSlot i) = some w → w = 0 ∨ w = 1)
    (hv : (∃ c, j = analogSlot c) ∨ v = 0 ∨ v = 1) :
    ∀ q (i : Fin 12) w, (setSlot p j v s).slot q (digitalSlot i) = some w → w = 0 ∨ w = 1 := by
  intro q i w hw
  rw [slot_setSlot] at hw
  split at hw
  · rename_i e
    obtain rfl := Option.some.inj hw
    rcases hv with ⟨c, hc⟩ | hv
    · exact absurd (e.2.symm.trans hc) (digitalSlot_ne_analogSlot i c)
    · exact hv
  · exact h q i w hw

/-- A slot write of an allowed value keeps the ranges of the analog slots (R12). -/
theorem analogRange_setSlot (p : PadIx) (j : SlotIx) (v : Sample) (s : State)
    (h : ∀ q (c : Fin 4) w, s.slot q (analogSlot c) = some w → w.toNat ≤ 1023)
    (hv : (∃ i, j = digitalSlot i) ∨ v.toNat ≤ 1023) :
    ∀ q (c : Fin 4) w, (setSlot p j v s).slot q (analogSlot c) = some w → w.toNat ≤ 1023 := by
  intro q c w hw
  rw [slot_setSlot] at hw
  split at hw
  · rename_i e
    obtain rfl := Option.some.inj hw
    rcases hv with ⟨i, hi⟩ | hv
    · exact absurd (hi.symm.trans e.2) (digitalSlot_ne_analogSlot i c)
    · exact hv
  · exact h q c w hw

/-- No slot write unwrites a slot (R11). -/
theorem written_setSlot (p q : PadIx) (i j : SlotIx) (v : Sample) (s : State) (h : s.written q j) :
    (setSlot p i v s).written q j := by
  simp only [State.written, slot_setSlot] at h ⊢
  split <;> simp_all

/-- Progress looks at the slots and the position only. -/
theorem State.progress.mono {s t : State} (h : s.progress) (hq : t.seq = s.seq)
    (hw : ∀ p i, s.written p i → t.written p i) : t.progress := by
  unfold State.progress at h ⊢
  rw [hq]
  split <;> rename_i e <;> simp only [e] at h
  · trivial
  · exact fun j hj => hw _ _ (h j hj)
  · exact ⟨fun j => hw _ _ (h.1 j), fun k hk => hw _ _ (h.2 k hk)⟩
  · exact fun i => hw _ _ (h i)
  · trivial

/-! ### The operations of sampling keep the invariant -/

/-- What sampling leaves alone the invariant needs no more: the rest is shown of the new state. -/
theorem State.Inv.of_kept {s t : State} (h : s.Inv) (k : Kept s t)
    (lines : t.created = true → t.clk = false ∧ t.sel = true)
    (dig : ∀ p (i : Fin 12) v, t.slot p (digitalSlot i) = some v → v = 0 ∨ v = 1)
    (ana : ∀ p (c : Fin 4) v, t.slot p (analogSlot c) = some v → v.toNat ≤ 1023)
    (pos : t.inPass = true ↔ t.seq ≠ .out) (quiet : t.created = false → t.inPass = false) (prog : t.progress) :
    t.Inv where
  pinsCanonical := by rw [k.pins]; exact h.pinsCanonical
  mutexFree := k.mutex.trans h.mutexFree
  readyWhenCreated := by rw [k.created, k.linkReady]; exact h.readyWhenCreated
  armedIffCounted := by rw [k.created, k.count, k.armed]; exact h.armedIffCounted
  quietWhenNotCreated := fun hc => ⟨k.armed.trans (h.quietWhenNotCreated (k.created ▸ hc)).1, quiet hc⟩
  passHasPosition := pos
  linesAtRest := lines
  digitalRange := dig
  analogRange := ana
  mapsValid := fun p => by rw [pad_congr s t k.pads]; exact h.mapsValid p
  linkValid := by rw [k.linkcfg]; exact h.linkValid
  sinkWhenLive := fun p => by rw [k.live, pad_congr s t k.pads]; exact h.sinkWhenLive p
  passProgress := prog

/-- A digital slot read writes its slot, with 0 or 1, and nothing else of the slots, the lines or the position (R80). -/
theorem sampleSlot_writes (p : PadIx) (i : Fin 12) (s : State) :
    ∃ v, (v = 0 ∨ v = 1) ∧ (sampleSlot p i s).x = (setSlot p (digitalSlot i) v s).x ∧
      (sampleSlot p i s).clk = s.clk ∧ (sampleSlot p i s).sel = s.sel ∧ (sampleSlot p i s).seq = s.seq ∧
      (sampleSlot p i s).inPass = s.inPass := by
  cases hm : (s.pad p).pinMap[i] with
  | unused => rw [sampleSlot_unused p i s hm]; exact ⟨0, .inl rfl, rfl, rfl, rfl, rfl, rfl⟩
  | pin n => rw [sampleSlot_pin p i s n hm]; exact ⟨_, digitalSample_cases _, rfl, rfl, rfl, rfl, rfl⟩

/-- A digital slot read leaves its slot written, and every slot that was (R11). -/
theorem written_sampleSlot (p : PadIx) (i : Fin 12) (s : State) :
    (sampleSlot p i s).written p (digitalSlot i) ∧ ∀ q j, s.written q j → (sampleSlot p i s).written q j := by
  obtain ⟨v, -, ex, -⟩ := sampleSlot_writes p i s
  have hs := slot_congr (setSlot p (digitalSlot i) v s) _ ex
  refine ⟨by simp [State.written, hs], fun q j hj => ?_⟩
  have := written_setSlot p q (digitalSlot i) j v s hj
  simpa only [State.written, hs] using this

/-- A channel read leaves its slot written, and every slot that was (R11). -/
theorem written_readChannel (p : PadIx) (c : Fin 4) (s : State) :
    (readChannel p c s).written p (analogSlot c) ∧ ∀ q j, s.written q j → (readChannel p c s).written q j := by
  obtain ⟨f, e, -⟩ := readChannel_spec p c s
  rw [e]
  exact ⟨congrArg Option.isSome (slot_setSlot_same s p (analogSlot c) _), fun q j hj =>
    written_setSlot p q _ j _ s hj⟩

theorem inv_sampleSlot (p : PadIx) (i : Fin 12) (s : State) (h : s.Inv) : (sampleSlot p i s).Inv := by
  obtain ⟨v, hv, ex, ec, es, eq, ei⟩ := sampleSlot_writes p i s
  have hs := slot_congr (setSlot p (digitalSlot i) v s) _ ex
  have k := kept_sampleSlot p i s
  refine h.of_kept k ?_ ?_ ?_ ?_ ?_ ?_
  · rw [k.created, ec, es]; exact h.linesAtRest
  · simp only [hs]; exact digitalRange_setSlot p _ v s h.digitalRange (.inr hv)
  · simp only [hs]; exact analogRange_setSlot p _ v s h.analogRange (.inl ⟨i, rfl⟩)
  · rw [ei, eq]; exact h.passHasPosition
  · rw [k.created, ei]; exact fun hc => (h.quietWhenNotCreated hc).2
  · exact h.passProgress.mono eq (written_sampleSlot p i s).2

theorem inv_readChannel (p : PadIx) (c : Fin 4) (s : State) (h : s.Inv) : (readChannel p c s).Inv := by
  obtain ⟨f, e, -⟩ := readChannel_spec p c s
  have k := kept_readChannel p c s
  have hw := (written_readChannel p c s).2
  rw [e] at k hw ⊢
  have hv : (BitVec.ofNat 16 (channelValue c f)).toNat ≤ 1023 := by
    have := channelValue_le c f
    rw [BitVec.toNat_ofNat]; omega
  refine h.of_kept k (fun _ => ⟨rfl, rfl⟩) ?_ ?_ h.passHasPosition (fun hc => (h.quietWhenNotCreated hc).2) ?_
  · exact digitalRange_setSlot p _ _ s h.digitalRange (.inl ⟨c, rfl⟩)
  · exact analogRange_setSlot p _ _ s h.analogRange (.inr hv)
  · exact h.passProgress.mono rfl hw

theorem inv_emit (p : PadIx) (e : Event) (s : State) (h : s.Inv) : (emit p e s).Inv :=
  h.of_kept (kept_emit p e s) h.linesAtRest h.digitalRange h.analogRange h.passHasPosition
    (fun hc => (h.quietWhenNotCreated hc).2) h.passProgress

theorem inv_setSeq (q : Position) (s : State) (h : s.Inv) (hi : s.inPass = true) (hq : q ≠ .out)
    (hp : (setSeq q s).progress) : (setSeq q s).Inv :=
  h.of_kept (kept_setSeq q s) h.linesAtRest h.digitalRange h.analogRange (iff_of_true hi hq)
    (fun hc => (h.quietWhenNotCreated hc).2) hp

/-! ### The moves of the pass agent -/

/-- How many moves the pass still has to make from a position, when no pad is skipped (R19). -/
def Position.rank : Position → Nat
  | .out => 0
  | .rearm => 1
  | .norm p k => (if p = 0 then 32 else 1) + (15 - k.val)
  | .adc p c => (if p = 0 then 47 else 16) + (4 - c.val)
  | .dig p i => (if p = 0 then 51 else 20) + (12 - i.val)

theorem Position.rank_le (q : Position) : q.rank ≤ passLength := by
  unfold Position.rank passLength; split <;> first | omega | (split <;> omega)

theorem Position.rank_pos (q : Position) (h : q ≠ .out) : 0 < q.rank := by
  cases q with
  | out => exact absurd rfl h
  | rearm => exact Nat.one_pos
  | norm p k => simp only [Position.rank]; omega
  | adc p c => simp only [Position.rank]; omega
  | dig p i => simp only [Position.rank]; omega

/-- What one move of the pass agent can do (R19, R100, R101). -/
theorem passMove_cases (s t : State) (h : passMove s = .next t) :
    (s.seq = .out ∧ t = s) ∨
    (∃ p, s.seq = .dig p 0 ∧ s.live p = false ∧ t = setSeq (afterPad p) s) ∨
    (∃ p i, s.seq = .dig p i ∧ t = setSeq (afterSlot p i) (sampleSlot p i s)) ∨
    (∃ p c, s.seq = .adc p c ∧ s.linkReady = true ∧ t = setSeq (afterChannel p c) (readChannel p c s)) ∨
    (∃ p k e, s.seq = .norm p k ∧ t = setSeq (afterEvent p k) (emit p e s)) ∨
    (s.seq = .rearm ∧ t = setSeq .out (setInPass false s)) := by
  unfold passMove at h
  split at h <;> rename_i e
  · exact .inl ⟨e, (Host.Outcome.next.inj h).symm⟩
  · rename_i p i
    split at h <;> rename_i c
    · simp only [Bool.and_eq_true, decide_eq_true_eq, Bool.not_eq_true'] at c
      exact .inr (.inl ⟨p, c.1 ▸ e, c.2, (Host.Outcome.next.inj h).symm⟩)
    · exact .inr (.inr (.inl ⟨p, i, e, (Host.Outcome.next.inj h).symm⟩))
  · rename_i p c
    obtain ⟨u, hu, ht⟩ := (andThen_eq_next _ _ _).mp h
    obtain ⟨hr, rfl⟩ := readChannelChecked_next p c s u hu
    exact .inr (.inr (.inr (.inl ⟨p, c, e, hr, (Host.Outcome.next.inj ht).symm⟩)))
  · rename_i p k
    obtain ⟨u, hu, ht⟩ := (andThen_eq_next _ _ _).mp h
    obtain ⟨ev, rfl⟩ := batchStep_next p k s u hu
    exact .inr (.inr (.inr (.inr (.inl ⟨p, k, ev, e, (Host.Outcome.next.inj ht).symm⟩))))
  · exact .inr (.inr (.inr (.inr (.inr ⟨e, (Host.Outcome.next.inj h).symm⟩))))

/-- A move of the pass agent changes only what sampling writes, the position and `in_pass`. -/
theorem kept_passMove (s t : State) (h : passMove s = .next t) : Kept s t := by
  rcases passMove_cases s t h with ⟨-, rfl⟩ | ⟨p, -, -, rfl⟩ | ⟨p, i, -, rfl⟩ | ⟨p, c, -, -, rfl⟩ |
    ⟨p, k, e, -, rfl⟩ | ⟨-, rfl⟩
  · exact Kept.refl _
  · exact kept_setSeq _ _
  · exact (kept_sampleSlot p i s).trans (kept_setSeq _ _)
  · exact (kept_readChannel p c s).trans (kept_setSeq _ _)
  · exact (kept_emit p e s).trans (kept_setSeq _ _)
  · exact (kept_setInPass _ _).trans (kept_setSeq _ _)

theorem kept_passMoves (n : Nat) (s t : State) (h : passMoves n s = .next t) : Kept s t := by
  induction n generalizing s with
  | zero => exact (Host.Outcome.next.inj h) ▸ Kept.refl s
  | succ n ih =>
    obtain ⟨u, hu, ht⟩ := (andThen_eq_next _ _ _).mp h
    exact (kept_passMove s u hu).trans (ih u ht)

theorem afterPad_ne_out (p : PadIx) : afterPad p ≠ .out := by revert p; decide
theorem afterSlot_ne_out (p : PadIx) (i : Fin 12) : afterSlot p i ≠ .out := by revert p i; decide
theorem afterChannel_ne_out (p : PadIx) (c : Fin 4) : afterChannel p c ≠ .out := by revert p c; decide
theorem afterEvent_ne_out (p : PadIx) (k : Fin 15) : afterEvent p k ≠ .out := by revert p k; decide

/-- Every move brings the pass nearer to its end (R19). -/
theorem rank_passMove (s t : State) (h : passMove s = .next t) (hq : s.seq ≠ .out) : t.seq.rank < s.seq.rank := by
  have a : ∀ p, (afterPad p).rank < (Position.dig p 0).rank := by decide
  have b : ∀ p i, (afterSlot p i).rank < (Position.dig p i).rank := by decide
  have c : ∀ p i, (afterChannel p i).rank < (Position.adc p i).rank := by decide
  have d : ∀ p i, (afterEvent p i).rank < (Position.norm p i).rank := by decide
  rcases passMove_cases s t h with ⟨e, rfl⟩ | ⟨p, e, -, rfl⟩ | ⟨p, i, e, rfl⟩ | ⟨p, i, e, -, rfl⟩ |
    ⟨p, k, _, e, rfl⟩ | ⟨e, rfl⟩
  · exact absurd e hq
  · rw [e]; exact a p
  · rw [e]; exact b p i
  · rw [e]; exact c p i
  · rw [e]; exact d p k
  · rw [e]; exact Nat.one_pos

/-- When a pad is done, nothing of the next is required yet (R100). -/
theorem progress_afterPad (p : PadIx) (s : State) : (setSeq (afterPad p) s).progress := by
  have h : afterPad p = .dig 1 0 ∨ afterPad p = .rearm := by revert p; decide
  unfold State.progress
  rcases h with h | h <;> simp only [setSeq_seq, h]
  exact fun j hj => absurd hj (Fin.not_lt_zero j)

/-- A move of the pass agent writes the slot its position promised (R11, R37). -/
theorem progress_passMove (s t : State) (h : s.progress) (hm : passMove s = .next t) : t.progress := by
  have prog := h
  unfold State.progress at prog
  rcases passMove_cases s t hm with ⟨-, rfl⟩ | ⟨p, e, -, rfl⟩ | ⟨p, i, e, rfl⟩ | ⟨p, c, e, -, rfl⟩ |
    ⟨p, k, ev, e, rfl⟩ | ⟨e, rfl⟩ <;> (try simp only [e] at prog)
  · exact h
  · exact progress_afterPad p s
  · obtain ⟨hn, hw⟩ := written_sampleSlot p i s
    have all : ∀ j : Fin 12, j.val ≤ i.val → (sampleSlot p i s).written p (digitalSlot j) := fun j hj => by
      rcases Nat.lt_or_ge j.val i.val with hl | hl
      · exact hw _ _ (prog j hl)
      · rw [show j = i from Fin.ext (by omega)]; exact hn
    generalize sampleSlot p i s = u at *
    unfold State.progress afterSlot
    by_cases hl : i.val + 1 < 12
    · simp only [setSeq_seq, hl, dite_true]
      exact fun j hj => all j (by simp only [Fin.lt_def] at hj; omega)
    · simp only [setSeq_seq, hl, dite_false]
      exact ⟨fun j => all j (by omega), fun k hk => absurd hk (Fin.not_lt_zero k)⟩
  · obtain ⟨hn, hw⟩ := written_readChannel p c s
    have all : ∀ j : Fin 4, j.val ≤ c.val → (readChannel p c s).written p (analogSlot j) := fun j hj => by
      rcases Nat.lt_or_ge j.val c.val with hl | hl
      · exact hw _ _ (prog.2 j hl)
      · rw [show j = c from Fin.ext (by omega)]; exact hn
    generalize readChannel p c s = u at *
    unfold State.progress afterChannel
    by_cases hl : c.val + 1 < 4
    · simp only [setSeq_seq, hl, dite_true]
      exact ⟨fun j => hw _ _ (prog.1 j), fun j hj => all j (by simp only [Fin.lt_def] at hj; omega)⟩
    · simp only [setSeq_seq, hl, dite_false]
      intro i
      rcases slot_cases i with ⟨j, rfl⟩ | ⟨j, rfl⟩
      · exact hw _ _ (prog.1 j)
      · exact all j (by omega)
  · by_cases hl : k.val + 1 < 15
    · simp only [State.progress, afterEvent, setSeq_seq, hl, dite_true]; exact prog
    · simp only [afterEvent, hl, dite_false]; exact progress_afterPad p _
  · trivial

/-- A move of the pass agent keeps `in_pass` and the position in agreement (R19, R21). -/
theorem position_passMove (s t : State) (h : s.inPass = true ↔ s.seq ≠ .out) (hm : passMove s = .next t) :
    t.inPass = true ↔ t.seq ≠ .out := by
  rcases passMove_cases s t hm with ⟨-, rfl⟩ | ⟨p, e, -, rfl⟩ | ⟨p, i, e, rfl⟩ | ⟨p, c, e, -, rfl⟩ |
    ⟨p, k, ev, e, rfl⟩ | ⟨e, rfl⟩
  · exact h
  · exact iff_of_true (h.mpr (by rw [e]; simp)) (afterPad_ne_out p)
  · obtain ⟨_, -, -, -, -, -, ei⟩ := sampleSlot_writes p i s
    exact iff_of_true (ei.trans (h.mpr (by rw [e]; simp))) (afterSlot_ne_out p i)
  · obtain ⟨f, ef, -⟩ := readChannel_spec p c s
    have ei : (readChannel p c s).inPass = s.inPass := by rw [ef, dropBuffers_inPass]
    generalize readChannel p c s = u at *
    exact iff_of_true (ei.trans (h.mpr (by rw [e]; simp))) (afterChannel_ne_out p c)
  · exact iff_of_true (h.mpr (by rw [e]; simp)) (afterEvent_ne_out p k)
  · simp

/-- A move of the pass agent keeps the invariant. -/
theorem inv_passMove (s t : State) (h : s.Inv) (hm : passMove s = .next t) : t.Inv := by
  have hi : s.seq ≠ .out → s.inPass = true := h.passHasPosition.mpr
  have prog := progress_passMove s t h.passProgress hm
  rcases passMove_cases s t hm with ⟨-, rfl⟩ | ⟨p, e, -, rfl⟩ | ⟨p, i, e, rfl⟩ | ⟨p, c, e, -, rfl⟩ |
    ⟨p, k, ev, e, rfl⟩ | ⟨e, rfl⟩
  · exact h
  · exact inv_setSeq _ s h (hi (by rw [e]; simp)) (afterPad_ne_out p) prog
  · obtain ⟨_, -, -, -, -, -, ei⟩ := sampleSlot_writes p i s
    exact inv_setSeq _ _ (inv_sampleSlot p i s h) (ei.trans (hi (by rw [e]; simp))) (afterSlot_ne_out p i) prog
  · obtain ⟨f, ef, -⟩ := readChannel_spec p c s
    have ei : (readChannel p c s).inPass = s.inPass := by rw [ef, dropBuffers_inPass]
    have hk := inv_readChannel p c s h
    generalize readChannel p c s = u at *
    exact inv_setSeq _ u hk (ei.trans (hi (by rw [e]; simp))) (afterChannel_ne_out p c) prog
  · exact inv_setSeq _ _ (inv_emit p ev s h) (hi (by rw [e]; simp)) (afterEvent_ne_out p k) prog
  · exact h.of_kept ((kept_setInPass _ _).trans (kept_setSeq _ _)) h.linesAtRest h.digitalRange h.analogRange
      (by simp) (fun _ => rfl) trivial

/-- Moves of the pass agent keep the invariant. -/
theorem inv_passMoves (n : Nat) (s t : State) (h : s.Inv) (hm : passMoves n s = .next t) : t.Inv := by
  induction n generalizing s with
  | zero => exact (Host.Outcome.next.inj hm) ▸ h
  | succ n ih =>
    obtain ⟨u, hu, ht⟩ := (andThen_eq_next _ _ _).mp hm
    exact ih u (inv_passMove s u h hu) ht

/-- The next move of a pass cannot stop once the link is initialised and the passed slots are written (R27, R100). -/
theorem passMove_answers (s : State) (hr : s.seq ≠ .out → s.linkReady = true) (h : s.progress) :
    ∃ t, passMove s = .next t := by
  unfold State.progress at h
  unfold passMove
  split <;> rename_i e <;> simp only [e] at h
  · exact ⟨_, rfl⟩
  · split <;> exact ⟨_, rfl⟩
  · rename_i p c
    rw [readChannelChecked_of p c s (hr (by rw [e]; simp))]; exact ⟨_, rfl⟩
  · rename_i p k
    obtain ⟨v, hv⟩ := exists_values p s h
    rw [batchStep_eq p k s v hv]; exact ⟨_, rfl⟩
  · exact ⟨_, rfl⟩

/-- The moves come to the end of the pass (R39, R104). -/
theorem passMoves_finish (n : Nat) (s : State) (hr : s.seq ≠ .out → s.linkReady = true) (h : s.progress)
    (hp : s.inPass = true ↔ s.seq ≠ .out) (hn : s.seq.rank ≤ n) :
    ∃ t, passMoves n s = .next t ∧ t.seq = .out ∧ t.inPass = false ∧ Kept s t := by
  induction n generalizing s with
  | zero =>
    have hq : s.seq = .out := by
      by_contra hq
      have := s.seq.rank_pos hq
      omega
    have hi : s.inPass = false := by
      by_contra hi
      exact hp.mp (by simpa using hi) hq
    exact ⟨s, rfl, hq, hi, Kept.refl s⟩
  | succ n ih =>
    obtain ⟨u, hu⟩ := passMove_answers s hr h
    have hk := kept_passMove s u hu
    have hs : s.seq = .out → u = s := fun hq => by simpa [passMove, hq] using hu.symm
    have hle : u.seq.rank ≤ n := by
      by_cases hq : s.seq = .out
      · rw [hs hq, hq]; exact Nat.zero_le n
      · have := rank_passMove s u hu hq
        omega
    have hr' : u.seq ≠ .out → u.linkReady = true := fun hq =>
      hk.linkReady.trans (hr fun h0 => hq (by rw [hs h0]; exact h0))
    obtain ⟨t, ht, h2, h3, h4⟩ := ih u hr' (progress_passMove s u h hu) (position_passMove s u hp hu) hle
    exact ⟨t, by simp [passMoves, hu, ht], h2, h3, hk.trans h4⟩

/-- In a state of the invariant a pass in progress implies an initialised link (R100, R107). -/
theorem State.Inv.ready (s : State) (h : s.Inv) (hq : s.seq ≠ .out) : s.linkReady = true := by
  by_contra hr
  by_cases hc : s.created = true
  · exact hr (h.readyWhenCreated hc)
  · have := (h.quietWhenNotCreated (by simpa using hc)).2
    rw [h.passHasPosition.mpr hq] at this
    exact absurd this (by simp)

/-! ### The histories grow -/

/-- `WIRE` and the events of both pads only grew (R23). -/
structure Grew (s t : State) : Prop where
  wire : ∃ w, t.wire = s.wire ++ w
  events : ∀ p : PadIx, ∃ e, t.events[p] = s.events[p] ++ e

theorem Grew.refl (s : State) : Grew s s := ⟨⟨[], by simp⟩, fun _ => ⟨[], by simp⟩⟩

theorem Grew.trans {s t u : State} (h : Grew s t) (k : Grew t u) : Grew s u where
  wire := by
    obtain ⟨a, ha⟩ := h.wire
    obtain ⟨b, hb⟩ := k.wire
    exact ⟨a ++ b, by rw [hb, ha, List.append_assoc]⟩
  events := fun p => by
    obtain ⟨a, ha⟩ := h.events p
    obtain ⟨b, hb⟩ := k.events p
    exact ⟨a ++ b, by rw [hb, ha, List.append_assoc]⟩

/-- A state with the same events and a longer `WIRE`. -/
theorem Grew.of_wire {s t : State} (w : List WireEntry) (h : t.wire = s.wire ++ w) (he : t.events = s.events) : Grew s t :=
  ⟨⟨w, h⟩, fun p => ⟨[], by simp [he]⟩⟩

theorem grew_sampleSlot (p : PadIx) (i : Fin 12) (s : State) : Grew s (sampleSlot p i s) := by
  cases hm : (s.pad p).pinMap[i] with
  | unused => rw [sampleSlot_unused p i s hm]; exact .of_wire [] (by simp) rfl
  | pin n => rw [sampleSlot_pin p i s n hm]; exact .of_wire [.r n (s.nextLevel n)] rfl rfl

theorem grew_readChannel (p : PadIx) (c : Fin 4) (s : State) : Grew s (readChannel p c s) := by
  obtain ⟨f, e, -⟩ := readChannel_spec p c s
  rw [e]; exact .of_wire _ rfl rfl

theorem grew_emit (p : PadIx) (e : Event) (s : State) : Grew s (emit p e s) where
  wire := ⟨[], by simp⟩
  events := fun q => by
    rw [events_emit]
    split
    · exact ⟨[e], rfl⟩
    · exact ⟨[], by simp⟩

theorem grew_passMove (s t : State) (h : passMove s = .next t) : Grew s t := by
  have seq : ∀ q u, Grew u (setSeq q u) := fun q u => .of_wire [] (by simp) rfl
  rcases passMove_cases s t h with ⟨-, rfl⟩ | ⟨p, -, -, rfl⟩ | ⟨p, i, -, rfl⟩ | ⟨p, c, -, -, rfl⟩ |
    ⟨p, k, e, -, rfl⟩ | ⟨-, rfl⟩
  · exact .refl _
  · exact seq _ _
  · exact (grew_sampleSlot p i s).trans (seq _ _)
  · exact (grew_readChannel p c s).trans (seq _ _)
  · exact (grew_emit p e s).trans (seq _ _)
  · exact .of_wire [] (by simp) rfl

theorem grew_passMoves (n : Nat) (s t : State) (h : passMoves n s = .next t) : Grew s t := by
  induction n generalizing s with
  | zero => exact (Host.Outcome.next.inj h) ▸ Grew.refl s
  | succ n ih =>
    obtain ⟨u, hu, ht⟩ := (andThen_eq_next _ _ _).mp h
    exact (grew_passMove s u hu).trans (ih u ht)

/-! ### Whole reads, batches and passes -/

/-- What a part of sampling leaves: everything of `Kept`, the position and `in_pass`, grown histories, and the invariant
where it held. -/
structure Sampled (s t : State) : Prop where
  kept : Kept s t
  seq : t.seq = s.seq
  inPass : t.inPass = s.inPass
  grew : Grew s t
  inv : s.Inv → t.Inv

theorem Sampled.refl (s : State) : Sampled s s := ⟨.refl s, rfl, rfl, .refl s, id⟩

theorem Sampled.trans {s t u : State} (h : Sampled s t) (k : Sampled t u) : Sampled s u :=
  ⟨h.kept.trans k.kept, k.seq.trans h.seq, k.inPass.trans h.inPass, h.grew.trans k.grew, fun i => k.inv (h.inv i)⟩

theorem sampled_sampleSlot (p : PadIx) (i : Fin 12) (s : State) : Sampled s (sampleSlot p i s) := by
  obtain ⟨_, -, -, -, -, eq, ei⟩ := sampleSlot_writes p i s
  exact ⟨kept_sampleSlot p i s, eq, ei, grew_sampleSlot p i s, inv_sampleSlot p i s⟩

theorem sampled_readChannel (p : PadIx) (c : Fin 4) (s : State) : Sampled s (readChannel p c s) := by
  obtain ⟨f, e, -⟩ := readChannel_spec p c s
  refine ⟨kept_readChannel p c s, ?_, ?_, grew_readChannel p c s, inv_readChannel p c s⟩ <;> rw [e] <;> rfl

theorem sampled_emit (p : PadIx) (e : Event) (s : State) : Sampled s (emit p e s) :=
  ⟨kept_emit p e s, rfl, rfl, grew_emit p e s, inv_emit p e s⟩

theorem sampled_sampleButtons (p : PadIx) (s : State) : Sampled s (sampleButtons p s) := by
  unfold sampleButtons
  generalize [(0 : Fin 12), 1, 2, 3, 4, 5, 6, 7, 8, 9, 10, 11] = is
  induction is generalizing s with
  | nil => exact .refl s
  | cons i is ih => exact (sampled_sampleSlot p i s).trans (ih _)

/-- Steps that each leave what sampling leaves do so together. -/
theorem sampled_runAll (fs : List (State → Out)) (h : ∀ f ∈ fs, ∀ a b, f a = .next b → Sampled a b) (s t : State)
    (ht : runAll fs s = .next t) : Sampled s t :=
  runAll_keeps (Sampled s) fs (fun f hf a b ha hb => ha.trans (h f hf a b hb)) s t (.refl s) ht

theorem sampled_readAxes (p : PadIx) (s t : State) (h : readAxes p s = .next t) : Sampled s t := by
  refine sampled_runAll _ ?_ s t h
  intro f hf a b hb
  obtain ⟨c, rfl⟩ : ∃ c, f = readChannelChecked p c := by
    simp only [List.mem_cons, List.not_mem_nil, or_false] at hf
    rcases hf with e | e | e | e <;> exact ⟨_, e⟩
  obtain ⟨-, rfl⟩ := readChannelChecked_next p c a b hb
  exact sampled_readChannel p c a

theorem sampled_flushBatch (p : PadIx) (s t : State) (h : flushBatch p s = .next t) : Sampled s t := by
  refine sampled_runAll _ ?_ s t h
  intro f hf a b hb
  obtain ⟨k, -, rfl⟩ := List.mem_map.mp hf
  obtain ⟨e, rfl⟩ := batchStep_next p k a b hb
  exact sampled_emit p e a

theorem sampled_samplingPass (s t : State) (h : samplingPass s = .next t) : Sampled s t := by
  refine sampled_runAll _ ?_ s t h
  intro f hf a b hb
  obtain ⟨p, rfl⟩ : ∃ p, f = passPad p := by
    simp only [List.mem_cons, List.not_mem_nil, or_false] at hf
    exact hf.elim (fun e => ⟨_, e⟩) fun e => ⟨_, e⟩
  unfold passPad at hb
  split at hb
  · obtain ⟨u, hu, ht⟩ := (andThen_eq_next _ _ _).mp hb
    exact ((sampled_sampleButtons p a).trans (sampled_readAxes p _ u hu)).trans (sampled_flushBatch p u b ht)
  · exact (Host.Outcome.next.inj hb) ▸ .refl a

end Sys2Proof.Machine
end

