-- ==== Sys2Proof/Laws/Life.lean ====
section
/-! SUPPORT. Laws/Life.lean: what attach and detach, setup, create and destroy do, once (R103 to R108). -/
namespace Sys2Proof.Machine

/-! ### Attach and detach -/

/-- Counting a consumer, whole (R103). -/
theorem countConsumer_eq (s : State) : countConsumer s = { s with
    count := s.count + 1, armed := if s.count = 0 then .armed else s.armed, mutex := .free } := by
  by_cases h : s.count = 0 <;> simp [countConsumer, setCount, lock, unlock, setArmed, h]

/-- A drain with no pass running does nothing (R39). -/
theorem drain_idle (s : State) (h : s.inPass = false) : drain s = .next s := by simp [drain, h]

/-- A drain while a pass runs walks the pass to its end (R39, R147). -/
theorem drain_pass (s : State) (h : s.inPass = true) : drain s = passMoves passLength s := by simp [drain, h]

/-- A drain that answers changed only what a pass changes. -/
theorem kept_drain (s t : State) (h : drain s = .next t) : Kept s t := by
  unfold drain at h
  split at h
  · exact kept_passMoves _ s t h
  · exact (Host.Outcome.next.inj h) ▸ Kept.refl s

/-- Waiting for a free mutex, or for one held while no pass runs, ends at once with the mutex free (R103). -/
theorem awaitMutex_ready (s : State) (h : s.mutex = .free ∨ s.inPass = false) :
    awaitMutex s = .next { s with mutex := .free } := by
  unfold awaitMutex
  cases hm : s.mutex with
  | free => simp only [← hm]
  | held =>
    rcases h with h | h
    · rw [hm] at h; exact absurd h (by simp)
    · simp [drain_idle s h, unlock]

/-- Counting one consumer less while another stays, whole (R104). -/
theorem releaseConsumer_stay (s : State) (h : 2 ≤ s.count) :
    releaseConsumer s = .next { s with count := s.count - 1, mutex := .free } := by
  have : s.count - 1 ≠ 0 := by omega
  simp [releaseConsumer, setCount, lock, unlock, this]

/-- Counting the last consumer off, up to the drain, whole (R104). -/
theorem releaseConsumer_last (s : State) (h : s.count = 1) :
    releaseConsumer s = andThen (drain { s with count := 0, armed := .idle, mutex := .held }) fun t => .next (unlock t) := by
  simp [releaseConsumer, setCount, lock, setArmed, h]

/-! ### Setup -/

/-- An entry of an installed Custom map is what the identifier supplied for it says (R13, R106). -/
theorem customMap_get (l : List Int) (i : Fin 12) : (customMap l)[i] = PinRef.ofInt (l.getD i.val (-1)) := by
  match i with
  | 0 | 1 | 2 | 3 | 4 | 5 | 6 | 7 | 8 | 9 | 10 | 11 => rfl

/-- A map written out as identifiers comes back as the map (R13, R58). -/
theorem customMap_mapIds (m : Vector PinRef 12) : customMap (mapIds m) = m := by
  apply Vector.ext
  intro i hi
  refine (customMap_get (mapIds m) ⟨i, hi⟩).trans ?_
  simp only [mapIds, List.getD_eq_getElem?_getD, List.getElem?_map, Vector.getElem?_toList, Vector.getElem?_eq_getElem hi,
    Option.map_some, Option.getD_some]
  cases m[i] <;> rfl

theorem mapIds_length (m : Vector PinRef 12) : (mapIds m).length = 12 := by simp [mapIds]

/-- An identifier allowed in a map, as an inequation (R13, R125). -/
theorem mapEntryValid_iff (n : Int) : mapEntryValid n = true ↔ -1 ≤ n ∧ n ≤ Config.pinMax := by
  cases n with
  | ofNat n => simp [mapEntryValid, pinNumberValid]
  | negSucc k => simp [mapEntryValid]; omega

/-- An identifier allowed as a link pin, as an inequation (R55, R125). -/
theorem linkPinValid_iff (n : Int) : linkPinValid n = true ↔ 0 ≤ n ∧ n ≤ Config.pinMax := by
  cases n with
  | ofNat n => simp [linkPinValid, pinNumberValid]
  | negSucc k => simp [linkPinValid]

/-- What the checks admit is a live pad's type (R106, R109). -/
theorem checkCfg_ok_type (p : PadIx) (c : PadCfg) (ty : PadType) (m : Vector PinRef 12)
    (h : checkCfg p c = .ok (ty, m)) : ty ≠ .none := by
  unfold checkCfg at h
  split at h <;> (try split at h) <;> simp_all
  all_goals (obtain ⟨rfl, -⟩ := h; simp)

/-- What the checks admit is a map of valid pins, when the identifiers supplied are (R13, R125). -/
theorem checkCfg_ok_map (p : PadIx) (c : PadCfg) (ty : PadType) (m : Vector PinRef 12)
    (h : checkCfg p c = .ok (ty, m)) (hv : cfgPinsValid c = true) (i : Fin 12) (n : Nat) (hn : m[i] = .pin n) :
    n ≤ Config.pinMax := by
  have fixed : ∀ f : Vector (Option Config.PinNo) 12, (f.map PinRef.ofParam)[i] = .pin n → n ≤ Config.pinMax := by
    intro f hf
    rw [Fin.getElem_fin, Vector.getElem_map] at hf
    cases hk : f[i.val] with
    | none => rw [hk] at hf; exact absurd hf (by simp [PinRef.ofParam])
    | some k =>
      rw [hk] at hf
      simp only [PinRef.ofParam, PinRef.pin.injEq] at hf
      have := k.isLt
      omega
  unfold checkCfg at h
  split at h
  · simp at h
  · simp at h
  · obtain ⟨-, rfl⟩ := Prod.mk.inj (Except.ok.inj h); exact fixed _ hn
  · obtain ⟨-, rfl⟩ := Prod.mk.inj (Except.ok.inj h); exact fixed _ hn
  · rename_i hc
    split at h
    · rename_i hl
      obtain ⟨-, rfl⟩ := Prod.mk.inj (Except.ok.inj h)
      rw [customMap_get] at hn
      have hi : i.val < c.pinMap.length := by omega
      rw [List.getD_eq_getElem?_getD, List.getElem?_eq_getElem hi, Option.getD_some] at hn
      simp only [cfgPinsValid, suppliedPins, hc, List.all_eq_true] at hv
      have := (mapEntryValid_iff _).mp (hv _ (List.getElem_mem hi))
      cases hk : c.pinMap[i.val] with
      | ofNat k =>
        rw [hk] at hn this
        simp only [PinRef.ofInt, PinRef.pin.injEq] at hn
        have := this.2
        simp only [Int.ofNat_eq_natCast, Nat.cast_le] at this
        omega
      | negSucc k => rw [hk] at hn; exact absurd hn (by simp [PinRef.ofInt])
    · simp at h

/-- Installing a pad, whole (R106). -/
theorem installPad_spec (p : PadIx) (ty : PadType) (m : Vector PinRef 12) (name : String) (s : State) :
    ∃ t, installPad p ty m name s = t ∧
      t = { s with
        pads := s.pads.set p { type := ty, pinMap := m, physId := name, sink := some s.freshSink }
        pins := t.pins, wire := s.wire ++ prepareTrace m, sinkLog := s.sinkLog ++ [.alloc s.freshSink] } ∧
      (s.pins.wf → t.pins.wf ∧ ∀ n, PinTable.get n t.pins =
        if n ∈ usedPins m then { dir := .input, pull := .set .up } else PinTable.get n s.pins) := by
  obtain ⟨t, h1, h2, h3⟩ := preparePins_spec p (setPad p { type := ty, pinMap := m, physId := name, sink := some s.freshSink }
    (logSink (.alloc s.freshSink) s))
  simp only [pad_setPad_same] at h2 h3
  refine ⟨t, h1, ?_, h3⟩
  rw [h2]; simp [setPad, logSink]

/-- A retired pad is not live and holds no sink (R107, R108). -/
theorem retirePad_eq (p : PadIx) (s : State) : retirePad p s = { s with
    pads := s.pads.set p { s.pad p with type := .none, sink := none }
    sinkLog := s.sinkLog ++ ((s.pad p).sink.map SinkCall.release).toList } := by
  cases h : (s.pad p).sink <;> simp [retirePad, releaseSink, h, setPad, logSink]

/-- Every pad after one was retired. -/
theorem pad_retirePad (p q : PadIx) (s : State) : (retirePad p s).pad q =
    if p = q then { s.pad p with type := .none, sink := none } else s.pad q := by
  rw [retirePad_eq]; exact pad_setPad s p q _

/-- What the steps of SETUP.PAD can do (R106, R127, R128). -/
theorem setupPadSteps_cases (p : PadIx) (c : PadCfg) (s : State) :
    (∃ e, checkCfg p c = .error e ∧ setupPadSteps p c s = (some e, retirePad p s)) ∨
    (∃ r, checkCfg p c = .ok r ∧ s.nextAllocFails = true ∧
      setupPadSteps p c s = (some (.resourceExhaustion p), retirePad p (drawAlloc s))) ∨
    (∃ r, checkCfg p c = .ok r ∧ s.nextAllocFails = false ∧
      setupPadSteps p c s = (none, installPad p r.1 r.2 c.physId (drawAlloc s))) := by
  unfold setupPadSteps
  cases h : checkCfg p c with
  | error e => exact .inl ⟨e, rfl, rfl⟩
  | ok r =>
    cases hf : s.nextAllocFails with
    | true => exact .inr (.inl ⟨r, rfl, rfl, by simp⟩)
    | false => exact .inr (.inr ⟨r, rfl, rfl, by simp⟩)

/-! ### Create and destroy -/

/-- A cleared pad is absent (R106, R107). -/
theorem clearPad_eq (p : PadIx) (s : State) : clearPad p s = { s with
    pads := s.pads.set p Pad.absent, sinkLog := s.sinkLog ++ ((s.pad p).sink.map SinkCall.release).toList } := by
  cases h : (s.pad p).sink <;> simp [clearPad, releaseSink, h, setPad, logSink]

/-- Every pad after one was cleared. -/
theorem pad_clearPad (p q : PadIx) (s : State) : (clearPad p s).pad q = if p = q then Pad.absent else s.pad q := by
  rw [clearPad_eq]; exact pad_setPad s p q _

/-- What the setup and the release of pads leave: every field but the pads, the pins, `WIRE`, which only grew by directions
and pulls of inputs, the sinks' history and the allocation draws (R106, R107). -/
structure SetUp (s t : State) : Prop where
  rest : t = { s with
    pads := t.pads, pins := t.pins, wire := t.wire, sinkLog := t.sinkLog, allocFails := t.allocFails, drawn := t.drawn }
  wire : ∃ w, t.wire = s.wire ++ w ∧ ∀ n v, .so n ∉ w ∧ .w n v ∉ w ∧ .r n v ∉ w
  pins : s.pins.wf → t.pins.wf

theorem SetUp.refl (s : State) : SetUp s s := ⟨rfl, ⟨[], by simp, by simp⟩, id⟩

theorem SetUp.trans {s t u : State} (h : SetUp s t) (k : SetUp t u) : SetUp s u where
  rest := by rw [k.rest, h.rest]
  wire := by
    obtain ⟨a, ha, na⟩ := h.wire
    obtain ⟨b, hb, nb⟩ := k.wire
    refine ⟨a ++ b, by rw [hb, ha, List.append_assoc], fun n v => ?_⟩
    simp only [List.mem_append, not_or]
    exact ⟨⟨(na n v).1, (nb n v).1⟩, ⟨(na n v).2.1, (nb n v).2.1⟩, ⟨(na n v).2.2, (nb n v).2.2⟩⟩
  pins := fun i => k.pins (h.pins i)

theorem setUp_retirePad (p : PadIx) (s : State) : SetUp s (retirePad p s) := by
  rw [retirePad_eq]; exact ⟨rfl, ⟨[], by simp, by simp⟩, id⟩

theorem setUp_clearPad (p : PadIx) (s : State) : SetUp s (clearPad p s) := by
  rw [clearPad_eq]; exact ⟨rfl, ⟨[], by simp, by simp⟩, id⟩

/-- The steps of SETUP.PAD: an error leaves the pad retired; success installs a live pad with a sink; every other pad stays
(R106, R128). -/
theorem setupPadSteps_spec (p : PadIx) (c : PadCfg) (s : State) :
    SetUp s (setupPadSteps p c s).2 ∧ (∀ q, q ≠ p → (setupPadSteps p c s).2.pad q = s.pad q) ∧
      ((setupPadSteps p c s).1 ≠ none →
        (setupPadSteps p c s).2.pad p = { s.pad p with type := .none, sink := none }) ∧
      ((setupPadSteps p c s).1 = none → ∃ r, checkCfg p c = .ok r ∧ (setupPadSteps p c s).2.pad p =
        { type := r.1, pinMap := r.2, physId := c.physId, sink := some s.freshSink }) := by
  have retired : ∀ u : State, (∀ q, u.pad q = s.pad q) → (∀ q, q ≠ p → (retirePad p u).pad q = s.pad q) ∧
      (retirePad p u).pad p = { s.pad p with type := .none, sink := none } := fun u hu =>
    ⟨fun q hq => by rw [pad_retirePad, if_neg (Ne.symm hq), hu], by rw [pad_retirePad, if_pos rfl, hu]⟩
  rcases setupPadSteps_cases p c s with ⟨e, -, h⟩ | ⟨r, -, -, h⟩ | ⟨r, hr, -, h⟩
  · obtain ⟨ho, hp⟩ := retired s fun _ => rfl
    rw [h]; exact ⟨setUp_retirePad p s, ho, fun _ => hp, fun h => absurd h (by simp)⟩
  · obtain ⟨ho, hp⟩ := retired (drawAlloc s) fun _ => rfl
    rw [h]
    exact ⟨.trans (t := drawAlloc s) ⟨rfl, ⟨[], by simp, by simp⟩, id⟩ (setUp_retirePad p _), ho, fun _ => hp,
      fun h => absurd h (by simp)⟩
  · obtain ⟨t, k1, k2, k3⟩ := installPad_spec p r.1 r.2 c.physId (drawAlloc s)
    have kp : ∀ q, t.pad q = if p = q then { type := r.1, pinMap := r.2, physId := c.physId, sink := some s.freshSink }
        else s.pad q := fun q => by rw [k2]; exact pad_setPad (drawAlloc s) p q _
    rw [h, k1]
    refine ⟨⟨by rw [k2]; rfl, ⟨prepareTrace r.2, by rw [k2]; rfl, by simp [prepareTrace]⟩, fun hw => (k3 hw).1⟩,
      fun q hq => by rw [kp, if_neg (Ne.symm hq)], fun h => absurd rfl h, fun _ => ⟨r, hr, by rw [kp, if_pos rfl]⟩⟩

/-- What an absent or retired pad is: no type, no sink (R13, R107). -/
def Pad.gone (d : Pad) : Prop := d.type = .none ∧ d.sink = none

/-- What a pad of the invariant is: a sink exactly with a type, and a map of valid pins (R13, R106). -/
def Pad.good (d : Pad) : Prop :=
  (d.type ≠ .none ↔ d.sink.isSome = true) ∧ ∀ (i : Fin 12) n, d.pinMap[i] = .pin n → n ≤ Config.pinMax

theorem Pad.good_of_gone (d : Pad) (h : d.gone) (hm : ∀ (i : Fin 12) n, d.pinMap[i] = .pin n → n ≤ Config.pinMax) :
    d.good := ⟨by simp [h.1, h.2], hm⟩

/-- An installed pad is a pad of the invariant, when the identifiers supplied were valid (R106). -/
theorem good_setupPadSteps (p : PadIx) (c : PadCfg) (s : State) (hc : cfgPinsValid c = true)
    (hn : (setupPadSteps p c s).1 = none) : ((setupPadSteps p c s).2.pad p).good := by
  obtain ⟨r, hr, hp⟩ := (setupPadSteps_spec p c s).2.2.2 hn
  rw [hp]
  exact ⟨iff_of_true (checkCfg_ok_type p c r.1 r.2 hr) rfl, checkCfg_ok_map p c r.1 r.2 hr hc⟩

/-- The setup of a create, from pads that are gone: an error leaves both pads gone, and every pad is one of the invariant
when the identifiers supplied are valid (R107, R121). -/
theorem setupPads_spec (cfgs : List PadCfg) (s : State) (h : ∀ p, (s.pad p).gone) (old : ∀ p, (s.pad p).good)
    (hv : cfgs.all cfgPinsValid = true) :
    SetUp s (setupPads cfgs s).2 ∧ ((setupPads cfgs s).1 ≠ none → ∀ p, ((setupPads cfgs s).2.pad p).gone) ∧
      ∀ p, ((setupPads cfgs s).2.pad p).good := by
  have two : ∀ p : PadIx, p = 0 ∨ p = 1 := by decide
  match cfgs with
  | [] => exact ⟨.refl s, fun hn => absurd rfl hn, old⟩
  | [c0] =>
    obtain ⟨k, ko, ke, -⟩ := setupPadSteps_spec 0 c0 s
    have h0 := good_setupPadSteps 0 c0 s (by simpa using hv)
    simp only [setupPads]
    generalize setupPadSteps 0 c0 s = r at *
    have k1 : r.2.pad 1 = s.pad 1 := ko 1 (by decide)
    refine ⟨k, fun hn p => ?_, fun p => ?_⟩
    · rcases two p with rfl | rfl
      · rw [ke hn]; exact ⟨rfl, rfl⟩
      · rw [k1]; exact h 1
    · rcases two p with rfl | rfl
      · by_cases hn : r.1 = none
        · exact h0 hn
        · rw [ke hn]; exact Pad.good_of_gone _ ⟨rfl, rfl⟩ (old 0).2
      · rw [k1]; exact old 1
  | c0 :: c1 :: rest =>
    obtain ⟨k, ko, ke, -⟩ := setupPadSteps_spec 0 c0 s
    simp only [List.all_cons, Bool.and_eq_true] at hv
    have h0 := good_setupPadSteps 0 c0 s hv.1
    simp only [setupPads]
    generalize setupPadSteps 0 c0 s = r at *
    have k1 : r.2.pad 1 = s.pad 1 := ko 1 (by decide)
    obtain ⟨j, jo, je, -⟩ := setupPadSteps_spec 1 c1 r.2
    have h1 := good_setupPadSteps 1 c1 r.2 hv.2.1
    generalize setupPadSteps 1 c1 r.2 = q at *
    have j0 : q.2.pad 0 = r.2.pad 0 := jo 0 (by decide)
    by_cases hn : r.1 = none
    · by_cases hm : q.1 = none
      · simp only [hn, hm, Option.isSome_none, Bool.false_eq_true, if_false]
        refine ⟨k.trans j, fun h => absurd rfl h, fun p => ?_⟩
        rcases two p with rfl | rfl
        · rw [j0]; exact h0 hn
        · exact h1 hm
      · have hs : q.1.isSome = true := Option.isSome_iff_ne_none.mpr hm
        simp only [hn, hs, Option.isSome_none, Bool.false_eq_true, if_false, if_true]
        have g0 : (retirePad 0 q.2).pad 0 = { q.2.pad 0 with type := .none, sink := none } := by
          rw [pad_retirePad, if_pos rfl]
        have g1 : (retirePad 0 q.2).pad 1 = s.pad 1 := by
          rw [pad_retirePad, if_neg (by decide), je hm, k1, ← (h 1).1, ← (h 1).2]
        refine ⟨(k.trans j).trans (setUp_retirePad 0 q.2), fun _ p => ?_, fun p => ?_⟩
        · rcases two p with rfl | rfl
          · rw [g0]; exact ⟨rfl, rfl⟩
          · rw [g1]; exact h 1
        · rcases two p with rfl | rfl
          · rw [g0, j0]; exact Pad.good_of_gone _ ⟨rfl, rfl⟩ (h0 hn).2
          · rw [g1]; exact old 1
    · have hs : r.1.isSome = true := Option.isSome_iff_ne_none.mpr hn
      simp only [hs, if_true]
      refine ⟨k, fun _ p => ?_, fun p => ?_⟩
      · rcases two p with rfl | rfl
        · rw [ke hn]; exact ⟨rfl, rfl⟩
        · rw [k1]; exact h 1
      · rcases two p with rfl | rfl
        · rw [ke hn]; exact Pad.good_of_gone _ ⟨rfl, rfl⟩ (old 0).2
        · rw [k1]; exact old 1

/-- Tearing one pad down, whole: a pad that is not live stays (R108). -/
theorem destroyPad_eq (p : PadIx) (s : State) : destroyPad p s = { s with
    pads := s.pads.set p (if s.live p then { s.pad p with type := .none, sink := none } else s.pad p)
    sinkLog := s.sinkLog ++ (if s.live p then (s.pad p).sink.map SinkCall.release else none).toList } := by
  unfold destroyPad
  split
  · simp only [retirePad_eq]
  · simp [State.pad]

/-- The end of a destroy, whole (R108). -/
theorem teardown_spec (s : State) :
    teardown s = { s with
      linkReady := false, linkcfgSet := false, created := false
      pads := (teardown s).pads, sinkLog := (teardown s).sinkLog } ∧
    (∀ p, (teardown s).pad p = if s.live p then { s.pad p with type := .none, sink := none } else s.pad p) ∧
    (teardown s).sinkLog = s.sinkLog ++ ([0, 1] : List PadIx).filterMap fun p =>
      if s.live p then (s.pad p).sink.map SinkCall.release else none := by
  have hp : ∀ q, (destroyPad 0 s).pad q = if 0 = q then
      (if s.live 0 then { s.pad 0 with type := .none, sink := none } else s.pad 0) else s.pad q := fun q => by
    rw [destroyPad_eq]; exact pad_setPad s 0 q _
  have h1 : (destroyPad 0 s).pad 1 = s.pad 1 := by rw [hp, if_neg (by decide)]
  have hl : (destroyPad 0 s).live 1 = s.live 1 := by simp only [State.live, h1]
  refine ⟨?_, fun p => ?_, ?_⟩
  · simp only [teardown, destroyPad_eq 1, destroyPad_eq 0]
  · have : (teardown s).pad p = (destroyPad 1 (destroyPad 0 s)).pad p := rfl
    rw [this, destroyPad_eq 1]
    refine (pad_setPad (destroyPad 0 s) 1 p _).trans ?_
    match p with
    | 0 => rw [if_neg (by decide), hp, if_pos rfl]
    | 1 => rw [if_pos rfl, hl, h1]
  · simp only [teardown, destroyPad_eq 1, hl, h1]
    simp only [destroyPad_eq 0, List.append_assoc]
    congr 1
    generalize hf : (fun p => if s.live p then (s.pad p).sink.map SinkCall.release else none) = f
    have e0 : (if s.live 0 then (s.pad 0).sink.map SinkCall.release else none) = f 0 := by rw [← hf]
    have e1 : (if s.live 1 then (s.pad 1).sink.map SinkCall.release else none) = f 1 := by rw [← hf]
    rw [e0, e1]
    cases h0 : f 0 <;> cases h1 : f 1 <;> simp [h0, h1]

/-- The last steps of a create, whole (R25, R107). -/
theorem finishCreate_eq (s : State) : finishCreate s = { s with
    x := Vector.replicate 2 (Vector.replicate 16 none), linkcfg := s.linkPins
    clk := false, dout := false, sel := true, pins := initDirs s.linkPins s.pins, linkReady := true
    count := 0, armed := .idle, mutex := .free, inPass := false, created := true, seq := .out
    tx := Frame.zero, rx := Frame.zero, wire := s.wire ++ initTrace s.linkPins } := by
  simp [finishCreate, initLink_eq, clearSlots]

/-- The histories of a set whose create appended `w` to `WIRE` (R25). -/
theorem startHistories_eq (before s : State) (w : List WireEntry) (h : s.wire = before.wire ++ w) :
    startHistories before s = { s with
      wire := w, events := Vector.replicate 2 []
      past := { wire := before.past.wire ++ before.wire
                events := Vector.ofFn fun p => before.past.events[p] ++ before.events[p] } } := by
  simp [startHistories, h]

/-- A torn down set has no live pad (R108). -/
theorem live_teardown (s : State) (p : PadIx) : (teardown s).live p = false := by
  rw [not_live_iff, (teardown_spec s).2.1 p]
  split
  · rfl
  · rename_i h
    exact (not_live_iff s p).mp (by simpa using h)

/-- Retiring a pad that is gone changes nothing (R128). -/
theorem retirePad_of_gone (p : PadIx) (s : State) (h : (s.pad p).gone) : retirePad p s = s := by
  have e : ({ s.pad p with type := .none, sink := none } : Pad) = s.pad p := by
    rw [← h.1, ← h.2]
  rw [retirePad_eq, e, h.2]
  simp [State.pad]

/-- Both pads cleared, whole: both are absent, the sinks they held are released, pad 0 first (R106 corner case f, R107). -/
theorem clearBoth_eq (s : State) : clearPad 1 (clearPad 0 s) =
    { s with pads := Vector.replicate 2 Pad.absent, sinkLog := s.sinkLog ++ s.heldSinks } := by
  have h1 : (clearPad 0 s).pad 1 = s.pad 1 := by rw [pad_clearPad, if_neg (by decide)]
  have hp : (s.pads.set (0 : PadIx) Pad.absent).set (1 : PadIx) Pad.absent = Vector.replicate 2 Pad.absent := by
    apply Vector.ext
    intro i hi
    match i with
    | 0 => simp
    | 1 => simp
  rw [clearPad_eq 1, h1, clearPad_eq 0]
  simp only [hp, List.append_assoc, State.heldSinks]
  cases h0 : (s.pad 0).sink <;> cases h1 : (s.pad 1).sink <;> simp [h0, h1]

/-- Both pads cleared: both are absent (R107). -/
theorem clearBoth_spec (s : State) : SetUp s (clearPad 1 (clearPad 0 s)) ∧
    ∀ p, (clearPad 1 (clearPad 0 s)).pad p = Pad.absent := by
  refine ⟨(setUp_clearPad 0 s).trans (setUp_clearPad 1 _), fun p => ?_⟩
  match p with
  | 0 => simp [pad_clearPad]
  | 1 => simp [pad_clearPad]

theorem Pad.absent_gone : Pad.absent.gone := ⟨rfl, rfl⟩

theorem Pad.absent_good : Pad.absent.good := Pad.good_of_gone _ Pad.absent_gone (by simp [Pad.absent])

/-- The pads part of a create, whole (R107, R121). -/
theorem createPads_spec (cfgs : List PadCfg) (s : State) (hv : cfgs.all cfgPinsValid = true) :
    SetUp s (setupPads cfgs (clearPad 1 (clearPad 0 s))).2 ∧
      ((setupPads cfgs (clearPad 1 (clearPad 0 s))).1 ≠ none →
        ∀ p, ((setupPads cfgs (clearPad 1 (clearPad 0 s))).2.pad p).gone) ∧
      ∀ p, ((setupPads cfgs (clearPad 1 (clearPad 0 s))).2.pad p).good := by
  obtain ⟨c, ha⟩ := clearBoth_spec s
  obtain ⟨k, kg, kd⟩ := setupPads_spec cfgs (clearPad 1 (clearPad 0 s)) (fun p => ha p ▸ Pad.absent_gone)
    (fun p => ha p ▸ Pad.absent_good) hv
  exact ⟨c.trans k, kg, kd⟩

/-- A map whose used pins are valid is a list of allowed identifiers (R13, R125 `PinInvalid`). -/
theorem mapIds_valid (m : Vector PinRef 12) (h : ∀ n ∈ usedPins m, n ≤ Config.pinMax) :
    ∀ n ∈ mapIds m, mapEntryValid n = true := by
  intro n hn
  simp only [mapIds, List.mem_map] at hn
  obtain ⟨r, hr, rfl⟩ := hn
  cases r with
  | unused => rfl
  | pin n =>
    rw [mapEntryValid_iff]
    have : n ∈ usedPins m := by
      simp only [usedPins, List.mem_filterMap]; exact ⟨_, by simpa using hr, rfl⟩
    have := h n this
    simp only; omega

/-- A configuration that installs a map passes every check (R106, R125). -/
theorem cfgInstalls_ok (p : PadIx) (c : PadCfg) (ty : PadType) (m : Vector PinRef 12) (h : cfgInstalls c ty m) :
    cfgPinsValid c = true ∧ checkCfg p c = .ok (ty, m) := by
  rcases h with ⟨h1, rfl, rfl⟩ | ⟨h1, rfl, rfl⟩ | ⟨h1, rfl, h2, h3⟩
  · simp [cfgPinsValid, suppliedPins, checkCfg, h1]
  · simp [cfgPinsValid, suppliedPins, checkCfg, h1]
  · refine ⟨?_, ?_⟩
    · simp only [cfgPinsValid, suppliedPins, h1, h2, List.all_eq_true]; exact mapIds_valid m h3
    · simp [checkCfg, h1, h2, mapIds_length, customMap_mapIds]

/-- A rejected configuration fails the checks with its error (R106, R120, R121). -/
theorem cfgRejected_error (p : PadIx) (c : PadCfg) (e : Error) (h : cfgRejected p c e) :
    cfgPinsValid c = true ∧ checkCfg p c = .error e := by
  rcases h with ⟨h1 | ⟨n, h1⟩, rfl⟩ | ⟨h1, h2, h3, rfl⟩
  · simp [cfgPinsValid, suppliedPins, checkCfg, h1]
  · simp [cfgPinsValid, suppliedPins, checkCfg, h1]
  · refine ⟨?_, ?_⟩
    · simp only [cfgPinsValid, suppliedPins, h1, List.all_eq_true, mapEntryValid_iff]; exact h3
    · simp [checkCfg, h1, h2]

/-- The setup of a pad whose configuration is valid and whose sink allocation succeeds (R106). -/
theorem setupPadSteps_installs (p : PadIx) (c : PadCfg) (ty : PadType) (m : Vector PinRef 12) (s : State)
    (hi : cfgInstalls c ty m) (h : s.nextAllocFails = false) :
    setupPadSteps p c s = (none, installPad p ty m c.physId (drawAlloc s)) := by
  simp [setupPadSteps, (cfgInstalls_ok p c ty m hi).2, h]

/-- The setup of a pad whose configuration is rejected only retires the pad (R121, R128). -/
theorem setupPadSteps_rejected (p : PadIx) (c : PadCfg) (e : Error) (s : State) (h : cfgRejected p c e) :
    setupPadSteps p c s = (some e, retirePad p s) := by
  simp [setupPadSteps, (cfgRejected_error p c e h).2]

/-- Identifiers in range are what the check of a configuration asks for (R13, R125). -/
theorem cfgInRange_iff (c : PadCfg) : cfgInRange c ↔ cfgPinsValid c = true := by
  unfold cfgInRange cfgPinsValid suppliedPins
  cases h : c.type <;> simp [mapEntryValid_iff]

/-! ### Pin conflicts (R125, D29) -/

theorem allDifferent_iff (l : List Nat) : allDifferent l = true ↔ l.Nodup := by
  induction l with
  | nil => simp [allDifferent]
  | cons n ns ih => simp [allDifferent, ih]

/-- The entries of the map a configuration brings, in slot order: those of its type's fixed map or of the supplied one. -/
def cfgRefs (c : PadCfg) : List PinRef :=
  match c.type with
  | .custom => c.pinMap.map PinRef.ofInt
  | .none => []
  | .fixedMapA => (Config.pinMapA.map PinRef.ofParam).toList
  | .fixedMapB => (Config.pinMapB.map PinRef.ofParam).toList
  | .unknown _ => []

theorem cfgPins_eq (c : PadCfg) : cfgPins c = (cfgRefs c).filterMap PinRef.pin? := by
  unfold cfgPins cfgRefs
  cases c.type <;> rfl

/-- A configuration names a pin in a slot exactly when the entry there is that pin. -/
theorem cfgNames_iff (c : PadCfg) (i n : Nat) : cfgNames c i n ↔ (cfgRefs c)[i]? = some (.pin n) := by
  have fixed : ∀ m : Vector (Option Config.PinNo) 12,
      (m.map PinRef.ofParam).toList[i]? = some (.pin n) ↔ ∃ k, m[i]? = some (some k) ∧ k.val = n := by
    intro m
    rw [Vector.toList_map, List.getElem?_map, Vector.getElem?_toList]
    cases m[i]? with
    | none => simp
    | some o => cases o <;> simp [PinRef.ofParam]
  have custom : (c.pinMap.map PinRef.ofInt)[i]? = some (.pin n) ↔ c.pinMap[i]? = some (n : Int) := by
    rw [List.getElem?_map]
    cases c.pinMap[i]? with
    | none => simp
    | some k => cases k <;> simp [PinRef.ofInt]
  unfold cfgNames cfgRefs
  cases h : c.type <;> simp only [reduceCtorEq, false_and, true_and, or_false, false_or, fixed, custom,
    List.getElem?_nil]

theorem PinRef.pin?_eq_some (r : PinRef) (n : Nat) : r.pin? = some n ↔ r = .pin n := by
  cases r <;> simp [PinRef.pin?]

theorem mem_cfgPins (c : PadCfg) (n : Nat) : n ∈ cfgPins c ↔ ∃ i, cfgNames c i n := by
  simp only [cfgPins_eq, List.mem_filterMap, PinRef.pin?_eq_some, exists_eq_right, cfgNames_iff]
  exact List.mem_iff_getElem?

theorem nodup_cfgPins (c : PadCfg) : (cfgPins c).Nodup ↔ ¬ ∃ i j n, i ≠ j ∧ cfgNames c i n ∧ cfgNames c j n := by
  simp only [cfgPins_eq, cfgNames_iff, List.Nodup, List.pairwise_filterMap, PinRef.pin?_eq_some]
  rw [List.pairwise_iff_getElem]
  constructor
  · rintro h ⟨i, j, n, hij, hi, hj⟩
    obtain ⟨hi, ei⟩ := List.getElem?_eq_some_iff.mp hi
    obtain ⟨hj, ej⟩ := List.getElem?_eq_some_iff.mp hj
    rcases Nat.lt_or_gt_of_ne hij with hlt | hlt
    · exact h i j hi hj hlt n ei n ej rfl
    · exact h j i hj hi hlt n ej n ei rfl
  · intro h i j hi hj hlt n ei m ej hnm
    subst hnm
    exact h ⟨i, j, n, by omega, List.getElem?_eq_some_iff.mpr ⟨hi, ei⟩, List.getElem?_eq_some_iff.mpr ⟨hj, ej⟩⟩

theorem nodup_linkPins (l : LinkPins) : l.toList.Nodup ↔
    ¬ (l.clk = l.dout ∨ l.clk = l.din ∨ l.clk = l.sel ∨ l.dout = l.din ∨ l.dout = l.sel ∨ l.din = l.sel) := by
  simp [LinkPins.toList]; tauto

/-- The check of LIFE.CREATE is the absence of a pin conflict (R107 corner case f, R125). -/
theorem createPinsDiffer_iff (l : LinkPins) (cfgs : List PadCfg) (h : cfgs.length ≤ 2) :
    createPinsDiffer l cfgs = true ↔ ¬ pinConflict l cfgs := by
  have link : ∀ n, n ∈ l.toList ↔ n = l.clk ∨ n = l.dout ∨ n = l.din ∨ n = l.sel := by simp [LinkPins.toList]
  rw [createPinsDiffer, allDifferent_iff, pinConflict]
  simp only [not_or]
  rw [List.nodup_append, nodup_linkPins]
  simp only [not_or]
  match cfgs, h with
  | [], _ => simp
  | [c], _ =>
    simp only [List.flatMap_cons, List.flatMap_nil, List.append_nil, nodup_cfgPins, mem_cfgPins, link, List.mem_singleton]
    refine and_congr_right fun _ => ⟨fun ⟨h1, h2⟩ => ⟨?_, ?_, ?_⟩, fun ⟨h1, h2, _⟩ => ⟨?_, ?_⟩⟩
    · rintro ⟨_, rfl, i, n, hn, hl⟩; exact h2 n hl n ⟨i, hn⟩ rfl
    · rintro ⟨_, rfl, h⟩; exact h1 h
    · rintro ⟨c0, c1, h, -⟩; simp at h
    · exact fun h => h2 ⟨c, rfl, h⟩
    · rintro n hl m ⟨i, hm⟩ rfl; exact h1 ⟨c, rfl, i, n, hm, hl⟩
  | [c0, c1], _ =>
    simp only [List.flatMap_cons, List.flatMap_nil, List.append_nil, List.nodup_append, nodup_cfgPins, mem_cfgPins, link,
      List.mem_append, List.mem_cons, List.not_mem_nil, or_false]
    refine and_congr_right fun _ => ⟨fun ⟨⟨h1, h2, h3⟩, h4⟩ => ⟨?_, ?_, ?_⟩, fun ⟨h1, h2, h3⟩ => ⟨⟨?_, ?_, ?_⟩, ?_⟩⟩
    · rintro ⟨_, rfl | rfl, i, n, hn, hl⟩
      · exact h4 n hl n (.inl ⟨i, hn⟩) rfl
      · exact h4 n hl n (.inr ⟨i, hn⟩) rfl
    · rintro ⟨_, rfl | rfl, h⟩
      · exact h1 h
      · exact h2 h
    · rintro ⟨_, _, h, i, j, n, hi, hj⟩
      obtain ⟨rfl, rfl⟩ : c0 = _ ∧ c1 = _ := by simpa using h
      exact h3 n ⟨i, hi⟩ n ⟨j, hj⟩ rfl
    · exact fun h => h2 ⟨c0, .inl rfl, h⟩
    · exact fun h => h2 ⟨c1, .inr rfl, h⟩
    · rintro n ⟨i, hi⟩ m ⟨j, hj⟩ rfl; exact h3 ⟨c0, c1, rfl, i, j, n, hi, hj⟩
    · rintro n hl m (⟨i, hm⟩ | ⟨i, hm⟩) rfl
      · exact h1 ⟨c0, .inl rfl, i, n, hm, hl⟩
      · exact h1 ⟨c1, .inr rfl, i, n, hm, hl⟩
  | _ :: _ :: _ :: _, h => simp at h

/-- A setup that fails retires the pad, the draw used up when it was the allocation (R121, R122, R128). -/
theorem setupPadSteps_fails (p : PadIx) (c : PadCfg) (e : Error) (s : State) (h : setupFails p c s.nextAllocFails e) :
    cfgPinsValid c = true ∧ (setupPadSteps p c s = (some e, retirePad p s) ∨
      setupPadSteps p c s = (some e, retirePad p (drawAlloc s))) := by
  rcases h with h | ⟨⟨ty, m, h⟩, hf, rfl⟩
  · exact ⟨(cfgRejected_error p c e h).1, .inl (setupPadSteps_rejected p c e s h)⟩
  · obtain ⟨hv, hk⟩ := cfgInstalls_ok p c ty m h
    exact ⟨hv, .inr (by simp [setupPadSteps, hk, hf])⟩

/-- The default link pins are valid pin numbers (R14). -/
theorem linkPinsDefault_valid : LinkPins.default.clk ≤ Config.pinMax ∧ LinkPins.default.dout ≤ Config.pinMax ∧
    LinkPins.default.din ≤ Config.pinMax ∧ LinkPins.default.sel ≤ Config.pinMax :=
  ⟨Nat.le_of_lt_succ (Fin.isLt _), Nat.le_of_lt_succ (Fin.isLt _), Nat.le_of_lt_succ (Fin.isLt _),
    Nat.le_of_lt_succ (Fin.isLt _)⟩

end Sys2Proof.Machine
end

