-- ==== Sys2Proof/Laws/Exec.lean ====
section
/-! SUPPORT. Laws/Exec.lean: what every operation that samples, exchanges or reports leaves, once, for the statements about
all operations (R23, R41, R94). -/
namespace Sys2Proof.Machine

/-- The operations of the families LINK, ADC, NORM and SCHED, and the reads of DIG, but for the two that set pins up
(LINK.INIT, DIG.PULL). -/
def samples : Instr → Bool
  | .linkBit _ | .linkByte _ | .linkXfer _ _ | .adcReq _ | .adcDec | .adcRdch _ _ | .adcRdax _ | .digRdslot _ _
  | .digRdbtn _ | .normHat _ _ | .normAbs _ _ | .normKey _ _ | .normSync _ | .normFlush _ | .schedPass | .schedTick
  | .adcReqCh0 | .adcReqCh1 | .adcReqCh2 | .adcReqCh3 => true
  | .linkInit | .digPull _ | .lifeAttach _ | .lifeDetach _ | .setupLinkcfg _ _ _ _ | .setupPad _ _ | .lifeCreate _
  | .lifeDestroy => false

theorem ret_inv (r : Result) (s : State) (h : s.Inv) : (ret r s).Inv :=
  ⟨h.pinsCanonical, h.mutexFree, h.readyWhenCreated, h.armedIffCounted, h.quietWhenNotCreated, h.passHasPosition,
    h.linesAtRest, h.digitalRange, h.analogRange, h.mapsValid, h.linkValid, h.sinkWhenLive, h.passProgress⟩

/-- A state that differs only in the link's lines, the buffers, the environment's answers and a longer `WIRE`, the lines at
rest if they were. -/
theorem sampled_link (s : State) (clk dout sel : Bool) (tx rx : Frame) (w : List WireEntry) (levels : List Bool)
    (h : s.clk = false → s.sel = true → clk = false ∧ sel = true) :
    Sampled s { s with
      clk := clk, dout := dout, sel := sel, tx := tx, rx := rx, wire := s.wire ++ w, levels := levels } where
  kept := ⟨rfl, rfl, rfl, rfl, rfl, rfl, rfl, rfl, rfl, rfl, rfl, rfl, rfl, rfl, rfl, rfl⟩
  seq := rfl
  inPass := rfl
  grew := .of_wire w rfl rfl
  inv := fun i => ⟨i.pinsCanonical, i.mutexFree, i.readyWhenCreated, i.armedIffCounted, i.quietWhenNotCreated,
    i.passHasPosition, fun hc => h (i.linesAtRest hc).1 (i.linesAtRest hc).2, i.digitalRange, i.analogRange, i.mapsValid,
    i.linkValid, i.sinkWhenLive, i.passProgress⟩

/-- Taking the firing keeps the invariant (R36, R101). -/
theorem inv_fire (s : State) (h : s.Inv) (hc : s.created = true) : (fire s).Inv :=
  h.of_kept ((kept_setInPass _ _).trans (kept_setSeq _ _)) h.linesAtRest h.digitalRange h.analogRange (by simp [fire])
    (fun hn => absurd (hc.symm.trans hn) (by simp)) fun j hj => absurd hj (Fin.not_lt_zero j)

/-- A tick leaves what sampling leaves (R101). -/
theorem sampled_tick (s t : State) (hc : s.created = true) (h : tick s = .next t) : Sampled s t := by
  unfold tick at h
  split at h
  · rename_i hf
    obtain ⟨u, hu, ht⟩ := (andThen_eq_next _ _ _).mp h
    obtain rfl := Host.Outcome.next.inj ht
    obtain ⟨hk, hq, -, hg, -⟩ := sampled_samplingPass _ u hu
    have hi : s.inPass = false := by simp [State.firingPending] at hf; exact hf.2
    have b : ∀ b s, Grew s (setInPass b s) := fun b s => .of_wire [] (by simp) rfl
    refine ⟨((kept_setInPass true s).trans hk).trans (kept_setInPass false u), hq, hi.symm,
      (b true s).trans (hg.trans (b false u)), fun h => ?_⟩
    obtain ⟨n, -, e⟩ := walk_pass (setInPass true s)
    have hr : passMoves n (fire s) = .next (setSeq .rearm u) := by rw [fire, e, hu, andThen_next]
    have hv := inv_passMove _ _ (inv_passMoves n _ _ (inv_fire s h hc) hr) rfl
    have hs : u.seq = .out := hq.trans (by
      by_contra hs
      have := h.passHasPosition.mpr hs
      rw [hi] at this; exact absurd this (by simp))
    have : setInPass false u = setSeq .out (setInPass false (setSeq .rearm u)) := by
      cases u; simp only at hs; simp [setSeq, setInPass, hs]
    rw [this]; exact hv
  · exact (Host.Outcome.next.inj h) ▸ .refl s

/-- What an operation that samples, exchanges or reports answers: its result handed back, on a state that sampling leaves. -/
theorem exec_samples (i : Instr) (s t : State) (hi : samples i = true) (h : exec i s = .next t) :
    s.created = true ∧ ∃ r u, t = ret r u ∧ Sampled s u := by
  have req : ∀ c, whenCreated s (fun s => .next (buildRequest c s)) = .next t →
      s.created = true ∧ ∃ r u, t = ret r u ∧ Sampled s u := fun c h => by
    simp only [whenCreated_eq_next, Host.Outcome.next.injEq] at h
    obtain ⟨hc, rfl⟩ := h
    exact ⟨hc, _, _, rfl, by
      simpa [setTx] using sampled_link s s.clk s.dout s.sel (requestFrame c) s.rx [] s.levels fun a b => ⟨a, b⟩⟩
  have done : ∀ o : Out, (∀ u, o = .next u → Sampled s u) →
      (s.created = true ∧ (andThen o fun t => .next (ret .done t)) = .next t) →
      s.created = true ∧ ∃ r u, t = ret r u ∧ Sampled s u := fun o ho ⟨hc, h⟩ => by
    simp only [andThen_eq_next, Host.Outcome.next.injEq] at h
    obtain ⟨u, hu, rfl⟩ := h
    exact ⟨hc, _, u, rfl, ho u hu⟩
  cases i with
  | linkBit b =>
    simp only [exec, execLinkBit, whenLinkReady_eq_next, whenCreated_eq_next, Host.Outcome.next.injEq, bitCell_eq] at h
    obtain ⟨-, hc, rfl⟩ := h
    exact ⟨hc, _, _, rfl, sampled_link s false b s.sel s.tx s.rx _ _ fun _ b => ⟨rfl, b⟩⟩
  | linkByte v =>
    obtain ⟨r, e, -⟩ := byteCells_spec v s
    simp only [exec, execLinkByte, whenLinkReady_eq_next, whenCreated_eq_next, Host.Outcome.next.injEq, e] at h
    obtain ⟨-, hc, rfl⟩ := h
    exact ⟨hc, _, _, rfl, sampled_link s false _ s.sel s.tx s.rx _ _ fun _ b => ⟨rfl, b⟩⟩
  | linkXfer n tx =>
    obtain ⟨r, -, e, -⟩ := transfer_spec (tx.take n.toNat) s
    simp only [exec, execLinkXfer, whenLinkReady_eq_next, whenCreated_eq_next, e] at h
    obtain ⟨-, hc, h⟩ := h
    split at h
    · simp at h
    · obtain rfl := Host.Outcome.next.inj h
      refine ⟨hc, _, _, rfl, sampled_link s _ _ true s.tx _ _ _ fun a _ => ⟨?_, rfl⟩⟩
      split
      · exact a
      · rfl
  | adcReq c =>
    simp only [exec, execAdcReq, whenCreated_eq_next] at h
    obtain ⟨hc, h⟩ := h
    split at h
    · exact req c ((whenCreated_eq_next _ _ _).mpr ⟨hc, h⟩)
    · simp at h
  | adcDec =>
    simp only [exec, execAdcDec, whenCreated_eq_next, Host.Outcome.next.injEq] at h
    obtain ⟨hc, rfl⟩ := h
    exact ⟨hc, _, _, rfl, .refl s⟩
  | adcRdch p c =>
    simp only [exec, execAdcRdch, whenCreated_eq_next] at h
    obtain ⟨hc, h⟩ := h
    split at h
    · refine done _ (fun u hu => ?_) ⟨hc, h⟩
      obtain ⟨-, rfl⟩ := readChannelChecked_next _ _ _ _ hu
      exact sampled_readChannel p _ s
    · simp at h
  | adcRdax p =>
    simp only [exec, execAdcRdax, whenCreated_eq_next] at h
    exact done _ (fun u hu => sampled_readAxes p s u hu) h
  | digRdslot p slot =>
    simp only [exec, execDigRdslot, whenCreated_eq_next] at h
    obtain ⟨hc, h⟩ := h
    split at h
    · obtain rfl := Host.Outcome.next.inj h
      exact ⟨hc, _, _, rfl, sampled_sampleSlot p _ s⟩
    · simp at h
  | digRdbtn p =>
    simp only [exec, execDigRdbtn, whenCreated_eq_next, Host.Outcome.next.injEq] at h
    obtain ⟨hc, rfl⟩ := h
    exact ⟨hc, _, _, rfl, sampled_sampleButtons p s⟩
  | normHat p a =>
    simp only [exec, execNormHat, whenCreated_eq_next] at h
    refine done _ (fun u hu => ?_) h
    obtain ⟨e, rfl⟩ := batchStep_next p (match a with | .vertical => 0 | .horizontal => 1) s u (by cases a <;> exact hu)
    exact sampled_emit p e s
  | normAbs p k =>
    simp only [exec, execNormAbs, whenCreated_eq_next] at h
    refine done _ (fun u hu => ?_) h
    obtain ⟨v, -, hv⟩ := (withSlot_eq_next _ _ _ _ _).mp hu
    obtain rfl := Host.Outcome.next.inj hv
    exact sampled_emit p _ s
  | normKey p k =>
    simp only [exec, execNormKey, whenCreated_eq_next] at h
    refine done _ (fun u hu => ?_) h
    obtain ⟨v, -, hv⟩ := (withSlot_eq_next _ _ _ _ _).mp hu
    obtain rfl := Host.Outcome.next.inj hv
    exact sampled_emit p _ s
  | normSync p =>
    simp only [exec, execNormSync, whenCreated_eq_next] at h
    refine done _ (fun u hu => ?_) h
    obtain rfl := Host.Outcome.next.inj hu
    exact sampled_emit p .syn s
  | normFlush p =>
    simp only [exec, execNormFlush, whenCreated_eq_next] at h
    exact done _ (fun u hu => sampled_flushBatch p s u hu) h
  | schedPass =>
    simp only [exec, execSchedPass, whenCreated_eq_next] at h
    exact done _ (fun u hu => sampled_samplingPass s u hu) h
  | schedTick =>
    simp only [exec, execSchedTick, whenCreated_eq_next] at h
    exact done _ (fun u hu => sampled_tick s u h.1 hu) h
  | adcReqCh0 => exact req 0 h
  | adcReqCh1 => exact req 1 h
  | adcReqCh2 => exact req 2 h
  | adcReqCh3 => exact req 3 h
  | linkInit | digPull _ | lifeAttach _ | lifeDetach _ | setupLinkcfg _ _ _ _ | setupPad _ _ | lifeCreate _
  | lifeDestroy => simp [samples] at hi

/-! ### What the lifecycle operations answer -/

/-- What an attach answers: the interruption, or the consumer counted on the state as it is or once the pass that the
mutex's holder drains has finished (R103). -/
theorem attach_next (p : PadIx) (s t : State) (h : exec (.lifeAttach p) s = .next t) :
    s.created = true ∧ (t = attachInterrupted s ∨ ∃ u, (u = drawInterrupt s ∨
      ∃ v, drain (drawInterrupt s) = .next v ∧ u = unlock v) ∧ t = ret .done (countConsumer u)) := by
  simp only [exec, execLifeAttach, whenCreated_eq_next] at h
  obtain ⟨hc, h⟩ := h
  refine ⟨hc, ?_⟩
  split at h
  · obtain rfl := Host.Outcome.next.inj h
    split
    · exact .inl rfl
    · exact .inr ⟨_, .inl rfl, rfl⟩
  · split at h
    · exact .inl (Host.Outcome.next.inj h).symm
    · simp only [andThen_eq_next, Host.Outcome.next.injEq] at h
      obtain ⟨u, hu, rfl⟩ := h
      refine .inr ⟨u, ?_, rfl⟩
      unfold awaitMutex at hu
      split at hu
      · exact .inl (Host.Outcome.next.inj hu).symm
      · simp only [andThen_eq_next, Host.Outcome.next.injEq] at hu
        obtain ⟨v, hv, rfl⟩ := hu
        exact .inr ⟨v, hv, rfl⟩

/-- What waiting for the mutex answers (R103, R104). -/
theorem awaitMutex_next (s t : State) (h : awaitMutex s = .next t) :
    (t = s ∧ s.mutex = .free) ∨ s.mutex = .held ∧ ∃ v, drain s = .next v ∧ t = unlock v := by
  unfold awaitMutex at h
  split at h
  · rename_i e; exact .inl ⟨(Host.Outcome.next.inj h).symm, e⟩
  · rename_i e
    simp only [andThen_eq_next, Host.Outcome.next.injEq] at h
    obtain ⟨v, hv, rfl⟩ := h
    exact .inr ⟨e, v, hv, rfl⟩

/-- What a detach answers: another consumer stays, or the last one goes and the pass is drained with the mutex held
(R104). -/
theorem detach_next (p : PadIx) (s t : State) (h : exec (.lifeDetach p) s = .next t) :
    s.created = true ∧ ∃ u, awaitMutex s = .next u ∧
      ((2 ≤ u.count ∧ t = ret .done { u with count := u.count - 1, mutex := .free }) ∨
        (u.count = 1 ∧ ∃ v, drain { u with count := 0, armed := .idle, mutex := .held } = .next v ∧
          t = ret .done (unlock v))) := by
  simp only [exec, execLifeDetach, whenCreated_eq_next, andThen_eq_next] at h
  obtain ⟨hc, u, hu, h⟩ := h
  split at h
  · simp at h
  rename_i hn
  refine ⟨hc, u, hu, ?_⟩
  simp only [andThen_eq_next, Host.Outcome.next.injEq] at h
  obtain ⟨v, hv, rfl⟩ := h
  by_cases h1 : u.count = 1
  · rw [releaseConsumer_last u h1] at hv
    simp only [andThen_eq_next, Host.Outcome.next.injEq] at hv
    obtain ⟨w, hw, rfl⟩ := hv
    exact .inr ⟨h1, w, hw, rfl⟩
  · rw [releaseConsumer_stay u (by omega)] at hv
    obtain rfl := Host.Outcome.next.inj hv
    exact .inl ⟨by omega, rfl⟩

/-- What a create answers (R107): the checks hold, and the result of the pads' setup. -/
theorem create_next (cfgs : List PadCfg) (s t : State) (h : exec (.lifeCreate cfgs) s = .next t) :
    s.created = false ∧ cfgs.length ≤ 2 ∧ cfgs.all cfgPinsValid = true ∧ createPinsDiffer s.linkPins cfgs = true ∧
      t = createResult s (setupPads cfgs (clearPad 1 (clearPad 0 s))) := by
  simp only [exec, execLifeCreate] at h
  split at h
  · simp at h
  split at h
  · simp at h
  split at h
  · split at h
    · exact ⟨by simp_all, by omega, by assumption, by assumption, (Host.Outcome.next.inj h).symm⟩
    · simp at h
  · simp at h

/-- What a destroy answers (R108). -/
theorem destroy_next (s t : State) (h : exec .lifeDestroy s = .next t) :
    s.created = true ∧ ∃ u, drain (setArmed .idle s) = .next u ∧ t = ret .done (teardown u) := by
  simp only [exec, execLifeDestroy, whenCreated_eq_next, andThen_eq_next, Host.Outcome.next.injEq] at h
  obtain ⟨hc, u, hu, rfl⟩ := h
  exact ⟨hc, u, hu, rfl⟩

/-- A drain's histories only grow. -/
theorem grew_drain (s t : State) (h : drain s = .next t) : Grew s t := by
  unfold drain at h
  split at h
  · exact grew_passMoves _ _ _ h
  · exact (Host.Outcome.next.inj h) ▸ Grew.refl s

/-! ### The invariant and the changes around an operation -/

/-- Taking the head off the queue keeps the invariant. -/
theorem inv_popInput (s : State) (h : s.Inv) : (popInput s).Inv :=
  ⟨h.pinsCanonical, h.mutexFree, h.readyWhenCreated, h.armedIffCounted, h.quietWhenNotCreated, h.passHasPosition,
    h.linesAtRest, h.digitalRange, h.analogRange, h.mapsValid, h.linkValid, h.sinkWhenLive, h.passProgress⟩

/-- A count and an arming that agree keep the invariant (R17). -/
theorem inv_withSched (s : State) (h : s.Inv) (hc : s.created = true) (n : Nat) (a : Sched)
    (ha : 0 < n ↔ a = Sched.armed) : (withSched n a .free s).Inv :=
  ⟨h.pinsCanonical, rfl, h.readyWhenCreated, fun _ => ha, fun hn => absurd (hc.symm.trans hn) (by simp), h.passHasPosition,
    h.linesAtRest, h.digitalRange, h.analogRange, h.mapsValid, h.linkValid, h.sinkWhenLive, h.passProgress⟩

/-- The drain of a pass under the mutex ends in the invariant once the mutex is free (R104, R147). -/
theorem inv_drain_withSched (s t : State) (c : Nat) (a : Sched) (m : Mutex) (c' : Nat) (a' : Sched) (h : s.Inv)
    (hm : drain { s with count := c, armed := a, mutex := m } = .next t) (hc : s.created = true)
    (ha : 0 < c' ↔ a' = Sched.armed) : (withSched c' a' .free t).Inv := by
  unfold drain at hm
  split at hm
  · have := passMoves_withSched c' a' .free passLength { s with count := c, armed := a, mutex := m }
    rw [hm] at this
    exact inv_passMoves _ _ _ (inv_withSched s h hc c' a' ha) this
  · obtain rfl := Host.Outcome.next.inj hm
    exact inv_withSched s h hc c' a' ha

/-- With no pass running the position is OUT (R19, R21). -/
theorem seq_out_of_inv (s : State) (h : s.Inv) (hi : s.inPass = false) : s.seq = .out := by
  by_contra hs
  have := h.passHasPosition.mpr hs
  rw [hi] at this; exact absurd this (by simp)

/-- A pad of a state of the invariant is good (R13, R106). -/
theorem pad_good_of_inv (s : State) (h : s.Inv) (p : PadIx) : (s.pad p).good :=
  ⟨by rw [← live_iff]; exact h.sinkWhenLive p, h.mapsValid p⟩

end Sys2Proof.Machine
end

