-- ==== Sys2Proof/Laws/PerInstr.lean ====
section
/-! SUPPORT. Laws/PerInstr.lean: the statements made for every instruction, one lemma per constructor. `MatchesRow`: the word
of a well-formed instruction matches the row of its own mnemonic in the operation map, and a request frame is the pattern of
its own channel (R54, R46). -/
namespace Sys2Proof.Laws

/-- The packet of a well-formed instruction carries a word that matches the row of its mnemonic (R54), or the frame of its
channel (R46). -/
def MatchesRow.Statement (i : Instr) : Prop :=
  i.wellFormed = true → match encode i with
    | .cmd w _ => ∃ r ∈ cmdRows, r.mnemonic = i.mnemonic ∧ r.hit w = true
    | .frame w => (w, i.mnemonic) ∈ [(0x018000#24, "ADC.REQ.CH0"), (0x019000#24, "ADC.REQ.CH1"),
        (0x01A000#24, "ADC.REQ.CH2"), (0x01B000#24, "ADC.REQ.CH3")]

/-- A word that agrees with a row's pattern above its free bits hits it. -/
theorem matchesRow_of_hit (x : CmdRow × Nat) (hx : x ∈ cmdRows.zip rowFreeBits) (n : Nat) (name : String) (hn : n < 65536)
    (hm : x.1.mnemonic = name) (h : n / 2 ^ x.2 = x.1.bits.toNat / 2 ^ x.2) :
    ∃ r ∈ cmdRows, r.mnemonic = name ∧ r.hit (BitVec.ofNat 16 n) = true :=
  ⟨x.1, (List.of_mem_zip hx).1, hm, (hit_row_iff x hx _).mpr (by rw [BitVec.toNat_ofNat, Nat.mod_eq_of_lt hn]; exact h)⟩

theorem MatchesRow.linkInit : MatchesRow.Statement .linkInit := by
  intro _
  refine matchesRow_of_hit (⟨"LINK.INIT", 0x1000, 0xFFFF⟩, 0) (by decide) _ _ ?_ rfl ?_
  · decide
  · decide

theorem MatchesRow.linkBit (b : Bool) : MatchesRow.Statement (.linkBit b) := by
  intro _
  have hb : b.toNat ≤ 1 := by cases b <;> decide
  refine matchesRow_of_hit (⟨"LINK.BIT", 0x1100, 0xFFFE⟩, 1) (by decide) _ _ ?_ rfl ?_
  · omega
  · show _ / 2 = 2176
    omega

theorem MatchesRow.linkByte (v : Byte) : MatchesRow.Statement (.linkByte v) := by
  intro _
  have := v.isLt
  refine matchesRow_of_hit (⟨"LINK.BYTE", 0x1200, 0xFF00⟩, 8) (by decide) _ _ ?_ rfl ?_
  · omega
  · show _ / 256 = 18
    omega

theorem MatchesRow.linkXfer (n : Byte) (tx : List Byte) : MatchesRow.Statement (.linkXfer n tx) := by
  intro _
  have := n.isLt
  refine matchesRow_of_hit (⟨"LINK.XFER", 0x1300, 0xFF00⟩, 8) (by decide) _ _ ?_ rfl ?_
  · omega
  · show _ / 256 = 19
    omega

theorem MatchesRow.adcReq (c : Fin 8) : MatchesRow.Statement (.adcReq c) := by
  intro hw
  have hc := c.isLt
  simp only [Instr.wellFormed, decide_eq_true_eq] at hw
  refine matchesRow_of_hit (⟨"ADC.REQ", 0x2000, 0xFFFC⟩, 2) (by decide) _ _ ?_ rfl ?_
  · omega
  · show _ / 4 = 2048
    omega

theorem MatchesRow.adcDec : MatchesRow.Statement .adcDec := by
  intro _
  refine matchesRow_of_hit (⟨"ADC.DEC", 0x2100, 0xFFFF⟩, 0) (by decide) _ _ ?_ rfl ?_
  · decide
  · decide

theorem MatchesRow.adcRdch (p : PadIx) (c : Fin 8) : MatchesRow.Statement (.adcRdch p c) := by
  intro hw
  have hp := p.isLt
  have hc := c.isLt
  simp only [Instr.wellFormed, decide_eq_true_eq] at hw
  refine matchesRow_of_hit (⟨"ADC.RDCH", 0x2200, 0xFFF8⟩, 3) (by decide) _ _ ?_ rfl ?_
  · omega
  · show _ / 8 = 1088
    omega

theorem MatchesRow.adcRdax (p : PadIx) : MatchesRow.Statement (.adcRdax p) := by
  intro _
  have hp := p.isLt
  refine matchesRow_of_hit (⟨"ADC.RDAX", 0x2300, 0xFFFE⟩, 1) (by decide) _ _ ?_ rfl ?_
  · omega
  · show _ / 2 = 4480
    omega

theorem MatchesRow.digRdslot (p : PadIx) (slot : SlotIx) : MatchesRow.Statement (.digRdslot p slot) := by
  intro hw
  have hp := p.isLt
  have hslot := slot.isLt
  simp only [Instr.wellFormed, decide_eq_true_eq] at hw
  refine matchesRow_of_hit (⟨"DIG.RDSLOT", 0x3000, 0xFFE0⟩, 5) (by decide) _ _ ?_ rfl ?_
  · omega
  · show _ / 32 = 384
    omega

theorem MatchesRow.digRdbtn (p : PadIx) : MatchesRow.Statement (.digRdbtn p) := by
  intro _
  have hp := p.isLt
  refine matchesRow_of_hit (⟨"DIG.RDBTN", 0x3100, 0xFFFE⟩, 1) (by decide) _ _ ?_ rfl ?_
  · omega
  · show _ / 2 = 6272
    omega

theorem MatchesRow.digPull (p : PadIx) : MatchesRow.Statement (.digPull p) := by
  intro _
  have hp := p.isLt
  refine matchesRow_of_hit (⟨"DIG.PULL", 0x3200, 0xFFFE⟩, 1) (by decide) _ _ ?_ rfl ?_
  · omega
  · show _ / 2 = 6400
    omega

theorem MatchesRow.normHat (p : PadIx) (a : HatAxis) : MatchesRow.Statement (.normHat p a) := by
  intro _
  have hp := p.isLt
  have ha : hatBit a ≤ 1 := by cases a <;> decide
  refine matchesRow_of_hit (⟨"NORM.HAT", 0x4000, 0xFFFC⟩, 2) (by decide) _ _ ?_ rfl ?_
  · omega
  · show _ / 4 = 4096
    omega

theorem MatchesRow.normAbs (p : PadIx) (k : Fin 4) : MatchesRow.Statement (.normAbs p k) := by
  intro _
  have hp := p.isLt
  have hk := k.isLt
  refine matchesRow_of_hit (⟨"NORM.ABS", 0x4100, 0xFFF8⟩, 3) (by decide) _ _ ?_ rfl ?_
  · omega
  · show _ / 8 = 2080
    omega

theorem MatchesRow.normKey (p : PadIx) (k : Fin 8) : MatchesRow.Statement (.normKey p k) := by
  intro _
  have hp := p.isLt
  have hk := k.isLt
  refine matchesRow_of_hit (⟨"NORM.KEY", 0x4200, 0xFFF0⟩, 4) (by decide) _ _ ?_ rfl ?_
  · omega
  · show _ / 16 = 1056
    omega

theorem MatchesRow.normSync (p : PadIx) : MatchesRow.Statement (.normSync p) := by
  intro _
  have hp := p.isLt
  refine matchesRow_of_hit (⟨"NORM.SYNC", 0x4300, 0xFFFE⟩, 1) (by decide) _ _ ?_ rfl ?_
  · omega
  · show _ / 2 = 8576
    omega

theorem MatchesRow.normFlush (p : PadIx) : MatchesRow.Statement (.normFlush p) := by
  intro _
  have hp := p.isLt
  refine matchesRow_of_hit (⟨"NORM.FLUSH", 0x4400, 0xFFFE⟩, 1) (by decide) _ _ ?_ rfl ?_
  · omega
  · show _ / 2 = 8704
    omega

theorem MatchesRow.schedPass : MatchesRow.Statement .schedPass := by
  intro _
  refine matchesRow_of_hit (⟨"SCHED.PASS", 0x5000, 0xFFFF⟩, 0) (by decide) _ _ ?_ rfl ?_
  · decide
  · decide

theorem MatchesRow.schedTick : MatchesRow.Statement .schedTick := by
  intro _
  refine matchesRow_of_hit (⟨"SCHED.TICK", 0x5100, 0xFFFF⟩, 0) (by decide) _ _ ?_ rfl ?_
  · decide
  · decide

theorem MatchesRow.lifeAttach (p : PadIx) : MatchesRow.Statement (.lifeAttach p) := by
  intro _
  have hp := p.isLt
  refine matchesRow_of_hit (⟨"LIFE.ATTACH", 0x5200, 0xFFFE⟩, 1) (by decide) _ _ ?_ rfl ?_
  · omega
  · show _ / 2 = 10496
    omega

theorem MatchesRow.lifeDetach (p : PadIx) : MatchesRow.Statement (.lifeDetach p) := by
  intro _
  have hp := p.isLt
  refine matchesRow_of_hit (⟨"LIFE.DETACH", 0x5300, 0xFFFE⟩, 1) (by decide) _ _ ?_ rfl ?_
  · omega
  · show _ / 2 = 10624
    omega

theorem MatchesRow.setupLinkcfg (clk : Int) (dout : Int) (din : Int) (sel : Int) : MatchesRow.Statement (.setupLinkcfg clk dout din sel) := by
  intro _
  refine matchesRow_of_hit (⟨"SETUP.LINKCFG", 0x5400, 0xFFFF⟩, 0) (by decide) _ _ ?_ rfl ?_
  · decide
  · decide

theorem MatchesRow.setupPad (p : PadIx) (cfg : PadCfg) : MatchesRow.Statement (.setupPad p cfg) := by
  intro _
  have hp := p.isLt
  refine matchesRow_of_hit (⟨"SETUP.PAD", 0x5500, 0xFFFE⟩, 1) (by decide) _ _ ?_ rfl ?_
  · omega
  · show _ / 2 = 10880
    omega

theorem MatchesRow.lifeCreate (cfgs : List PadCfg) : MatchesRow.Statement (.lifeCreate cfgs) := by
  intro _
  refine matchesRow_of_hit (⟨"LIFE.CREATE", 0x5600, 0xFFFF⟩, 0) (by decide) _ _ ?_ rfl ?_
  · decide
  · decide

theorem MatchesRow.lifeDestroy : MatchesRow.Statement .lifeDestroy := by
  intro _
  refine matchesRow_of_hit (⟨"LIFE.DESTROY", 0x5700, 0xFFFF⟩, 0) (by decide) _ _ ?_ rfl ?_
  · decide
  · decide

theorem MatchesRow.adcReqCh0 : MatchesRow.Statement .adcReqCh0 := by
  intro _; simp [encode, Instr.mnemonic]

theorem MatchesRow.adcReqCh1 : MatchesRow.Statement .adcReqCh1 := by
  intro _; simp [encode, Instr.mnemonic]

theorem MatchesRow.adcReqCh2 : MatchesRow.Statement .adcReqCh2 := by
  intro _; simp [encode, Instr.mnemonic]

theorem MatchesRow.adcReqCh3 : MatchesRow.Statement .adcReqCh3 := by
  intro _; simp [encode, Instr.mnemonic]

end Sys2Proof.Laws
end

