-- ==== Sys2Proof/Tests/Slice0.lean ====
section
/-! SUPPORT. Tests/Slice0.lean: the model's own tests. The expected results are the vectors and programs of
spec/95_test_vectors.md (their identifiers stand in the docstrings), the words those of R54 and R46; then, for each
obligation with hypotheses, a state and operands that meet them. -/
namespace Sys2Proof.Machine

set_option Elab.async false

/-! ### States for the tests -/

/-- The link pins of spec/95_test_vectors.md. -/
def demoLink : LinkPins := { clk := 11, dout := 12, din := 13, sel := 8 }

/-- The scenario pin map of spec/95_test_vectors.md. -/
def demoMap : Vector PinRef 12 :=
  #v[.pin 4, .pin 17, .pin 27, .pin 22, .pin 10, .pin 9, .pin 25, .pin 24, .pin 23, .pin 18, .pin 15, .pin 14]

/-- The identifiers of the scenario pin map. -/
def demoIds : List Int := [4, 17, 27, 22, 10, 9, 25, 24, 23, 18, 15, 14]

/-- The pin map of vector G9: four used pins, eight unused entries. -/
def sparseMap : Vector PinRef 12 :=
  #v[.pin 4, .pin 17, .unused, .unused, .pin 10, .pin 9, .unused, .unused, .unused, .unused, .unused, .unused]

/-- A configuration of type Custom for a pin map and a name (R58). -/
def customCfg (m : Vector PinRef 12) (physId : String) : PadCfg :=
  { type := .custom, pinMap := mapIds m, physId := physId }

/-- After create with the link pins of the vectors and no pad, the histories empty. -/
def demo : State := { State.reset with linkcfg := demoLink, pins := initDirs demoLink [], wire := [] }

/-- The same with pad 0 live on a map. -/
def demoPad (m : Vector PinRef 12) : State :=
  { demo with pads := #v[{ type := .custom, pinMap := m, physId := "p0", sink := some 0 }, Pad.absent] }

/-- A row of 16 slots from its values. -/
def slotRow (v : List Sample) : Vector (Option Sample) 16 :=
  #v[v[0]?, v[1]?, v[2]?, v[3]?, v[4]?, v[5]?, v[6]?, v[7]?, v[8]?, v[9]?, v[10]?, v[11]?, v[12]?, v[13]?, v[14]?, v[15]?]

/-- The same with the slots of both pads written: 16 values, the same for the two. -/
def demoSlots (v : List Sample) : State :=
  { demoPad demoMap with x := #v[slotRow v, slotRow v] }

/-- Power-on with the environment's draws scripted to "no". -/
def demoOff : State :=
  { State.powerOn with linkcfg := demoLink, linkcfgSet := true, allocFails := [false, false], interrupts := [false, false] }

/-- What a step leaves, looked at through `f`; `none` when it does not answer a next state. -/
def seen {α : Type} (o : Out) (f : State → α) : Option α :=
  match o with
  | .next s => some (f s)
  | .fault _ => none
  | .refused _ => none

/-- The refusal a step ends in, if it ends in one. -/
def refusal (o : Out) : Option Refusal :=
  match o with
  | .next _ => none
  | .fault _ => none
  | .refused r => some r

/-- The fault a step ends in, if it ends in one. -/
def faultOf (o : Out) : Option Fault :=
  match o with
  | .next _ => none
  | .fault f => some f
  | .refused _ => none

/-- The instruction a packet decodes to, if it decodes. -/
def decoded (pk : Packet) : Option Instr :=
  match decode pk with
  | .ok i => some i
  | .error _ => none

/-- The rejection a packet ends in, if it is rejected. -/
def rejected (pk : Packet) : Option Reject :=
  match decode pk with
  | .ok _ => none
  | .error r => some r

/-- The bits of bytes in the order they are sampled. -/
def bitsOf (bs : List Byte) : List Bool := bs.flatMap byteBits

/-- The 15 records of vector H15 and program P2. -/
def batchH15 : List Event :=
  [.abs .hatY (-1) (-1) 1 0 0, .abs .hatX 0 (-1) 1 0 0, .abs .absRY 256 0 1023 4 8, .abs .absRX 767 0 1023 4 8,
   .abs .absY 511 0 1023 4 8, .abs .absX 512 0 1023 4 8, .key 0 false, .key 1 false, .key 2 false, .key 3 false,
   .key 4 false, .key 5 false, .key 6 false, .key 7 false, .syn]

/-- Data-in of vector A8. -/
def scriptA8 : List Bool :=
  bitsOf ([0x00, 0x00, 0x64] ++ [0x00, 0x00, 0xC8] ++ [0x00, 0x01, 0x2C] ++ [0x00, 0x01, 0x90])

/-- The pins and data-in of the first tick of program P2. -/
def scriptP2 : List Bool :=
  (false :: List.replicate 11 true) ++
    bitsOf ([0x00, 0x02, 0xFF] ++ [0x00, 0x02, 0xFF] ++ [0x00, 0x02, 0x00] ++ [0x00, 0x02, 0x00])

/-! ### WellFormed refuses operands out of range (R54, R55) -/

theorem test_wellFormed_adcReq : (Instr.adcReq 4).wellFormed = false := by decide
theorem test_wellFormed_adcRdch : (Instr.adcRdch 1 4).wellFormed = false := by decide
theorem test_wellFormed_digRdslot : (Instr.digRdslot 0 12).wellFormed = false := by decide
theorem test_wellFormed_last_values : (Instr.adcReq 3).wellFormed = true ∧ (Instr.adcRdch 1 3).wellFormed = true ∧
    (Instr.digRdslot 1 11).wellFormed = true := by decide

/-! ### Decoding, every constructor from a word written out from R54 or R46 -/

theorem test_decode_linkInit : decoded (.cmd 0x1000 []) = some .linkInit := by decide
theorem test_decode_linkBit : decoded (.cmd 0x1100 []) = some (.linkBit false) ∧
    decoded (.cmd 0x1101 []) = some (.linkBit true) := by decide
theorem test_decode_linkByte : decoded (.cmd 0x12A5 []) = some (.linkByte 0xA5) := by decide
theorem test_decode_linkXfer :
    decoded (.cmd 0x1303 [.byte 0x01, .byte 0x80, .byte 0x00]) = some (.linkXfer 3 [0x01, 0x80, 0x00]) := by decide
theorem test_decode_adcReq : decoded (.cmd 0x2002 []) = some (.adcReq 2) := by decide
theorem test_decode_adcDec : decoded (.cmd 0x2100 []) = some .adcDec := by decide
theorem test_decode_adcRdch : decoded (.cmd 0x2206 []) = some (.adcRdch 1 2) := by decide
theorem test_decode_adcRdax : decoded (.cmd 0x2301 []) = some (.adcRdax 1) := by decide
theorem test_decode_digRdslot : decoded (.cmd 0x301B []) = some (.digRdslot 1 11) := by decide
theorem test_decode_digRdbtn : decoded (.cmd 0x3101 []) = some (.digRdbtn 1) := by decide
theorem test_decode_digPull : decoded (.cmd 0x3201 []) = some (.digPull 1) := by decide
theorem test_decode_normHat : decoded (.cmd 0x4001 []) = some (.normHat 0 .horizontal) ∧
    decoded (.cmd 0x4002 []) = some (.normHat 1 .vertical) := by decide
theorem test_decode_normAbs : decoded (.cmd 0x4107 []) = some (.normAbs 1 3) := by decide
theorem test_decode_normKey : decoded (.cmd 0x420D []) = some (.normKey 1 5) := by decide
theorem test_decode_normSync : decoded (.cmd 0x4301 []) = some (.normSync 1) := by decide
theorem test_decode_normFlush : decoded (.cmd 0x4401 []) = some (.normFlush 1) := by decide
theorem test_decode_schedPass : decoded (.cmd 0x5000 []) = some .schedPass := by decide
theorem test_decode_schedTick : decoded (.cmd 0x5100 []) = some .schedTick := by decide
theorem test_decode_lifeAttach : decoded (.cmd 0x5201 []) = some (.lifeAttach 1) := by decide
theorem test_decode_lifeDetach : decoded (.cmd 0x5301 []) = some (.lifeDetach 1) := by decide
theorem test_decode_setupLinkcfg : decoded (.cmd 0x5400 [.pin 11, .pin 12, .pin 13, .pin 8]) =
    some (.setupLinkcfg 11 12 13 8) := by decide
theorem test_decode_setupPad :
    decoded (.cmd 0x5501 [.cfg ⟨.custom, [4, -1], "a"⟩]) = some (.setupPad 1 ⟨.custom, [4, -1], "a"⟩) := by decide
theorem test_decode_lifeCreate : decoded (.cmd 0x5600 []) = some (.lifeCreate []) ∧
    decoded (.cmd 0x5600 [.cfg ⟨.fixedMapA, [], "a"⟩]) = some (.lifeCreate [⟨.fixedMapA, [], "a"⟩]) := by decide
theorem test_decode_lifeDestroy : decoded (.cmd 0x5700 []) = some .lifeDestroy := by decide
theorem test_decode_frames : decoded (.frame 0x018000) = some .adcReqCh0 ∧ decoded (.frame 0x019000) = some .adcReqCh1 ∧
    decoded (.frame 0x01A000) = some .adcReqCh2 ∧ decoded (.frame 0x01B000) = some .adcReqCh3 := by decide

/-- G4 and R55: slots 12 to 15, unnamed argument bits, unknown operations and families are `IllegalCommand`. -/
theorem test_decode_illegal : rejected (.cmd 0x300C []) = some (.illegalCommand 0x300C) ∧
    rejected (.cmd 0x1001 []) = some (.illegalCommand 0x1001) ∧ rejected (.cmd 0x2004 []) = some (.illegalCommand 0x2004) ∧
    rejected (.cmd 0x5800 []) = some (.illegalCommand 0x5800) ∧
    rejected (.cmd 0x0000 []) = some (.illegalCommand 0x0000) := by decide

/-- R55: channels 4 to 7 and single-ended bit 0 are never issued. -/
theorem test_decode_frame_not_issued : rejected (.frame 0x01C000) = some (.frameChannel 0x01C000) ∧
    rejected (.frame 0x01F000) = some (.frameChannel 0x01F000) ∧
    rejected (.frame 0x010000) = some (.frameNotIssued 0x010000) ∧
    rejected (.frame 0x018001) = some (.frameNotIssued 0x018001) := by decide

/-! ### LINK -/

/-- L1. -/
theorem test_linkInit_trace : seen (exec .linkInit demo) (fun s => (s.wire, s.clk, s.dout, s.sel, s.linkReady)) =
    some ([.so 11, .so 12, .so 8, .si 13, .w 11 false, .w 12 false, .w 8 true, .w 11 true, .d, .w 11 false, .d],
      false, false, true, true) := by decide +kernel

/-- L2. -/
theorem test_linkBit_one : seen (exec (.linkBit true) { demo with levels := [false] })
      (fun s => (s.wire, s.results, s.dout, s.clk)) =
    some ([.w 12 true, .d, .w 11 true, .r 13 false, .d, .w 11 false], [.bit false], true, false) := by decide +kernel

/-- L3. -/
theorem test_linkBit_zero : seen (exec (.linkBit false) { demo with levels := [true] }) (fun s => (s.wire, s.results)) =
    some ([.w 12 false, .d, .w 11 true, .r 13 true, .d, .w 11 false], [.bit true]) := by decide +kernel

/-- L5: the first sample lands in bit 7. -/
theorem test_linkByte_first_sample : seen (exec (.linkByte 0x01) { demo with levels := bitsOf [0x80] })
      (fun s => (s.results, s.wire.length, s.dout)) = some ([.byte 0x80], 48, true) := by decide +kernel

/-- L6: the bits driven are those of `0xA5`, most significant first. -/
theorem test_linkByte_order : seen (exec (.linkByte 0xA5) { demo with levels := [false, true, false, true, true, false, true, false] })
      (fun s => (s.results, s.wire.filterMap fun e => match e with | .w 12 v => some v | _ => none)) =
    some ([.byte 0x5A], [true, false, true, false, false, true, false, true]) := by decide +kernel

/-- L7. -/
theorem test_linkXfer_scenario : seen (exec (.linkXfer 3 [0x01, 0x80, 0x00]) { demo with levels := bitsOf [0x00, 0x02, 0xFF] })
      (fun s => (s.rx, s.results, s.wire.length, s.wire.head?, s.wire.getLast?)) =
    some (⟨0x00, 0x02, 0xFF⟩, [.bytes [0x00, 0x02, 0xFF]], 146, some (.w 8 false), some (.w 8 true)) := by decide +kernel

/-- L8. -/
theorem test_linkXfer_empty : seen (exec (.linkXfer 0 []) demo) (fun s => (s.wire, s.results)) =
    some ([.w 8 false, .w 8 true], [.bytes []]) := by decide +kernel

/-- L10 and L11. -/
theorem test_linkXfer_refused : refusal (exec (.linkXfer 4 [0x01, 0x80, 0x00]) demo) = some .transferLength ∧
    refusal (exec (.linkXfer 3 [0x01, 0x80, 0x00]) demoOff) = some .linkNotInitialised := by decide +kernel

/-! ### ADC -/

/-- A1. -/
theorem test_adcReq_frames : seen (exec (.adcReq 0) demo) (·.tx) = some ⟨0x01, 0x80, 0x00⟩ ∧
    seen (exec (.adcReq 1) demo) (·.tx) = some ⟨0x01, 0x90, 0x00⟩ ∧
    seen (exec (.adcReq 2) demo) (·.tx) = some ⟨0x01, 0xA0, 0x00⟩ ∧
    seen (exec (.adcReq 3) demo) (·.results) = some [.frame ⟨0x01, 0xB0, 0x00⟩] := by decide +kernel

/-- A2. -/
theorem test_adcReq_refused : refusal (exec (.adcReq 4) demo) = some .channelOutOfRange := by decide +kernel

/-- R46: the frames as rows of the table. -/
theorem test_adcReqFrames : seen (exec .adcReqCh0 demo) (·.tx) = some ⟨0x01, 0x80, 0x00⟩ ∧
    seen (exec .adcReqCh1 demo) (·.tx) = some ⟨0x01, 0x90, 0x00⟩ ∧
    seen (exec .adcReqCh2 demo) (·.tx) = some ⟨0x01, 0xA0, 0x00⟩ ∧
    seen (exec .adcReqCh3 demo) (·.tx) = some ⟨0x01, 0xB0, 0x00⟩ := by decide +kernel

/-- A3, rows 3, 4, 5 and 9 of the decode table. -/
theorem test_adcDec_table : seen (exec .adcDec { demo with rx := ⟨0x00, 0x02, 0xFF⟩ }) (·.results) = some [.raw 767] ∧
    seen (exec .adcDec { demo with rx := ⟨0xAA, 0xFD, 0x00⟩ }) (·.results) = some [.raw 256] ∧
    seen (exec .adcDec { demo with rx := ⟨0x12, 0x03, 0xFF⟩ }) (·.results) = some [.raw 1023] ∧
    seen (exec .adcDec { demo with rx := ⟨0x55, 0x56, 0x34⟩ }) (·.results) = some [.raw 564] := by decide +kernel

/-- A4 and A5. -/
theorem test_adcRdch_orientation :
    seen (exec (.adcRdch 0 0) { demo with levels := bitsOf [0x00, 0x02, 0xFF] }) (·.slot 0 12) = some (some 256) ∧
    seen (exec (.adcRdch 0 1) { demo with levels := bitsOf [0x00, 0x02, 0xFF] }) (·.slot 0 13) = some (some 767) := by
  decide +kernel

/-- A6 and A7. -/
theorem test_adcRdch_extremes :
    seen (exec (.adcRdch 1 2) { demo with levels := bitsOf [0x00, 0x00, 0x00] }) (·.slot 1 14) = some (some 1023) ∧
    seen (exec (.adcRdch 1 3) { demo with levels := bitsOf [0xFF, 0xFF, 0xFF] }) (·.slot 1 15) = some (some 1023) := by
  decide +kernel

/-- A8: raw 100, 200, 300, 400 on channels 0 to 3. -/
theorem test_adcRdax_values : seen (exec (.adcRdax 1) { demo with levels := scriptA8 })
      (fun s => ([12, 13, 14, 15].map (s.slot 1), s.wire.length)) =
    some ([some 923, some 200, some 723, some 400], 584) := by
  have e : ∀ s : State, s.created = true → exec (.adcRdax 1) s = andThen (readAxes 1 s) fun t => .next (ret .done t) :=
    fun s h => by simp [exec, execAdcRdax, whenCreated, h]
  have r := readAxes_scripted 1 { demo with levels := scriptA8 } ⟨0x00, 0x00, 0x64⟩ ⟨0x00, 0x00, 0xC8⟩ ⟨0x00, 0x01, 0x2C⟩
    ⟨0x00, 0x01, 0x90⟩ [] (by decide +kernel) (by decide +kernel)
  rw [e _ (by decide +kernel), r]
  decide +kernel

/-! ### DIG -/

/-- G1 and G2. -/
theorem test_digRdslot_levels : seen (exec (.digRdslot 0 0) { demoPad demoMap with levels := [false] })
      (fun s => (s.slot 0 0, s.wire)) = some (some 1, [.r 4 false]) ∧
    seen (exec (.digRdslot 0 0) { demoPad demoMap with levels := [true] }) (fun s => (s.slot 0 0, s.wire)) =
      some (some 0, [.r 4 true]) := by decide +kernel

/-- G3, and the slot of G4 given as a wider operand (R125). -/
theorem test_digRdslot_unused : seen (exec (.digRdslot 0 7) (demoPad sparseMap)) (fun s => (s.slot 0 7, s.wire)) =
      some (some 0, []) ∧
    refusal (exec (.digRdslot 0 12) (demoPad sparseMap)) = some .slotOutOfRange := by decide +kernel

/-- G5. -/
theorem test_digRdbtn_scenario : seen (exec (.digRdbtn 0) { demoPad demoMap with levels := false :: List.replicate 11 true })
      (fun s => ((List.finRange 12).map fun i => s.slot 0 (digitalSlot i), s.wire)) =
    some (some 1 :: List.replicate 11 (some 0),
      [.r 4 false, .r 17 true, .r 27 true, .r 22 true, .r 10 true, .r 9 true, .r 25 true, .r 24 true, .r 23 true,
       .r 18 true, .r 15 true, .r 14 true]) := by decide +kernel

/-- G6. -/
theorem test_digRdbtn_all_unused : seen (exec (.digRdbtn 1) demo)
      (fun s => ((List.finRange 12).map fun i => s.slot 1 (digitalSlot i), s.wire)) =
    some (List.replicate 12 (some 0), []) := by decide +kernel

/-- G9. -/
theorem test_digPull_mask : seen (exec (.digPull 0) (demoPad sparseMap)) (fun s => (s.wire, s.pins.get 9)) =
    some ([.si 4, .si 17, .si 10, .si 9, .pull 0x20610 .up], { dir := .input, pull := .set .up }) := by decide +kernel

/-- G8 and G10, the mask bits. -/
theorem test_digPull_masks : seen (exec (.digPull 0) (demoPad demoMap)) (·.wire.getLast?) =
      some (some (.pull 0x0BC6C610 .up)) ∧
    seen (exec (.digPull 1) demo) (·.wire) = some [.pull 0 .up] := by decide +kernel

/-! ### NORM -/

/-- H2 and H3. -/
theorem test_normHat_vertical :
    seen (exec (.normHat 0 .vertical) (demoSlots [1, 0, 0, 0, 0, 0, 0, 0, 0, 0, 0, 0, 0, 0, 0, 0])) (·.events[0]) =
      some [.abs .hatY (-1) (-1) 1 0 0] ∧
    seen (exec (.normHat 0 .vertical) (demoSlots [0, 1, 0, 0, 0, 0, 0, 0, 0, 0, 0, 0, 0, 0, 0, 0])) (·.events[0]) =
      some [.abs .hatY 1 (-1) 1 0 0] := by decide +kernel

/-- H5 and H7. -/
theorem test_normHat_horizontal :
    seen (exec (.normHat 0 .horizontal) (demoSlots [0, 0, 1, 0, 0, 0, 0, 0, 0, 0, 0, 0, 0, 0, 0, 0])) (·.events[0]) =
      some [.abs .hatX (-1) (-1) 1 0 0] ∧
    seen (exec (.normHat 0 .horizontal) (demoSlots [0, 0, 1, 1, 0, 0, 0, 0, 0, 0, 0, 0, 0, 0, 0, 0])) (·.events[0]) =
      some [.abs .hatX 0 (-1) 1 0 0] := by decide +kernel

/-- H8. -/
theorem test_normAbs_range :
    seen (exec (.normAbs 1 0) (demoSlots [0, 0, 0, 0, 0, 0, 0, 0, 0, 0, 0, 0, 256, 0, 0, 0])) (·.events[1]) =
      some [.abs .absRY 256 0 1023 4 8] := by decide +kernel

/-- H11: a slot set to 2000 by other means is clamped. -/
theorem test_normAbs_clamp :
    seen (exec (.normAbs 0 2) (demoSlots [0, 0, 0, 0, 0, 0, 0, 0, 0, 0, 0, 0, 0, 0, 2000, 0])) (·.events[0]) =
      some [.abs .absY 1023 0 1023 4 8] := by decide +kernel

/-- H12 and H13. -/
theorem test_normKey_levels :
    seen (exec (.normKey 0 2) (demoSlots [0, 0, 0, 0, 0, 0, 1, 0, 0, 0, 0, 0, 0, 0, 0, 0])) (·.events[0]) =
      some [.key 2 true] ∧
    seen (exec (.normKey 0 3) (demoSlots [0, 0, 0, 0, 0, 0, 1, 0, 0, 0, 0, 0, 0, 0, 0, 0])) (·.events[0]) =
      some [.key 3 false] := by decide +kernel

/-- H14. -/
theorem test_normSync_one_pad : seen (exec (.normSync 1) demo) (fun s => (s.events[0], s.events[1])) = some ([], [.syn]) := by
  decide +kernel

/-- H15. -/
theorem test_normFlush_scenario :
    seen (exec (.normFlush 0) (demoSlots [1, 0, 0, 0, 0, 0, 0, 0, 0, 0, 0, 0, 256, 767, 511, 512])) (·.events[0]) =
      some batchH15 := by decide +kernel

/-- H17. -/
theorem test_normFlush_unwritten : faultOf (exec (.normFlush 0) (demoPad demoMap)) = some (.unwrittenSlot 0 0) := by decide +kernel

/-! ### SCHED, LIFE, SETUP -/

/-- P2's first tick, by one pass (C7v): twelve reads and four exchanges, sixteen slots, fifteen records. -/
theorem test_schedPass_scenario : seen (exec .schedPass { demoPad demoMap with levels := scriptP2 })
      (fun s => (s.wire.length, s.x[0], s.events[0], s.events[1])) =
    some (596, slotRow [1, 0, 0, 0, 0, 0, 0, 0, 0, 0, 0, 0, 256, 767, 511, 512], batchH15, []) := by
  have e : ∀ s : State, s.created = true → s.live 0 = true → exec .schedPass s =
      andThen (andThen (andThen (readAxes 0 (sampleButtons 0 s)) (flushBatch 0)) (runAll [passPad 1]))
        fun t => .next (ret .done t) :=
    fun s h hl => by simp [exec, execSchedPass, whenCreated, h, samplingPass, passPad, hl, samplePad, runAll]
  have r := readAxes_scripted 0 (sampleButtons 0 { demoPad demoMap with levels := scriptP2 }) ⟨0x00, 0x02, 0xFF⟩
    ⟨0x00, 0x02, 0xFF⟩ ⟨0x00, 0x02, 0x00⟩ ⟨0x00, 0x02, 0x00⟩ [] (by decide +kernel) (by decide +kernel)
  rw [e _ (by decide +kernel) (by decide +kernel), r]
  decide +kernel

/-- C6v: Idle, nothing. C7v: Armed with no live pad, re-armed at once (P3). -/
theorem test_schedTick_idle : seen (exec .schedTick demo) (fun s => (s.wire, s.events, s.firingPending)) =
      some ([], #v[[], []], false) ∧
    seen (exec .schedTick { demo with count := 1, armed := .armed }) (fun s => (s.wire, s.firingPending, s.inPass)) =
      some ([], true, false) := by decide +kernel

/-- C1v and C2v. -/
theorem test_lifeAttach_counts : seen (exec (.lifeAttach 0) { demo with interrupts := [false] })
      (fun s => (s.count, s.armed, s.firingPending)) = some (1, .armed, true) ∧
    seen (exec (.lifeAttach 1) { demo with interrupts := [false], count := 1, armed := .armed })
      (fun s => (s.count, s.armed)) = some (2, .armed) := by decide +kernel

/-- C9v. -/
theorem test_lifeAttach_interrupted : seen (exec (.lifeAttach 0) { demo with interrupts := [true] })
      (fun s => (s.count, s.armed, s.results)) = some (0, .idle, [.error .interrupted]) := by decide +kernel

/-- C3v and C4v. -/
theorem test_lifeDetach_counts : seen (exec (.lifeDetach 0) { demo with count := 2, armed := .armed })
      (fun s => (s.count, s.armed)) = some (1, .armed) ∧
    seen (exec (.lifeDetach 0) { demo with count := 1, armed := .armed }) (fun s => (s.count, s.armed, s.firingPending)) =
      some (0, .idle, false) := by decide +kernel

/-- C5v. -/
theorem test_lifeDetach_refused : refusal (exec (.lifeDetach 0) demo) = some .detachWithoutAttach := by decide +kernel

/-- C16v and C17v. -/
theorem test_setupLinkcfg_refused : refusal (exec (.setupLinkcfg 11 12 13 8) demoOff) = some .linkOverrideTwice ∧
    refusal (exec (.setupLinkcfg 11 12 13 8) demo) = some .configAfterCreate := by decide +kernel

/-- R105, the first line of the five programs. -/
theorem test_setupLinkcfg_override : seen (exec (.setupLinkcfg 11 12 13 8) State.powerOn)
      (fun s => (s.linkcfg, s.linkcfgSet, s.wire)) = some (demoLink, true, []) := by decide +kernel

/-- C10v, C11v and C12v; and R128 on a pad that an earlier SETUP.PAD configured: unconfigured, its sink released. -/
theorem test_setupPad_errors :
    seen (exec (.setupPad 0 ⟨.none, [], ""⟩) demoOff) (fun s => (s.results, s.wire)) =
      some ([.error (.invalidPadType 0 .none)], []) ∧
    seen (exec (.setupPad 0 ⟨.custom, demoIds.take 11, ""⟩) demoOff) (fun s => (s.results, s.wire)) =
      some ([.error (.pinMapLength 0 11)], []) ∧
    seen (exec (.setupPad 0 ⟨.custom, demoIds, ""⟩) { demoOff with allocFails := [true] }) (fun s => (s.results, s.wire)) =
      some ([.error (.resourceExhaustion 0)], []) ∧
    seen (andThen (exec (.setupPad 0 ⟨.custom, demoIds, "p0"⟩) demoOff) (exec (.setupPad 0 ⟨.none, [], ""⟩)))
        (fun s => (s.live 0, (s.pad 0).sink, s.sinkLog)) = some (false, none, [.alloc 0, .release 0]) := by decide +kernel

/-- R106 with the scenario map: the trace of G8, the pad live. -/
theorem test_setupPad_installs : seen (exec (.setupPad 0 ⟨.custom, demoIds, "p0"⟩) demoOff)
      (fun s => (s.results, s.wire.length, s.live 0, (s.pad 0).pinMap)) = some ([.done], 13, true, demoMap) := by decide +kernel

/-- The identifiers of a second pad, none of them of the scenario map or of the link. -/
def otherIds : List Int := [5, 6, 7, 16, 19, 20, 21, 26, 2, 3, 1, 0]

/-- C13v: an allocation failure on pad 1 rolls pad 0 back; no link entry. R25 after a destroy and a second create: `EVENTS` is
empty and `WIRE` holds the 11 entries of this create, the earlier ones kept. -/
theorem test_lifeCreate_rollback :
    seen (exec (.lifeCreate [⟨.custom, demoIds, "a"⟩, ⟨.custom, otherIds, "b"⟩]) { demoOff with allocFails := [false, true] })
      (fun s => (s.created, s.live 0, s.wire.length, s.results, s.sinkLog)) =
    some (false, false, 13, [.error (.resourceExhaustion 1)], [.alloc 0, .release 0]) ∧
    seen (andThen (andThen (andThen (exec (.normSync 1) demo) (exec .lifeDestroy)) (exec (.setupLinkcfg 11 12 13 8)))
        (exec (.lifeCreate [])))
      (fun s => (s.events[(1 : PadIx)], s.wire, s.past.events[(1 : PadIx)])) =
    some ([], initTrace demoLink, [.syn]) := ⟨by decide +kernel, by decide +kernel⟩

/-- P2's create: 24 entries; C14v and C15v: refused; and refused by R125 and D29: a map that names a link pin, a pin in two
slots of one map, and a pin in both maps. -/
theorem test_lifeCreate_one_pad :
    seen (exec (.lifeCreate [⟨.custom, demoIds, "p0"⟩]) demoOff) (fun s => (s.created, s.live 0, s.live 1, s.wire.length)) =
      some (true, true, false, 24) ∧
    refusal (exec (.lifeCreate (List.replicate 3 ⟨.custom, demoIds, ""⟩)) demoOff) = some .tooManyPads ∧
    refusal (exec (.lifeCreate []) demo) = some .alreadyCreated ∧
    refusal (exec (.lifeCreate [⟨.custom, [-1, -1, -1, -1, -1, -1, -1, -1, -1, -1, -1, 8], ""⟩]) demoOff) =
      some .pinConflict ∧
    refusal (exec (.lifeCreate [⟨.custom, [4, -1, -1, -1, -1, -1, -1, -1, -1, -1, -1, 4], ""⟩]) demoOff) =
      some .pinConflict ∧
    refusal (exec (.lifeCreate [⟨.custom, demoIds, ""⟩, ⟨.custom, [-1, -1, -1, -1, -1, -1, -1, -1, -1, -1, -1, 14], ""⟩])
      demoOff) = some .pinConflict := by decide +kernel

/-- C18v. -/
theorem test_lifeDestroy_then_attach : refusal (andThen (exec .lifeDestroy (demoPad demoMap)) (exec (.lifeAttach 0))) =
    some .notCreated := by decide +kernel

/-! ### The step and the host's two definitions -/

theorem test_step_runs_fetched_word :
    seen (step (State.withFetchWord { demo with levels := [false] } 16 0x1101)) (fun s => (s.results, s.input)) =
      some ([.bit false], []) := by decide +kernel
theorem test_decodeTableWord : decodeTableWord 16 0x1300 = some (.linkXfer 0 []) ∧
    decodeTableWord 24 0x01B000 = some .adcReqCh3 ∧
    decodeTableWord 16 0x5400 = some (.setupLinkcfg 0 0 0 0) ∧ decodeTableWord 16 0x3010 = some (.digRdslot 1 0) := by decide +kernel

/-! ### The hypotheses of the obligations are met

One theorem per obligation with hypotheses: concrete states and operands that meet them, clause by clause. -/

/-- A step that leaves something to look at answers a next state. -/
theorem next_of_seen {o : Out} (h : seen o (fun _ => true) = some true) : ∃ t, o = .next t := by
  cases o with
  | next t => exact ⟨t, rfl⟩
  | fault f => simp [seen] at h
  | refused r => simp [seen] at h

/-- Pad 0 live on the scenario map, one consumer, Armed. -/
def demoArmed : State := { demoPad demoMap with count := 1, armed := .armed }

/-- The same with a pass at its start. -/
def demoPass : State := fire demoArmed

/-- The state after one instruction, or the state itself where that stops. -/
def afterExec (i : Instr) (s : State) : State :=
  match exec i s with
  | .next t => t
  | .fault _ => s
  | .refused _ => s

theorem slot_demoArmed (p : PadIx) (i : SlotIx) : demoArmed.slot p i = none := by revert p i; decide +kernel

theorem test_demoArmed_inv : demoArmed.Inv where
  pinsCanonical := by decide +kernel
  mutexFree := rfl
  readyWhenCreated := fun _ => rfl
  armedIffCounted := fun _ => by decide +kernel
  quietWhenNotCreated := fun h => absurd h (by decide +kernel)
  passHasPosition := by decide +kernel
  linesAtRest := fun _ => by decide +kernel
  digitalRange := fun p i v h => by simp [slot_demoArmed] at h
  analogRange := fun p c v h => by simp [slot_demoArmed] at h
  mapsValid := fun p i n h => by
    have k : ∀ p (i : Fin 12), (match (demoArmed.pad p).pinMap[i] with
      | .pin n => Nat.ble n 27
      | .unused => true) = true := by decide +kernel
    have := k p i
    rw [h] at this
    have := Nat.le_of_ble_eq_true this
    unfold Config.pinMax
    omega
  linkValid := by
    have h : demoArmed.linkcfg = demoLink := rfl
    rw [h]
    unfold Config.pinMax demoLink
    refine ⟨?_, ?_, ?_, ?_⟩ <;> simp only <;> omega
  sinkWhenLive := by decide +kernel
  passProgress := trivial

theorem test_demoPass_inv : demoPass.Inv := inv_fire demoArmed test_demoArmed_inv rfl

theorem test_hyp_DecodeEncodeRoundTrip : (Instr.adcReq 3).wellFormed = true ∧ (Instr.adcRdch 1 3).wellFormed = true ∧
    (Instr.digRdslot 1 11).wellFormed = true ∧ (Instr.linkXfer 255 [0xFF]).wellFormed = true ∧
    (Instr.lifeCreate [customCfg demoMap "p0"]).wellFormed = true := by decide +kernel

theorem test_hyp_DecodedPacketsAreEncodings : decode (.cmd 0x301B []) = .ok (.digRdslot 1 11) ∧
    decode (.frame 0x01B000) = .ok .adcReqCh3 := ⟨rfl, rfl⟩

theorem test_hyp_DecoderAgreesWithOperationMap :
    (⟨"NORM.KEY", 0x4200, 0xFFF0⟩ : CmdRow) ∈ cmdRows ∧ (⟨"NORM.KEY", 0x4200, 0xFFF0⟩ : CmdRow).hit 0x420F = true ∧
    (∀ r ∈ cmdRows, r.hit 0x4210 = false) ∧ decode (.cmd 0x420F []) = .ok (.normKey 1 7) ∧
    (⟨"DIG.RDSLOT", 0x3000, 0xFFE0⟩ : CmdRow) ∈ cmdRows ∧ (⟨"DIG.RDSLOT", 0x3000, 0xFFE0⟩ : CmdRow).hit 0x300B = true ∧
    (⟨"DIG.RDSLOT", 0x3000, 0xFFE0⟩ : CmdRow).hit 0x300C = true ∧
    decode (.cmd 0x300C []) = .error (.illegalCommand 0x300C) ∧ decode (.cmd 0x300B []) = .ok (.digRdslot 0 11) :=
  ⟨by decide +kernel, by decide +kernel, by decide +kernel, rfl, by decide +kernel, by decide +kernel, by decide +kernel,
    rfl, rfl⟩

theorem test_hyp_StepRunsDecodedInstruction :
    ({ demo with input := [.call (.cmd 0x1000 [])] } : State).input = .call (.cmd 0x1000 []) :: [] ∧
    decode (.cmd 0x1000 []) = .ok .linkInit ∧ decode (.cmd 0x1001 []) = .error (.illegalCommand 0x1001) ∧
    decode (.cmd 0x5400 [.pin 1]) = .error (.operandData 0x5400) ∧
    decode (.frame 0x000000) = .error (.frameNotIssued 0x000000) ∧
    decode (.frame 0x01C000) = .error (.frameChannel 0x01C000) := ⟨rfl, rfl, rfl, rfl, rfl, rfl⟩

theorem test_hyp_NoWorkWhileIdle : demo.armed = .idle ∧ demo.inPass = false ∧ demo.input = [] ∧ demo.created = true ∧
    ({ demo with input := [.turn] } : State).input = .turn :: [] := ⟨rfl, rfl, rfl, rfl, rfl⟩

theorem test_hyp_PendingFiringStartsPass : demoArmed.created = true ∧ demoArmed.armed = .armed ∧ demoArmed.inPass = false ∧
    demoArmed.input = [] ∧ ({ demoArmed with input := [.turn] } : State).input = .turn :: [] := ⟨rfl, rfl, rfl, rfl, rfl⟩

theorem test_hyp_LinkInitSetsUpLines : demo.created = true ∧ demo.pins.wf := by decide +kernel

/-- Met by a script of one level, and by none. -/
theorem test_hyp_LinkBitRunsOneCell : demo.created = true ∧ demo.linkReady = true ∧ demo.levels = [] ∧
    ({ demo with levels := [true] } : State).linkReady = true := ⟨rfl, rfl, rfl, rfl⟩

theorem test_hyp_LinkByteMostSignificantFirst :
    ({ demo with levels := bitsOf [0x80] } : State).created = true ∧
    ({ demo with levels := bitsOf [0x80] } : State).linkReady = true ∧
    8 ≤ ({ demo with levels := bitsOf [0x80] } : State).levels.length := by decide +kernel

/-- No byte, the three bytes of a request, and fewer bytes than are supplied. -/
theorem test_hyp_LinkXferExchangesBytes : demo.created = true ∧ demo.linkReady = true ∧
    (0 : Byte).toNat ≤ ([] : List Byte).length ∧ (3 : Byte).toNat ≤ [0x01#8, 0x80#8, 0x00#8].length ∧
    (1 : Byte).toNat ≤ [0x01#8, 0x80#8].length ∧ 8 * (0 : Byte).toNat ≤ demo.levels.length ∧
    8 * (3 : Byte).toNat ≤ ({ demo with levels := bitsOf [0x00, 0x02, 0xFF] } : State).levels.length := by decide +kernel

/-- The first refused value of each operand, and the last channel select a channel read may name. -/
theorem test_hyp_OperandRefusals : demoOff.linkReady = false ∧ demo.created = true ∧ demo.linkReady = true ∧
    ({ demo with linkReady := false } : State).created = true ∧ ({ demo with linkReady := false } : State).linkReady = false ∧
    (3 : Fin 8).val < 4 ∧
    ([] : List Byte).length < (1 : Byte).toNat ∧ 4 ≤ (4 : Fin 8).val ∧ 12 ≤ (12 : SlotIx).val := by decide +kernel

theorem test_hyp_LinkOperationsKeepLineDiscipline : demo.linkcfg.distinct = true ∧ demo.clk = false ∧ demo.sel = true ∧
    (∃ t, exec .linkInit demo = .next t) ∧ (∃ t, exec (.linkBit true) demo = .next t) ∧
    (∃ t, exec (.linkByte 0x81) demo = .next t) ∧ (∃ t, exec (.linkXfer 0 []) demo = .next t) ∧
    (∃ t, exec (.linkXfer 1 [0x81]) demo = .next t) ∧ (∃ t, exec (.adcRdch 0 3) demo = .next t) ∧
    ∃ t, exec (.adcRdax 1) demo = .next t :=
  ⟨by decide +kernel, rfl, rfl, next_of_seen (by decide +kernel), next_of_seen (by decide +kernel),
    next_of_seen (by decide +kernel), next_of_seen (by decide +kernel), next_of_seen (by decide +kernel),
    next_of_seen (by decide +kernel), next_of_seen (by decide +kernel)⟩

theorem test_hyp_AdcReqBuildsFrame : (0 : Fin 8).val < 4 ∧ (3 : Fin 8).val < 4 ∧ demo.created = true := by decide +kernel

/-- For the four request rows (RequestFrameRowsBuildFrames), AdcDecExtractsTenBits and NormSyncAppendsMarker. -/
theorem test_hyp_created : demo.created = true := rfl

theorem test_hyp_AdcRdchStoresOrientedResult : demo.created = true ∧ demo.linkReady = true ∧
    24 ≤ ({ demo with levels := bitsOf [0x00, 0x02, 0xFF] } : State).levels.length := by decide +kernel

/-- For ADC.RDAX, ReportedValueIsOriented, SCHED.PASS and PassOrderOnWire: with a live pad 0 and an absent pad 1. -/
theorem test_hyp_created_and_ready : (demoPad demoMap).created = true ∧ (demoPad demoMap).linkReady = true ∧
    (demoPad demoMap).live 0 = true ∧ (demoPad demoMap).live 1 = false := by decide +kernel

/-- Two scripts that differ in every one of cells 0 to 13. -/
theorem test_hyp_EarlyCellsDoNotReachSlots : demo.created = true ∧ demo.linkReady = true ∧
    (List.replicate 14 false ++ List.replicate 10 true).length = 24 ∧ (List.replicate 24 true).length = 24 ∧
    (List.replicate 14 false ++ List.replicate 10 true).drop 14 = (List.replicate 24 true).drop 14 := by decide +kernel

theorem test_hyp_StuckDataInIsDeterministic :
    ({ demo with levels := List.replicate 96 false ++ [true] } : State).levels = List.replicate 96 false ++ [true] ∧
    ({ demo with levels := List.replicate 96 true ++ [] } : State).levels = List.replicate 96 true ++ [] ∧
    demo.created = true ∧ demo.linkReady = true := ⟨rfl, rfl, rfl, rfl⟩

/-- A used and an unused entry; also the hypothesis of UnusedSlotsNeverPressed, at a button slot. -/
theorem test_hyp_DigRdslotSamplesOnePin : (demoPad sparseMap).created = true ∧
    ((demoPad sparseMap).pad 0).pinMap[(0 : Fin 12)] = .pin 4 ∧
    ((demoPad sparseMap).pad 0).pinMap[(11 : Fin 12)] = .unused ∧ (11 : Fin 12).val = 4 + (7 : Fin 8).val := by decide +kernel

/-- Twelve used pins with twelve answers, and no used pin with none. -/
theorem test_hyp_DigRdbtnSamplesTwelveSlots : (demoPad demoMap).created = true ∧
    (usedPins ((demoPad demoMap).pad 0).pinMap).length = 12 ∧ (usedPins ((demoPad demoMap).pad 1).pinMap).length = 0 ∧
    12 ≤ ({ demoPad demoMap with levels := List.replicate 12 true } : State).levels.length := by decide +kernel

/-- A used entry's pin and a pin of no entry. -/
theorem test_hyp_DigPullPreparesUsedPins : (demoPad sparseMap).created = true ∧ (demoPad sparseMap).pins.wf ∧
    17 ∈ usedPins ((demoPad sparseMap).pad 0).pinMap ∧ 5 ∉ usedPins ((demoPad sparseMap).pad 0).pinMap := by decide +kernel

/-- Both axes, written. -/
theorem test_hyp_NormHatReportsTernary :
    (demoSlots [1, 0, 0, 1, 0, 0, 0, 0, 0, 0, 0, 0, 0, 0, 0, 0]).created = true ∧
    (demoSlots [1, 0, 0, 1, 0, 0, 0, 0, 0, 0, 0, 0, 0, 0, 0, 0]).slot 0 0 = some 1 ∧
    (demoSlots [1, 0, 0, 1, 0, 0, 0, 0, 0, 0, 0, 0, 0, 0, 0, 0]).slot 0 1 = some 0 ∧
    (demoSlots [1, 0, 0, 1, 0, 0, 0, 0, 0, 0, 0, 0, 0, 0, 0, 0]).slot 0 2 = some 0 ∧
    (demoSlots [1, 0, 0, 1, 0, 0, 0, 0, 0, 0, 0, 0, 0, 0, 0, 0]).slot 0 3 = some 1 := by decide +kernel

/-- The four rows of the truth table. -/
theorem test_hyp_VerticalDirectionTruthTable : ∀ up down : Bool,
    (demoSlots [if up then 1 else 0, if down then 1 else 0]).created = true ∧
    (demoSlots [if up then 1 else 0, if down then 1 else 0]).slot 0 0 = some (if up then 1 else 0) ∧
    (demoSlots [if up then 1 else 0, if down then 1 else 0]).slot 0 1 = some (if down then 1 else 0) := by decide +kernel

/-- Below, at and above the clamp. -/
theorem test_hyp_NormAbsReportsClamped :
    (demoSlots [0, 0, 0, 0, 0, 0, 0, 0, 0, 0, 0, 0, 0, 1023, 1024, 65535]).created = true ∧
    (demoSlots [0, 0, 0, 0, 0, 0, 0, 0, 0, 0, 0, 0, 0, 1023, 1024, 65535]).slot 1 ⟨12 + (0 : Fin 4).val, by decide⟩ = some 0 ∧
    (demoSlots [0, 0, 0, 0, 0, 0, 0, 0, 0, 0, 0, 0, 0, 1023, 1024, 65535]).slot 1 ⟨12 + (1 : Fin 4).val, by decide⟩ = some 1023 ∧
    (demoSlots [0, 0, 0, 0, 0, 0, 0, 0, 0, 0, 0, 0, 0, 1023, 1024, 65535]).slot 1 ⟨12 + (3 : Fin 4).val, by decide⟩ =
      some 65535 := by decide +kernel

/-- The first and the last button. -/
theorem test_hyp_NormKeyReportsLevel :
    (demoSlots [0, 0, 0, 0, 1, 0, 0, 0, 0, 0, 0, 0, 0, 0, 0, 0]).created = true ∧
    (demoSlots [0, 0, 0, 0, 1, 0, 0, 0, 0, 0, 0, 0, 0, 0, 0, 0]).slot 0 ⟨4 + (0 : Fin 8).val, by decide⟩ = some 1 ∧
    (demoSlots [0, 0, 0, 0, 1, 0, 0, 0, 0, 0, 0, 0, 0, 0, 0, 0]).slot 0 ⟨4 + (7 : Fin 8).val, by decide⟩ = some 0 := by
  decide +kernel

/-- Every slot written. -/
theorem test_hyp_NormFlushIssuesBatch : ∀ i : SlotIx,
    (demoSlots [1, 0, 0, 0, 0, 0, 0, 0, 0, 0, 0, 0, 256, 767, 511, 512]).slot 0 i =
      some ([(1 : Sample), 0, 0, 0, 0, 0, 0, 0, 0, 0, 0, 0, 256, 767, 511, 512].getD i.val 0) := by decide +kernel

/-- No slot written: every clause, first and last slot of its range. -/
theorem test_hyp_UnwrittenSlotFaults : demo.created = true ∧ (∀ i, demo.slot 0 i = none) ∧
    demo.slot 1 ⟨12 + (3 : Fin 4).val, by decide⟩ = none ∧ demo.slot 1 ⟨4 + (7 : Fin 8).val, by decide⟩ = none := by
  decide +kernel

theorem test_hyp_TickRunsPassAndRearms : demoArmed.created = true ∧ demoArmed.linkReady = true ∧
    demoArmed.armed = .armed ∧ demoArmed.inPass = false ∧ demoPass.created = true ∧ demoPass.inPass = true :=
  ⟨rfl, rfl, rfl, rfl, rfl, rfl⟩

theorem test_hyp_WalkedPassEqualsTick : demoArmed.created = true ∧ demoArmed.armed = .armed ∧ demoArmed.inPass = false ∧
    demoArmed.seq = .out := ⟨rfl, rfl, rfl, rfl⟩

/-- A state of the invariant in which a pass runs; also the hypotheses of LastDetachDrainsPass and of both clauses of
DestroyReleasesEverything. -/
theorem test_hyp_PassInProgressFinishes : demoPass.Inv ∧ demoPass.inPass = true ∧ demoPass.created = true ∧
    demoPass.count = 1 ∧ demoArmed.created = true ∧ demoArmed.inPass = false :=
  ⟨test_demoPass_inv, rfl, rfl, rfl, rfl, rfl⟩

/-- Mutex free; held with no pass; not interrupted. -/
theorem test_hyp_AttachCountsAndArms : ({ demo with interrupts := [false] } : State).created = true ∧
    ({ demo with interrupts := [false] } : State).mutex = .free ∧
    ({ demo with interrupts := [false] } : State).nextInterrupted = false ∧
    ({ demo with mutex := .held, interrupts := [false] } : State).inPass = false := by decide +kernel

theorem test_hyp_InterruptedAttachChangesNothing : ({ demo with interrupts := [true] } : State).created = true ∧
    ({ demo with interrupts := [true] } : State).nextInterrupted = true ∧
    ({ demo with interrupts := [true], mutex := .held } : State).nextInterrupted = true := by decide +kernel

/-- Counts 0, 1 and 2. -/
theorem test_hyp_DetachCountsAndDisarms : demo.created = true ∧ demo.mutex = .free ∧ demo.count = 0 ∧
    demoArmed.mutex = .free ∧ demoArmed.count = 1 ∧ demoArmed.inPass = false ∧
    2 ≤ ({ demoArmed with count := 2 } : State).count := by decide +kernel

/-- Two nested attaches, and none. -/
theorem test_hyp_NestedAttachesAndDetachesEndIdle : demo.created = true ∧ demo.mutex = .free ∧ demo.inPass = false ∧
    demo.count = 0 ∧ demo.armed = .idle ∧ demo.interrupts = List.replicate 0 false ++ [] ∧
    ({ demo with interrupts := [false, false, true] } : State).interrupts = List.replicate 2 false ++ [true] := by
  decide +kernel

/-- A step of the Idle state, and one of the Armed state. -/
theorem test_hyp_ArmedExactlyWhenCounted : (demo.created = true → (0 < demo.count ↔ demo.armed = .armed)) ∧
    (demoArmed.created = true → (0 < demoArmed.count ↔ demoArmed.armed = .armed)) ∧ step demo = .next demo ∧
    step demoArmed = .next demoPass ∧ demoPass.created = true := by
  refine ⟨by decide +kernel, by decide +kernel, rfl, rfl, rfl⟩

/-- The smallest and the largest pin number sure to be valid; each refused clause, with the nearest identifiers below and
above the valid ones, in the first place and in the last. -/
theorem test_hyp_LinkcfgOverriddenOnce : State.powerOn.created = false ∧ State.powerOn.linkcfgSet = false ∧
    0 ≤ Config.pinMax ∧ 27 ≤ Config.pinMax ∧ demo.created = true ∧ demoOff.created = false ∧ demoOff.linkcfgSet = true ∧
    (∃ n ∈ [(-1 : Int), 12, 13, 8], n < 0 ∨ (Config.pinMax : Int) < n) ∧
    (∃ n ∈ [(11 : Int), 12, 13, Config.pinMax + 1], n < 0 ∨ (Config.pinMax : Int) < n) := by
  refine ⟨rfl, rfl, Nat.zero_le _, Nat.le_add_left _ _, rfl, rfl, rfl, ⟨-1, by simp, .inl (by decide)⟩,
    ⟨Config.pinMax + 1, by simp, .inr (by omega)⟩⟩

/-- A scenario map is installed by its Custom configuration. -/
theorem cfgInstalls_customCfg (m : Vector PinRef 12) (name : String) (h : ∀ n ∈ usedPins m, n ≤ Config.pinMax) :
    cfgInstalls (customCfg m name) .custom m := .inr (.inr ⟨rfl, rfl, rfl, h⟩)

/-- The three types: a Custom map with used and unused entries, and the fixed maps, whatever map is supplied with them. -/
theorem test_hyp_SetupPadInstallsConfiguration : demoOff.created = false ∧ demoOff.nextAllocFails = false ∧
    demoOff.pins.wf ∧ cfgInstalls (customCfg sparseMap "p0") .custom sparseMap ∧
    cfgInstalls ⟨.fixedMapA, [99], ""⟩ .fixedMapA (Config.pinMapA.map PinRef.ofParam) ∧
    cfgInstalls ⟨.fixedMapB, [], ""⟩ .fixedMapB (Config.pinMapB.map PinRef.ofParam) :=
  ⟨rfl, rfl, by decide +kernel, cfgInstalls_customCfg _ _ (by decide +kernel), .inl ⟨rfl, rfl, rfl⟩,
    .inr (.inl ⟨rfl, rfl, rfl⟩)⟩

/-- A Custom map without exactly twelve entries is rejected. -/
theorem cfgRejected_length (p : PadIx) (l : List Int) (name : String) (h : l.length ≠ 12)
    (k : ∀ n ∈ l, -1 ≤ n ∧ n ≤ (27 : Int)) :
    cfgRejected p ⟨.custom, l, name⟩ (.pinMapLength p l.length) :=
  .inr ⟨rfl, h, fun n hn => by have := k n hn; unfold Config.pinMax; omega, rfl⟩

/-- Type "none", an unknown type, eleven entries and thirteen. -/
theorem test_hyp_BadConfigurationIsReported : demoOff.created = false ∧
    cfgRejected 0 ⟨.none, [], ""⟩ (.invalidPadType 0 .none) ∧
    cfgRejected 1 ⟨.unknown 7, [], ""⟩ (.invalidPadType 1 (.unknown 7)) ∧
    cfgRejected 0 ⟨.custom, demoIds.take 11, ""⟩ (.pinMapLength 0 11) ∧
    cfgRejected 1 ⟨.custom, demoIds ++ [-1], ""⟩ (.pinMapLength 1 13) :=
  ⟨rfl, .inl ⟨.inl rfl, rfl⟩, .inl ⟨.inr ⟨7, rfl⟩, rfl⟩, cfgRejected_length _ _ _ (by decide +kernel) (by decide +kernel),
    cfgRejected_length _ _ _ (by decide +kernel) (by decide +kernel)⟩

theorem test_hyp_FailedAllocationIsReported : ({ demoOff with allocFails := [true] } : State).created = false ∧
    ({ demoOff with allocFails := [true] } : State).nextAllocFails = true ∧ demoIds.length = 12 ∧
    (∀ n ∈ demoIds, -1 ≤ n ∧ n ≤ Config.pinMax) ∧ (⟨.fixedMapA, [], ""⟩ : PadCfg).type = .fixedMapA := by
  refine ⟨rfl, rfl, rfl, fun n hn => ?_, rfl⟩
  have h : ∀ n ∈ demoIds, -1 ≤ n ∧ n ≤ (27 : Int) := by decide +kernel
  have := h n hn
  unfold Config.pinMax
  omega

/-- The link pins of the vectors, and 0 and 27 among the four. -/
theorem test_hyp_CreateReachesReset : 11 ≤ Config.pinMax ∧ 12 ≤ Config.pinMax ∧ 13 ≤ Config.pinMax ∧ 8 ≤ Config.pinMax ∧
    demoLink.distinct = true ∧ ({ clk := 0, dout := 27, din := 1, sel := 26 } : LinkPins).distinct = true := by
  refine ⟨?_, ?_, ?_, ?_, rfl, rfl⟩ <;> unfold Config.pinMax <;> omega

/-- A map with none of the scenario map's pins. -/
def otherMap : Vector PinRef 12 :=
  #v[.pin 5, .pin 6, .pin 7, .unused, .unused, .unused, .unused, .unused, .unused, .unused, .unused, .pin 0]

/-- The check of LIFE.CREATE shows that there is no pin conflict. -/
theorem noConflict (cfgs : List PadCfg) (h : cfgs.length ≤ 2) (k : createPinsDiffer demoLink cfgs = true) :
    ¬ pinConflict demoOff.linkPins cfgs := (createPinsDiffer_iff _ cfgs h).mp k

/-- No configuration, one and two; from a state in which an earlier SETUP.PAD left a sink, too. -/
theorem test_hyp_CreateBuildsAcquisitionSet : demoOff.created = false ∧
    ¬ pinConflict demoOff.linkPins [] ∧ ¬ pinConflict demoOff.linkPins [customCfg demoMap "a"] ∧
    ¬ pinConflict demoOff.linkPins [customCfg demoMap "a", customCfg otherMap "b"] ∧
    demoOff.nextAllocFails = false ∧ (drawAlloc demoOff).nextAllocFails = false ∧ demoOff.pins.wf ∧
    (afterExec (.setupPad 0 (customCfg sparseMap "x")) demoOff).created = false ∧
    (afterExec (.setupPad 0 (customCfg sparseMap "x")) demoOff).heldSinks = [.release 0] ∧
    (∀ c ∈ [(customCfg demoMap "a", PadType.custom, demoMap), (customCfg otherMap "b", PadType.custom, otherMap)],
      cfgInstalls c.1 c.2.1 c.2.2) := by
  refine ⟨rfl, noConflict _ (by decide) (by decide +kernel), noConflict _ (by decide) (by decide +kernel),
    noConflict _ (by decide) (by decide +kernel), rfl, rfl, by decide +kernel, by decide +kernel, by decide +kernel,
    fun c hc => ?_⟩
  rcases List.mem_cons.mp hc with rfl | hc
  · exact cfgInstalls_customCfg _ _ (by decide +kernel)
  · rw [List.mem_singleton.mp hc]
    exact cfgInstalls_customCfg _ _ (by decide +kernel)

/-- The identifiers of a scenario map are in range. -/
theorem cfgInRange_demo (l : List Int) (name : String) (k : ∀ n ∈ l, -1 ≤ n ∧ n ≤ (27 : Int)) :
    cfgInRange ⟨.custom, l, name⟩ := fun _ n hn => by have := k n hn; unfold Config.pinMax; omega

/-- P5's two creates, and a failing allocation on each pad. -/
theorem test_hyp_CreateReportsFirstError : demoOff.created = false ∧
    setupFails 0 ⟨.custom, demoIds.take 11, "bad"⟩ demoOff.nextAllocFails (.pinMapLength 0 11) ∧
    cfgInRange ⟨.custom, otherIds, "second"⟩ ∧ ¬ pinConflict demoOff.linkPins [⟨.custom, demoIds.take 11, "bad"⟩] ∧
    ¬ pinConflict demoOff.linkPins [⟨.custom, demoIds.take 11, "bad"⟩, ⟨.custom, otherIds, "second"⟩] ∧
    setupFails 0 (customCfg demoMap "ok") ({ demoOff with allocFails := [true] } : State).nextAllocFails
      (.resourceExhaustion 0) ∧
    ¬ pinConflict demoOff.linkPins [customCfg demoMap "ok"] ∧
    cfgInstalls (customCfg demoMap "ok") .custom demoMap ∧ demoOff.nextAllocFails = false ∧
    setupFails 1 ⟨.custom, otherIds.take 11, "bad"⟩ (drawAlloc demoOff).nextAllocFails (.pinMapLength 1 11) ∧
    ¬ pinConflict demoOff.linkPins [customCfg demoMap "ok", ⟨.custom, otherIds.take 11, "bad"⟩] ∧
    ({ demoOff with allocFails := [false, true] } : State).nextAllocFails = false ∧
    setupFails 1 (customCfg otherMap "ok")
      (drawAlloc { demoOff with allocFails := [false, true] }).nextAllocFails (.resourceExhaustion 1) ∧
    ¬ pinConflict demoOff.linkPins [customCfg demoMap "ok", customCfg otherMap "ok"] := by
  have inst : ∀ m name, (∀ n ∈ usedPins m, n ≤ 27) → cfgInstalls (customCfg m name) .custom m := fun m name h =>
    cfgInstalls_customCfg m name fun n hn => (h n hn).trans (Nat.le_add_left _ _)
  exact ⟨rfl, .inl (cfgRejected_length _ _ _ (by decide +kernel) (by decide +kernel)),
    cfgInRange_demo _ _ (by decide +kernel), noConflict _ (by decide) (by decide +kernel),
    noConflict _ (by decide) (by decide +kernel), .inr ⟨⟨_, _, inst demoMap "ok" (by decide +kernel)⟩, rfl, rfl⟩,
    noConflict _ (by decide) (by decide +kernel), inst demoMap "ok" (by decide +kernel), rfl,
    .inl (cfgRejected_length _ _ _ (by decide +kernel) (by decide +kernel)), noConflict _ (by decide) (by decide +kernel),
    rfl, .inr ⟨⟨_, _, inst otherMap "ok" (by decide +kernel)⟩, rfl, rfl⟩, noConflict _ (by decide) (by decide +kernel)⟩

/-- P5's second create: it answers a next state that ends in an error. -/
theorem test_hyp_FailedCreateLeavesNothingActive : ∃ t,
    exec (.lifeCreate [⟨.custom, demoIds, "ok"⟩, ⟨.custom, otherIds.take 11, "bad"⟩]) demoOff = .next t ∧
    t.results = demoOff.results ++ [.error (.pinMapLength 1 11)] := by
  have h : seen (exec (.lifeCreate [⟨.custom, demoIds, "ok"⟩, ⟨.custom, otherIds.take 11, "bad"⟩]) demoOff) (·.results) =
      some (demoOff.results ++ [.error (.pinMapLength 1 11)]) := by decide +kernel
  obtain ⟨t, e⟩ : ∃ t, exec (.lifeCreate [⟨.custom, demoIds, "ok"⟩, ⟨.custom, otherIds.take 11, "bad"⟩]) demoOff = .next t :=
    next_of_seen (by decide +kernel)
  rw [e] at h
  exact ⟨t, e, Option.some.inj h⟩

/-- Each clause: created; three configurations; an identifier below −1; and each kind of conflict: two equal link pins, the
first pair and the last; a link pin in a map; a pin at the two ends of one map; a pin at the end of each of two maps. -/
theorem test_hyp_CreateRefusals : demo.created = true ∧ demoOff.created = false ∧
    2 < (List.replicate 3 (customCfg demoMap "")).length ∧ (∃ c ∈ [(⟨.custom, [-2], ""⟩ : PadCfg)], ¬ cfgInRange c) ∧
    (if demoOff.linkcfgSet then demoOff.linkcfg else LinkPins.default) = demoLink ∧
    cfgInRange ⟨.custom, [27, -1, 0], ""⟩ ∧ cfgInRange ⟨.custom, [0, 27, 0], ""⟩ ∧ cfgInRange ⟨.custom, [8], ""⟩ ∧
    pinConflict ⟨11, 11, 13, 8⟩ [] ∧ pinConflict ⟨11, 12, 8, 8⟩ [⟨.custom, [27, -1, 0], ""⟩] ∧
    pinConflict demoLink [⟨.custom, [8], ""⟩] ∧ pinConflict demoLink [⟨.custom, [0, 27, 0], ""⟩] ∧
    pinConflict demoLink [⟨.custom, [27, -1, 0], ""⟩, ⟨.custom, [0], ""⟩] := by
  refine ⟨rfl, rfl, by decide +kernel, ⟨_, List.mem_singleton.mpr rfl, fun h => ?_⟩, rfl, cfgInRange_demo _ _ (by decide),
    cfgInRange_demo _ _ (by decide), cfgInRange_demo _ _ (by decide), .inl (.inl rfl),
    .inl (.inr (.inr (.inr (.inr (.inr rfl))))), .inr (.inl ⟨_, List.mem_singleton.mpr rfl, 0, 8, ?_, ?_⟩),
    .inr (.inr (.inl ⟨_, List.mem_singleton.mpr rfl, 0, 2, 0, by decide, ?_, ?_⟩)),
    .inr (.inr (.inr ⟨_, _, rfl, 2, 0, 0, ?_, ?_⟩))⟩
  · exact absurd (h rfl (-2) (List.mem_singleton.mpr rfl)).1 (by decide)
  · exact .inr (.inr ⟨rfl, rfl⟩)
  · exact .inr (.inr (.inr rfl))
  all_goals exact .inr (.inr ⟨rfl, rfl⟩)

theorem test_hyp_NothingRunsBeforeCreate : demoOff.created = false ∧
    (∀ a b c d, Instr.lifeDestroy ≠ .setupLinkcfg a b c d) ∧ (∀ p c, Instr.lifeDestroy ≠ .setupPad p c) ∧
    ∀ c, Instr.lifeDestroy ≠ .lifeCreate c := by
  refine ⟨rfl, ?_, ?_, ?_⟩ <;> intros <;> exact Instr.noConfusion

/-- An operation that runs: also the hypothesis of HistoriesOnlyGrow. -/
theorem test_hyp_ConfigurationIsImmutable : demoArmed.created = true ∧ Instr.schedTick ≠ .lifeDestroy ∧
    Instr.linkInit ≠ .lifeDestroy ∧ ∃ t, exec .linkInit demoArmed = .next t :=
  ⟨rfl, by decide, by decide, next_of_seen (by decide +kernel)⟩

/-- Each of the nine operations on pad 0, pad 1 untouched. -/
theorem test_hyp_PadsAreDisjoint : (1 : PadIx) ≠ 0 ∧ ∀ i ∈ [Instr.adcRdch 0 0, .digRdslot 0 0, .digRdbtn 0,
      .normHat 0 .vertical, .normAbs 0 3, .normKey 0 7, .normSync 0, .normFlush 0],
    ∃ t, exec i (demoSlots [1, 0, 0, 0, 0, 0, 0, 0, 0, 0, 0, 0, 256, 767, 511, 512]) = .next t := by
  refine ⟨by decide, fun i hi => next_of_seen ?_⟩
  revert i
  decide +kernel

/-- A step inside a pass, and one that fires the timer. -/
theorem test_hyp_StepKeepsInvariant : demoArmed.Inv ∧ step demoArmed = .next demoPass ∧ demoPass.Inv ∧
    ∃ t, step demoPass = .next t :=
  ⟨test_demoArmed_inv, rfl, test_demoPass_inv, next_of_seen (by decide +kernel)⟩

end Sys2Proof.Machine
end

section
/-! PROOFS of the statements about the state (10_state.md). What an operation that answers leaves is said once, one case
per form of answer (`Answered`); from that follow the statements about every step: the invariant is kept (R12 to R19), the
count agrees with the arming (R17), the histories only grow (R23). After them: unwritten slots fault (R27), the pass agent
walks the tick (R19, R101), the pads are apart (R11), reset (R25). -/
namespace Sys2Proof.Machine

/-! ### What an operation that answers leaves -/

/-- What a wait for the mutex leaves: the state as it is, or, when it was held, the state in which its holder's drain has
ended, the mutex free (R103, R104). -/
def Waited (s u : State) : Prop := u = s ∨ ∃ v, drain s = .next v ∧ u = unlock v

/-- What `i` leaves when it answers from `s` (R60 to R108), the guards it passed with it. -/
inductive Answered (s : State) : Instr → State → Prop where
  | sampled {i : Instr} {r : Result} {u : State} (created : s.created = true) (sampled : Sampled s u) :
      Answered s i (ret r u)
  | linkInit (created : s.created = true) : Answered s .linkInit (ret .done (initLink s))
  | digPull (p : PadIx) (created : s.created = true) : Answered s (.digPull p) (ret .done (preparePins p s))
  | interrupted (p : PadIx) (created : s.created = true) : Answered s (.lifeAttach p) (attachInterrupted s)
  | attached {u : State} (p : PadIx) (created : s.created = true) (waited : Waited (drawInterrupt s) u) :
      Answered s (.lifeAttach p) (ret .done (countConsumer u))
  | detached {u : State} (p : PadIx) (created : s.created = true) (waited : Waited s u) (others : 2 ≤ u.count) :
      Answered s (.lifeDetach p) (ret .done (withSched (u.count - 1) u.armed .free u))
  | lastDetached {u v : State} (p : PadIx) (created : s.created = true) (waited : Waited s u) (last : u.count = 1)
      (drained : drain (withSched 0 .idle .held u) = .next v) : Answered s (.lifeDetach p) (ret .done (unlock v))
  | linkcfg (clk dout din sel : Int) (notCreated : s.created = false)
      (valid : ∀ n ∈ [clk, dout, din, sel], linkPinValid n = true) :
      Answered s (.setupLinkcfg clk dout din sel) (ret .done { s with
        linkcfg := { clk := clk.toNat, dout := dout.toNat, din := din.toNat, sel := sel.toNat }, linkcfgSet := true })
  | setupPad (p : PadIx) (cfg : PadCfg) (notCreated : s.created = false) (valid : cfgPinsValid cfg = true) :
      Answered s (.setupPad p cfg) (setupResult (setupPadSteps p cfg s))
  | create (cfgs : List PadCfg) (notCreated : s.created = false) (valid : cfgs.all cfgPinsValid = true) :
      Answered s (.lifeCreate cfgs) (createResult s (setupPads cfgs (clearPad 1 (clearPad 0 s))))
  | destroyed {u : State} (created : s.created = true) (drained : drain (setArmed .idle s) = .next u) :
      Answered s .lifeDestroy (ret .done (teardown u))

/-- Waiting for the mutex, when it ends, leaves what `Waited` says (R103, R104). -/
theorem waited_of_awaitMutex {s u : State} (h : awaitMutex s = .next u) : Waited s u := by
  rcases awaitMutex_next s u h with ⟨e, -⟩ | ⟨-, v, hv, e⟩
  · exact .inl e
  · exact .inr ⟨v, hv, e⟩

/-- Every answer of an operation is of one of these forms. -/
theorem exec_answered {i : Instr} {s t : State} (h : exec i s = .next t) : Answered s i t := by
  by_cases hi : samples i = true
  · obtain ⟨hc, r, u, rfl, hu⟩ := exec_samples i s t hi h
    exact .sampled hc hu
  cases i with
  | linkInit =>
    simp only [exec, execLinkInit, whenCreated_eq_next, Host.Outcome.next.injEq] at h
    obtain ⟨hc, rfl⟩ := h
    exact .linkInit hc
  | digPull p =>
    simp only [exec, execDigPull, whenCreated_eq_next, Host.Outcome.next.injEq] at h
    obtain ⟨hc, rfl⟩ := h
    exact .digPull p hc
  | lifeAttach p =>
    obtain ⟨hc, rfl | ⟨u, hu, rfl⟩⟩ := attach_next p s t h
    · exact .interrupted p hc
    · exact .attached p hc hu
  | lifeDetach p =>
    obtain ⟨hc, u, hu, ⟨h2, rfl⟩ | ⟨h1, v, hv, rfl⟩⟩ := detach_next p s t h
    · exact .detached p hc (waited_of_awaitMutex hu) h2
    · exact .lastDetached p hc (waited_of_awaitMutex hu) h1 hv
  | setupLinkcfg clk dout din sel =>
    simp only [exec, execSetupLinkcfg] at h
    split at h
    · simp at h
    split at h
    · simp at h
    split at h
    · rename_i hc _ hv
      obtain rfl := Host.Outcome.next.inj h
      exact .linkcfg clk dout din sel (by simpa using hc) (by simpa [and_assoc] using hv)
    · simp at h
  | setupPad p cfg =>
    simp only [exec, execSetupPad] at h
    split at h
    · simp at h
    split at h
    · rename_i hc hv
      obtain rfl := Host.Outcome.next.inj h
      exact .setupPad p cfg (by simpa using hc) hv
    · simp at h
  | lifeCreate cfgs =>
    obtain ⟨hc, -, hv, -, rfl⟩ := create_next cfgs s t h
    exact .create cfgs hc hv
  | lifeDestroy =>
    obtain ⟨hc, u, hu, rfl⟩ := destroy_next s t h
    exact .destroyed hc hu
  | linkBit _ | linkByte _ | linkXfer _ _ | adcReq _ | adcDec | adcRdch _ _ | adcRdax _ | digRdslot _ _ | digRdbtn _
  | normHat _ _ | normAbs _ _ | normKey _ _ | normSync _ | normFlush _ | schedPass | schedTick | adcReqCh0 | adcReqCh1
  | adcReqCh2 | adcReqCh3 => exact absurd rfl hi

/-- What one step does: the pass agent moves, or an operation runs, the head of the queue taken (R19, R157). -/
theorem step_next {s t : State} (h : step s = .next t) :
    agentTurn (popInput s) = .next t ∨ ∃ i, Answered (popInput s) i t := by
  unfold step at h
  split at h
  · rename_i hq
    have : popInput s = s := by cases s; simp only at hq; simp [popInput, hq]
    exact .inl (by rw [this]; exact h)
  · exact .inl h
  · split at h
    · exact .inr ⟨_, exec_answered h⟩
    · simp at h

/-- What the agent's turn does: a move of the pass, the firing taken, or no work (R101, R126, R135). -/
theorem agentTurn_next {s t : State} (h : agentTurn s = .next t) :
    passMove s = .next t ∨ (s.created = true ∧ t = fire s) ∨ t = s := by
  unfold agentTurn at h
  split at h
  · exact .inl h
  split at h
  · rename_i hf
    exact .inr (.inl ⟨(Bool.and_eq_true _ _ ▸ hf).1, (Host.Outcome.next.inj h).symm⟩)
  · exact .inr (.inr (Host.Outcome.next.inj h).symm)

/-! ### What the setup of pads and the waits leave alone -/

/-- The preparation of a pad's pins leaves what setup leaves, and the pads (R82). -/
theorem setUp_preparePins (p : PadIx) (s : State) :
    SetUp s (preparePins p s) ∧ (preparePins p s).pads = s.pads := by
  obtain ⟨t, rfl, e, hp⟩ := preparePins_spec p s
  refine ⟨⟨?_, ⟨prepareTrace (s.pad p).pinMap, ?_, by simp [prepareTrace]⟩, fun hw => (hp hw).1⟩, ?_⟩ <;> rw [e]

/-- What setup leaves of the histories and the scheduler (R106, R107). -/
theorem SetUp.grew {s t : State} (h : SetUp s t) : Grew s t := by
  obtain ⟨w, hw, -⟩ := h.wire
  exact .of_wire w hw (by rw [h.rest])

/-- What a wait keeps and what it lets grow: it runs the rest of a pass and no more (R39, R104, R147). -/
structure WaitKept (s u : State) : Prop where
  created : u.created = s.created
  count : u.count = s.count
  armed : u.armed = s.armed
  results : u.results = s.results
  past : u.past = s.past
  grew : Grew s u

theorem waitKept_of_drain {s u : State} (h : drain s = .next u) : WaitKept s u :=
  have k := kept_drain s u h
  ⟨k.created, k.count, k.armed, k.results, k.past, grew_drain s u h⟩

theorem Waited.kept {s u : State} (h : Waited s u) : WaitKept s u := by
  rcases h with rfl | ⟨v, hv, rfl⟩
  · exact ⟨rfl, rfl, rfl, rfl, rfl, .refl _⟩
  · obtain ⟨hc, hn, ha, hr, hp, hw, he⟩ := waitKept_of_drain hv
    exact ⟨hc, hn, ha, hr, hp, hw, he⟩

/-! ### The invariant -/

/-- The invariant does not look at data-out, the buffers, the histories, the results and the model's inputs. -/
theorem State.Inv.of_unread {s t : State} (h : s.Inv) (e : t = { s with
    dout := t.dout, linkcfgSet := t.linkcfgSet, tx := t.tx, rx := t.rx, wire := t.wire, events := t.events, past := t.past
    results := t.results, sinkLog := t.sinkLog, input := t.input, levels := t.levels, allocFails := t.allocFails
    interrupts := t.interrupts, drawn := t.drawn }) : t.Inv := by
  rw [e]
  exact ⟨h.pinsCanonical, h.mutexFree, h.readyWhenCreated, h.armedIffCounted, h.quietWhenNotCreated, h.passHasPosition,
    h.linesAtRest, h.digitalRange, h.analogRange, h.mapsValid, h.linkValid, h.sinkWhenLive, h.passProgress⟩

/-- What setup leaves meets the invariant when every pad is one of it (R106, R107). -/
theorem inv_setUp {s t : State} (h : s.Inv) (k : SetUp s t) (hp : ∀ p, (t.pad p).good) : t.Inv := by
  have hw := k.pins h.pinsCanonical
  have hs : ∀ p, t.live p = true ↔ (t.pad p).sink.isSome = true := fun p => by rw [live_iff]; exact (hp p).1
  have hm := fun p => (hp p).2
  rw [k.rest] at hw hs hm ⊢
  exact ⟨hw, h.mutexFree, h.readyWhenCreated, h.armedIffCounted, h.quietWhenNotCreated, h.passHasPosition, h.linesAtRest,
    h.digitalRange, h.analogRange, hm, h.linkValid, hs, h.passProgress⟩

/-- The initialisation of the link keeps the invariant (R60). -/
theorem inv_initLink {s : State} (h : s.Inv) : (initLink s).Inv := by
  rw [initLink_eq]
  exact ⟨wf_initDirs _ _ h.pinsCanonical, h.mutexFree, fun _ => rfl, h.armedIffCounted, h.quietWhenNotCreated,
    h.passHasPosition, fun _ => ⟨rfl, rfl⟩, h.digitalRange, h.analogRange, h.mapsValid, h.linkValid, h.sinkWhenLive,
    h.passProgress⟩

theorem inv_preparePins (p : PadIx) {s : State} (h : s.Inv) : (preparePins p s).Inv := by
  obtain ⟨k, kp⟩ := setUp_preparePins p s
  refine inv_setUp h k fun q => ?_
  rw [pad_congr s _ kp]
  exact pad_good_of_inv s h q

/-- The steps of SETUP.PAD keep the invariant (R106, R128). -/
theorem inv_setupPadSteps (p : PadIx) (c : PadCfg) {s : State} (h : s.Inv) (hc : cfgPinsValid c = true) :
    (setupPadSteps p c s).2.Inv := by
  obtain ⟨k, ko, ke, -⟩ := setupPadSteps_spec p c s
  refine inv_setUp h k fun q => ?_
  by_cases hq : q = p
  · subst hq
    by_cases hn : (setupPadSteps q c s).1 = none
    · exact good_setupPadSteps q c s hc hn
    · rw [ke hn]
      exact Pad.good_of_gone _ ⟨rfl, rfl⟩ (h.mapsValid q)
  · rw [ko q hq]
    exact pad_good_of_inv s h q

/-- The result of setup handed back: done, or the error (R128). -/
theorem setupResult_eq_ret (r : Option Error × State) : ∃ v, setupResult r = ret v r.2 := by
  unfold setupResult
  split
  · exact ⟨_, rfl⟩
  · exact ⟨_, rfl⟩

/-- What a create leaves: the error handed back, or the new set on what its setup left (R107, R128). -/
theorem createResult_cases (before : State) (r : Option Error × State) :
    (∃ e, createResult before r = ret (.error e) r.2) ∨
      createResult before r = ret .created (startHistories before (finishCreate r.2)) := by
  unfold createResult
  split
  · exact .inl ⟨_, rfl⟩
  · exact .inr rfl

/-- The last steps of a create bring the invariant's reset values (R25, R107). -/
theorem inv_finishCreate {s : State} (h : s.Inv) : (finishCreate s).Inv := by
  have none : ∀ p i, (finishCreate s).slot p i = none := fun p i => by
    rw [finishCreate_eq]; exact slot_clearSlots s p i
  have pins : s.linkPins.clk ≤ Config.pinMax ∧ s.linkPins.dout ≤ Config.pinMax ∧ s.linkPins.din ≤ Config.pinMax ∧
      s.linkPins.sel ≤ Config.pinMax := by
    unfold State.linkPins
    split
    · exact h.linkValid
    · exact linkPinsDefault_valid
  have dig : ∀ p (i : Fin 12) v, (finishCreate s).slot p (digitalSlot i) = some v → v = 0 ∨ v = 1 := fun p i v hv => by
    simp [none] at hv
  have ana : ∀ p (c : Fin 4) v, (finishCreate s).slot p (analogSlot c) = some v → v.toNat ≤ 1023 := fun p c v hv => by
    simp [none] at hv
  rw [finishCreate_eq] at dig ana ⊢
  exact ⟨wf_initDirs _ _ h.pinsCanonical, rfl, fun _ => rfl, fun _ => by simp, fun hc => absurd hc (by simp), by simp,
    fun _ => ⟨rfl, rfl⟩, dig, ana, h.mapsValid, pins, h.sinkWhenLive, trivial⟩

theorem inv_createResult (cfgs : List PadCfg) {s : State} (h : s.Inv) (hv : cfgs.all cfgPinsValid = true) :
    (createResult s (setupPads cfgs (clearPad 1 (clearPad 0 s)))).Inv := by
  obtain ⟨k, -, kg⟩ := createPads_spec cfgs s hv
  have hi := inv_setUp h k kg
  rcases createResult_cases s (setupPads cfgs (clearPad 1 (clearPad 0 s))) with ⟨e, he⟩ | he
  · rw [he]; exact ret_inv _ _ hi
  · rw [he]; exact ret_inv _ _ ((inv_finishCreate hi).of_unread rfl)

/-- Waiting for the mutex keeps the invariant (R103, R104). -/
theorem Waited.inv {s u : State} (h : Waited s u) (hi : s.Inv) : u.Inv := by
  rcases h with rfl | ⟨v, hv, rfl⟩
  · exact hi
  · have hd : v.Inv := by
      unfold drain at hv
      split at hv
      · exact inv_passMoves _ _ _ hi hv
      · exact Host.Outcome.next.inj hv ▸ hi
    have : unlock v = v := by rw [unlock, ← hd.mutexFree]
    rwa [this]

/-- A drain from the invariant, whatever the scheduler's registers hold, ends with no pass running (R39, R104). -/
theorem drain_ends {s t : State} (h : s.Inv) (n : Nat) (a : Sched) (m : Mutex)
    (hd : drain (withSched n a m s) = .next t) : t.inPass = false := by
  by_cases hp : (withSched n a m s).inPass = true
  · obtain ⟨u, hu, -, hi, -⟩ := passMoves_finish passLength (withSched n a m s) (h.ready s) h.passProgress
      h.passHasPosition (Position.rank_le _)
    rw [drain_pass _ hp, hu] at hd
    exact Host.Outcome.next.inj hd ▸ hi
  · have hp : (withSched n a m s).inPass = false := by simpa using hp
    rw [drain_idle _ hp] at hd
    exact Host.Outcome.next.inj hd ▸ hp

/-- A drained block torn down meets the invariant (R26, R108). -/
theorem inv_teardown {s : State} (h : (withSched 0 .idle .free s).Inv) (ha : s.armed = .idle) (hm : s.mutex = .free)
    (hp : s.inPass = false) : (teardown s).Inv := by
  obtain ⟨e, hpad, -⟩ := teardown_spec s
  have good : ∀ p, ((teardown s).pad p).good := fun p => by
    rw [hpad]
    split
    · exact Pad.good_of_gone _ ⟨rfl, rfl⟩ (h.mapsValid p)
    · exact pad_good_of_inv _ h p
  have hs : ∀ p, (teardown s).live p = true ↔ ((teardown s).pad p).sink.isSome = true := fun p => by
    rw [live_iff]; exact (good p).1
  have hmap := fun p => (good p).2
  rw [e] at hs hmap ⊢
  exact ⟨h.pinsCanonical, hm, fun hc => absurd hc (by simp), fun hc => absurd hc (by simp), fun _ => ⟨ha, hp⟩,
    h.passHasPosition, fun hc => absurd hc (by simp), h.digitalRange, h.analogRange, hmap, h.linkValid, hs,
    h.passProgress⟩

/-- Every operation that answers keeps the invariant. -/
theorem inv_answered {i : Instr} {s t : State} (h : Answered s i t) (hi : s.Inv) : t.Inv := by
  cases h with
  | sampled _ k => exact ret_inv _ _ (k.inv hi)
  | linkInit => exact ret_inv _ _ (inv_initLink hi)
  | digPull p => exact ret_inv _ _ (inv_preparePins p hi)
  | interrupted => exact ret_inv _ _ (hi.of_unread rfl)
  | @attached u p hc w =>
    have hu : u.Inv := w.inv (hi.of_unread rfl)
    have hcu : u.created = true := w.kept.created.trans hc
    rw [countConsumer_eq]
    refine ret_inv _ _ (inv_withSched u hu hcu _ _ (iff_of_true (Nat.succ_pos _) ?_))
    split
    · rfl
    · exact (hu.armedIffCounted hcu).mp (by omega)
  | @detached u p hc w h2 =>
    have hu := w.inv hi
    have hcu : u.created = true := w.kept.created.trans hc
    have := (hu.armedIffCounted hcu).mp (by omega)
    exact ret_inv _ _ (inv_withSched u hu hcu _ _ (iff_of_true (by omega) this))
  | @lastDetached u v p hc w h1 hd =>
    obtain ⟨-, hn, ha, -⟩ := waitKept_of_drain hd
    have hv := inv_drain_withSched u v 0 .idle .held 0 .idle (w.inv hi) hd (w.kept.created.trans hc) (by simp)
    have : unlock v = withSched 0 .idle .free v := by
      rw [unlock, withSched, ← (show v.count = 0 from hn), ← (show v.armed = .idle from ha)]
    rw [this]
    exact ret_inv _ _ hv
  | linkcfg clk dout din sel _ hv =>
    have le : ∀ n ∈ [clk, dout, din, sel], n.toNat ≤ Config.pinMax := fun n hn => by
      have := (linkPinValid_iff n).mp (hv n hn)
      omega
    exact ret_inv _ _ ⟨hi.pinsCanonical, hi.mutexFree, hi.readyWhenCreated, hi.armedIffCounted, hi.quietWhenNotCreated,
      hi.passHasPosition, hi.linesAtRest, hi.digitalRange, hi.analogRange, hi.mapsValid, by simpa using le,
      hi.sinkWhenLive, hi.passProgress⟩
  | setupPad p cfg _ hv =>
    obtain ⟨r, e⟩ := setupResult_eq_ret (setupPadSteps p cfg s)
    rw [e]
    exact ret_inv _ _ (inv_setupPadSteps p cfg hi hv)
  | create cfgs _ hv => exact inv_createResult cfgs hi hv
  | @destroyed u hc hd =>
    have k := kept_drain _ u hd
    have hu := inv_drain_withSched s u s.count .idle s.mutex 0 .idle hi hd hc (by simp)
    exact ret_inv _ _ (inv_teardown hu k.armed (k.mutex.trans hi.mutexFree) (drain_ends hi s.count .idle s.mutex hd))

/-- The agent's turn keeps the invariant (R19, R101). -/
theorem inv_agentTurn {s t : State} (h : agentTurn s = .next t) (hi : s.Inv) : t.Inv := by
  rcases agentTurn_next h with hm | ⟨hc, rfl⟩ | rfl
  · exact inv_passMove s t hi hm
  · exact inv_fire s hi hc
  · exact hi

/-- Settles O60: the agent's turn keeps the invariant, and so does every form of answer an operation has. -/
theorem stepKeepsInvariant : Obligations.StepKeepsInvariant := by
  unfold Obligations.StepKeepsInvariant
  intro s t hi h
  have hp := inv_popInput s hi
  rcases step_next h with ha | ⟨i, ha⟩
  · exact inv_agentTurn ha hp
  · exact inv_answered ha hp

/-! ### The count and the arming (R17) -/

/-- The count is positive exactly when the timer is armed, where an AcquisitionSet exists (R17). -/
def State.countAgrees (s : State) : Prop := s.created = true → (0 < s.count ↔ s.armed = .armed)

/-- Agreement looks at three fields only. -/
theorem State.countAgrees.of_eq {s t : State} (h : s.countAgrees) (hc : t.created = s.created) (hn : t.count = s.count)
    (ha : t.armed = s.armed) : t.countAgrees := by
  unfold State.countAgrees
  rw [hc, hn, ha]
  exact h

theorem countAgrees_of_not_created {s : State} (h : s.created = false) : s.countAgrees :=
  fun hc => absurd (h.symm.trans hc) (by simp)

/-- Every operation that answers keeps the agreement of count and arming (R17). -/
theorem countAgrees_answered {i : Instr} {s t : State} (h : Answered s i t) (hs : s.countAgrees) : t.countAgrees := by
  have quiet : ∀ r u, SetUp s u → s.created = false → (ret r u).countAgrees := fun r u k hc =>
    countAgrees_of_not_created (by rw [ret_created, k.rest]; exact hc)
  cases h with
  | sampled _ k => exact hs.of_eq k.kept.created k.kept.count k.kept.armed
  | linkInit => rw [initLink_eq]; exact hs
  | digPull p =>
    have e := (setUp_preparePins p s).1.rest
    exact hs.of_eq (by rw [ret_created, e]) (by rw [ret_count, e]) (by rw [ret_armed, e])
  | interrupted => exact hs
  | @attached u p hc w =>
    have hu : u.countAgrees := hs.of_eq w.kept.created w.kept.count w.kept.armed
    rw [countConsumer_eq]
    refine fun hcu => iff_of_true (Nat.succ_pos _) ?_
    simp only [ret_armed]
    split
    · rfl
    · exact (hu hcu).mp (by omega)
  | @detached u p hc w h2 =>
    have hu : u.countAgrees := hs.of_eq w.kept.created w.kept.count w.kept.armed
    have h0 : 0 < u.count - 1 := by omega
    exact fun hcu => iff_of_true h0 ((hu hcu).mp (by omega))
  | @lastDetached u v p hc w h1 hd =>
    obtain ⟨-, hn, ha, -⟩ := waitKept_of_drain hd
    have hn : v.count = 0 := hn
    have ha : v.armed = .idle := ha
    exact fun _ => by simp [hn, ha]
  | linkcfg _ _ _ _ hc => exact countAgrees_of_not_created hc
  | setupPad p cfg hc =>
    obtain ⟨r, e⟩ := setupResult_eq_ret (setupPadSteps p cfg s)
    rw [e]
    exact quiet _ _ (setupPadSteps_spec p cfg s).1 hc
  | create cfgs hc hv =>
    rcases createResult_cases s (setupPads cfgs (clearPad 1 (clearPad 0 s))) with ⟨e, he⟩ | he
    · rw [he]; exact quiet _ _ (createPads_spec cfgs s hv).1 hc
    · rw [he, finishCreate_eq]
      exact fun _ => iff_of_false (Nat.lt_irrefl 0) (by simp [startHistories])
  | destroyed => exact countAgrees_of_not_created rfl

theorem countAgrees_agentTurn {s t : State} (h : agentTurn s = .next t) (hs : s.countAgrees) : t.countAgrees := by
  rcases agentTurn_next h with hm | ⟨-, rfl⟩ | rfl
  · have k := kept_passMove s t hm
    exact hs.of_eq k.created k.count k.armed
  · exact hs
  · exact hs

/-- Settles O43: the agreement holds at reset, and the agent's turn and every form of answer keep it. -/
theorem armedExactlyWhenCounted : Obligations.ArmedExactlyWhenCounted := by
  unfold Obligations.ArmedExactlyWhenCounted
  refine ⟨by decide, fun s t hs h => ?_⟩
  have hp : (popInput s).countAgrees := hs
  rcases step_next h with ha | ⟨i, ha⟩
  · exact countAgrees_agentTurn ha hp
  · exact countAgrees_answered ha hp

/-! ### The histories (R23) -/

/-- An answer's histories: they grow from those of `s`, with one result handed back, or a create starts them anew, what
stood in them moved to `past` (R23, R25). -/
theorem histories_answered {i : Instr} {s t : State} (h : Answered s i t) :
    (∃ r u, t = ret r u ∧ Grew s u ∧ u.past = s.past ∧ u.results = s.results) ∨
      ∃ cfgs u, i = .lifeCreate cfgs ∧ t = ret .created (startHistories s u) ∧ u.results = s.results := by
  have setUp : ∀ r u, SetUp s u →
      ∃ r' u', ret r u = ret r' u' ∧ Grew s u' ∧ u'.past = s.past ∧ u'.results = s.results := fun r u k =>
    ⟨r, u, rfl, k.grew, by rw [k.rest], by rw [k.rest]⟩
  cases h with
  | sampled _ k => exact .inl ⟨_, _, rfl, k.grew, k.kept.past, k.kept.results⟩
  | linkInit =>
    rw [initLink_eq]
    exact .inl ⟨_, _, rfl, .of_wire _ rfl rfl, rfl, rfl⟩
  | digPull p => exact .inl (setUp _ _ (setUp_preparePins p s).1)
  | interrupted => exact .inl ⟨_, _, rfl, .of_wire [] (by simp) rfl, rfl, rfl⟩
  | attached p _ w =>
    rw [countConsumer_eq]
    exact .inl ⟨_, _, rfl, ⟨w.kept.grew.wire, w.kept.grew.events⟩, w.kept.past, w.kept.results⟩
  | detached p _ w => exact .inl ⟨_, _, rfl, ⟨w.kept.grew.wire, w.kept.grew.events⟩, w.kept.past, w.kept.results⟩
  | @lastDetached u v p _ w _ hd =>
    have k := waitKept_of_drain hd
    have g : Grew u v := ⟨k.grew.wire, k.grew.events⟩
    have g := w.kept.grew.trans g
    exact .inl ⟨_, _, rfl, ⟨g.wire, g.events⟩, k.past.trans w.kept.past, k.results.trans w.kept.results⟩
  | linkcfg => exact .inl ⟨_, _, rfl, .of_wire [] (by simp) rfl, rfl, rfl⟩
  | setupPad p cfg =>
    obtain ⟨r, e⟩ := setupResult_eq_ret (setupPadSteps p cfg s)
    rw [e]
    exact .inl (setUp _ _ (setupPadSteps_spec p cfg s).1)
  | create cfgs _ hv =>
    have k := (createPads_spec cfgs s hv).1
    rcases createResult_cases s (setupPads cfgs (clearPad 1 (clearPad 0 s))) with ⟨e, he⟩ | he
    · rw [he]; exact .inl (setUp _ _ k)
    · refine .inr ⟨cfgs, _, rfl, he, ?_⟩
      rw [finishCreate_eq, k.rest]
  | @destroyed u _ hd =>
    have k := waitKept_of_drain hd
    have e := (teardown_spec u).1
    refine .inl ⟨_, _, rfl, ?_, ?_, ?_⟩ <;> rw [e]
    · exact ⟨k.grew.wire, k.grew.events⟩
    · exact k.past
    · exact k.results

/-- Settles O57: an answer's histories grow from those before it, or a create moves those to `past`. -/
theorem historiesOnlyGrow : Obligations.HistoriesOnlyGrow := by
  unfold Obligations.HistoriesOnlyGrow
  intro i s t h
  rcases histories_answered (exec_answered h) with ⟨r, u, rfl, g, hp, hr⟩ | ⟨cfgs, u, rfl, rfl, hr⟩
  · simp only [ret_past, ret_wire, ret_events, ret_results, hp, hr]
    refine ⟨?_, fun p => ?_, fun _ => trivial, r, rfl⟩
    · obtain ⟨w, hw⟩ := g.wire
      exact ⟨w, by rw [hw, List.append_assoc]⟩
    · obtain ⟨e, he⟩ := g.events p
      exact ⟨e, by rw [he, List.append_assoc]⟩
  · refine ⟨⟨_, rfl⟩, fun p => ⟨[], ?_⟩, fun hn => absurd rfl (hn cfgs), .created, by rw [ret_results, ← hr]; rfl⟩
    simp [startHistories]

/-! ### Unwritten slots (R27) -/

/-- The answer `o` of a report that reads the slots `is` of pad `p` in the state `s`: one record appended, every one of
the slots being written, or the fault at a slot that is not (R27). -/
def Reports (p : PadIx) (is : List SlotIx) (s : State) (o : Out) : Prop :=
  (∃ e, o = .next (emit p e s) ∧ ∀ i ∈ is, s.written p i) ∨ ∃ j, s.slot p j = none ∧ o = .fault (.unwrittenSlot p j)

/-- A report that reads a slot nothing has written faults (R27). -/
theorem Reports.fault {p : PadIx} {is : List SlotIx} {s : State} {o : Out} (h : Reports p is s o) {i : SlotIx}
    (hi : i ∈ is) (hn : s.slot p i = none) : ∃ j, s.slot p j = none ∧ o = .fault (.unwrittenSlot p j) := by
  rcases h with ⟨e, -, hw⟩ | h
  · exact absurd (hw i hi) (by simp [State.written, hn])
  · exact h

/-- One slot read and one record made of its value (R91, R92). -/
theorem reports_withSlot (p : PadIx) (i : SlotIx) (s : State) (f : Sample → Event) :
    Reports p [i] s (withSlot p i s fun v => .next (emit p (f v) s)) := by
  cases h : s.slot p i with
  | none => exact .inr ⟨i, h, withSlot_none _ _ _ _ h⟩
  | some v => exact .inl ⟨f v, withSlot_some _ _ _ _ v h, by simp [State.written, h]⟩

theorem reports_hat (p : PadIx) (a : HatAxis) (s : State) :
    Reports p [hatFirst a, hatSecond a] s (reportHat p a s) := by
  unfold reportHat
  cases hu : s.slot p (hatFirst a) with
  | none => exact .inr ⟨_, hu, withSlot_none _ _ _ _ hu⟩
  | some u =>
    rw [withSlot_some _ _ _ _ u hu]
    rcases reports_withSlot p (hatSecond a) s fun v => .abs (hatAxisId a) (ternary u v) (-1) 1 0 0 with ⟨e, he, hw⟩ | h
    · refine .inl ⟨e, he, ?_⟩
      simpa [State.written, hu] using hw
    · exact .inr h

/-- The slots event `k` of a batch reads (R51, R94). -/
def eventSlots (k : Fin 15) : List SlotIx :=
  match k with
  | 0 => [hatFirst .vertical, hatSecond .vertical]
  | 1 => [hatFirst .horizontal, hatSecond .horizontal]
  | 2 => [analogSlot 0]
  | 3 => [analogSlot 1]
  | 4 => [analogSlot 2]
  | 5 => [analogSlot 3]
  | 6 => [buttonSlot 0]
  | 7 => [buttonSlot 1]
  | 8 => [buttonSlot 2]
  | 9 => [buttonSlot 3]
  | 10 => [buttonSlot 4]
  | 11 => [buttonSlot 5]
  | 12 => [buttonSlot 6]
  | 13 => [buttonSlot 7]
  | 14 => []

theorem reports_batchStep (p : PadIx) (k : Fin 15) (s : State) : Reports p (eventSlots k) s (batchStep p k s) := by
  match k with
  | 0 | 1 => exact reports_hat p _ s
  | 2 | 3 | 4 | 5 | 6 | 7 | 8 | 9 | 10 | 11 | 12 | 13 => exact reports_withSlot p _ s _
  | 14 => exact .inl ⟨.syn, rfl, by simp [eventSlots]⟩

/-- Some events of a batch, one of which reads an unwritten slot, end in the fault (R27, R94). -/
theorem runAll_batchStep_fault (p : PadIx) (i : SlotIx) (ks : List (Fin 15)) (s : State)
    (hk : ∃ k ∈ ks, i ∈ eventSlots k) (hn : s.slot p i = none) :
    ∃ j, s.slot p j = none ∧ runAll (ks.map (batchStep p)) s = .fault (.unwrittenSlot p j) := by
  induction ks generalizing s with
  | nil => simp at hk
  | cons k ks ih =>
    rw [List.map_cons, runAll_cons]
    rcases reports_batchStep p k s with ⟨e, he, hw⟩ | ⟨j, hj, he⟩
    · have hi : i ∉ eventSlots k := fun hi => absurd (hw i hi) (by simp [State.written, hn])
      rw [he, andThen_next]
      exact ih (emit p e s) (by simpa [hi] using hk) hn
    · exact ⟨j, hj, by rw [he, andThen_fault]⟩

/-- A batch with a slot unwritten faults (R27, R94). -/
theorem flushBatch_fault (p : PadIx) (i : SlotIx) (s : State) (hn : s.slot p i = none) :
    ∃ j, s.slot p j = none ∧ flushBatch p s = .fault (.unwrittenSlot p j) := by
  have read : ∀ i, ∃ k ∈ [(0 : Fin 15), 1, 2, 3, 4, 5, 6, 7, 8, 9, 10, 11, 12, 13, 14], i ∈ eventSlots k := by decide
  exact runAll_batchStep_fault p i _ s (read i) hn

/-- Settles O32: each report faults at the first unwritten slot it reads, and the batch reads every slot. -/
theorem unwrittenSlotFaults : Obligations.UnwrittenSlotFaults := by
  unfold Obligations.UnwrittenSlotFaults
  intro p s hc
  have ends : ∀ o : Out, (∃ j, s.slot p j = none ∧ o = .fault (.unwrittenSlot p j)) →
      ∃ j, s.slot p j = none ∧ whenCreated s (fun _ => andThen o fun t => .next (ret .done t)) =
        .fault (.unwrittenSlot p j) := by
    rintro _ ⟨j, hj, rfl⟩
    exact ⟨j, hj, whenCreated_of _ _ hc⟩
  refine ⟨fun k hn => ?_, fun k hn => ?_, fun a i ha hn => ?_, fun i hn => ?_⟩
  · rw [exec, execNormAbs, whenCreated_of _ _ hc, reportAbs, analogSlot, withSlot_none _ _ _ _ hn, andThen_fault]
  · rw [exec, execNormKey, whenCreated_of _ _ hc, reportKey, buttonSlot, withSlot_none _ _ _ _ hn, andThen_fault]
  · have hi : i ∈ [hatFirst a, hatSecond a] := by
      rcases ha with ⟨rfl, hi⟩ | ⟨rfl, hi⟩ <;> simpa [hatFirst, hatSecond] using hi
    exact ends _ ((reports_hat p a s).fault hi hn)
  · exact ends _ (flushBatch_fault p i s hn)

/-! ### The pass agent (R19, R21, R101) -/

/-- The walk of a pass from its firing to its end does what the tick does as one step (R19, R101, R147). -/
theorem walk_eq_tick (s : State) (hf : s.firingPending = true) (hq : s.seq = .out) :
    passMoves passLength (fire s) = tick s := by
  obtain ⟨n, hn, hw⟩ := walk_pass (setInPass true s)
  obtain ⟨m, hm⟩ : ∃ m, passLength = n + (m + 1) := ⟨62 - n, by simp only [passLength]; omega⟩
  rw [hm, passMoves_add, fire, hw, tick, if_pos hf, andThen_assoc]
  cases hp : samplingPass (setInPass true s) with
  | next u =>
    have hu : u.seq = .out := (sampled_samplingPass _ u hp).seq.trans hq
    have rearm : passMove (setSeq .rearm u) = .next (setInPass false u) := by
      have : setSeq .out (setInPass false u) = setInPass false u := by rw [setSeq, ← hu]; rfl
      exact congrArg Host.Outcome.next this
    simp only [andThen_next, passMoves, rearm]
    exact passMoves_out m _ hu
  | fault r => rfl
  | refused r => rfl

/-- Settles O36: the walk is the tick. -/
theorem walkedPassEqualsTick : Obligations.WalkedPassEqualsTick := by
  unfold Obligations.WalkedPassEqualsTick
  intro s hc ha hi hq
  have hf : s.firingPending = true := by simp [State.firingPending, ha, hi]
  rw [exec, execSchedTick, whenCreated_of _ _ hc, walk_eq_tick s hf hq]
  rfl

/-- The agent takes the pending firing (R101, R126). -/
theorem agentTurn_fires (s : State) (hc : s.created = true) (ha : s.armed = .armed) (hi : s.inPass = false) :
    agentTurn s = .next (fire s) := by
  simp [agentTurn, State.firingPending, hc, ha, hi]

theorem step_of_empty (s : State) (h : s.input = []) : step s = agentTurn s := by simp only [step, h]

theorem step_of_turn (s : State) (rest : List Input) (h : s.input = .turn :: rest) :
    step s = agentTurn (popInput s) := by simp only [step, h]

/-- Settles O7: the turn takes the firing, from an empty queue or from the turn at its head. -/
theorem pendingFiringStartsPass : Obligations.PendingFiringStartsPass := by
  unfold Obligations.PendingFiringStartsPass
  intro s hc ha hi
  refine ⟨fun hq => (step_of_empty s hq).trans (agentTurn_fires s hc ha hi), fun rest hq => ?_⟩
  have hp : popInput s = { s with input := rest } := by rw [popInput, hq]; rfl
  rw [step_of_turn s rest hq, hp]
  exact agentTurn_fires _ hc ha hi

/-! ### The two pads apart (R11) -/

/-- Nothing of pad `q`'s slots and events changed. -/
structure Untouched (q : PadIx) (s t : State) : Prop where
  slots : ∀ j, t.slot q j = s.slot q j
  events : t.events[q] = s.events[q]

theorem Untouched.refl (q : PadIx) (s : State) : Untouched q s s := ⟨fun _ => rfl, rfl⟩

theorem Untouched.trans {q : PadIx} {s t u : State} (h : Untouched q s t) (k : Untouched q t u) : Untouched q s u :=
  ⟨fun j => (k.slots j).trans (h.slots j), k.events.trans h.events⟩

/-- Steps that each leave pad `q` untouched do so together. -/
theorem untouched_runAll (q : PadIx) (fs : List (State → Out)) (h : ∀ f ∈ fs, ∀ a b, f a = .next b → Untouched q a b)
    (s t : State) (ht : runAll fs s = .next t) : Untouched q s t :=
  runAll_keeps (Untouched q s) fs (fun f hf a b ha hb => ha.trans (h f hf a b hb)) s t (.refl q s) ht

section ApartPads
variable {p q : PadIx}

/-- A slot write of another pad (R11). -/
theorem untouched_of_setSlot (hq : q ≠ p) (i : SlotIx) (v : Sample) {s t : State} (hx : t.x = (setSlot p i v s).x)
    (he : t.events = s.events) : Untouched q s t :=
  ⟨fun j => by rw [slot_congr _ t hx, slot_setSlot, if_neg fun h => hq h.1.symm], by rw [he]⟩

theorem untouched_sampleSlot (hq : q ≠ p) (i : Fin 12) (s : State) : Untouched q s (sampleSlot p i s) := by
  cases hm : (s.pad p).pinMap[i] with
  | unused => rw [sampleSlot_unused p i s hm]; exact untouched_of_setSlot hq _ _ rfl rfl
  | pin n => rw [sampleSlot_pin p i s n hm]; exact untouched_of_setSlot hq _ _ rfl rfl

theorem untouched_sampleButtons (hq : q ≠ p) (s : State) : Untouched q s (sampleButtons p s) := by
  obtain ⟨ds, t, rfl, -, e, -, hf, -⟩ := sampleButtons_spec p s
  exact ⟨fun j => hf q j (.inl hq), by rw [e]⟩

theorem untouched_readChannel (hq : q ≠ p) (c : Fin 4) (s : State) : Untouched q s (readChannel p c s) := by
  obtain ⟨f, e, -⟩ := readChannel_spec p c s
  rw [e]
  exact untouched_of_setSlot hq (analogSlot c) _ rfl rfl

theorem untouched_readChannelChecked (hq : q ≠ p) (c : Fin 4) (s t : State) (h : readChannelChecked p c s = .next t) :
    Untouched q s t := by
  obtain ⟨-, rfl⟩ := readChannelChecked_next p c s t h
  exact untouched_readChannel hq c s

theorem untouched_readAxes (hq : q ≠ p) (s t : State) (h : readAxes p s = .next t) : Untouched q s t := by
  refine untouched_runAll q _ ?_ s t h
  simp only [List.forall_mem_cons, List.not_mem_nil, false_imp_iff, implies_true, and_true]
  exact ⟨untouched_readChannelChecked hq 0, untouched_readChannelChecked hq 1, untouched_readChannelChecked hq 2,
    untouched_readChannelChecked hq 3⟩

theorem untouched_emit (hq : q ≠ p) (e : Event) (s : State) : Untouched q s (emit p e s) :=
  ⟨fun _ => rfl, by rw [events_emit, if_neg hq.symm]⟩

theorem untouched_batchStep (hq : q ≠ p) (k : Fin 15) (s t : State) (h : batchStep p k s = .next t) :
    Untouched q s t := by
  obtain ⟨e, rfl⟩ := batchStep_next p k s t h
  exact untouched_emit hq e s

theorem untouched_flushBatch (hq : q ≠ p) (s t : State) (h : flushBatch p s = .next t) : Untouched q s t := by
  refine untouched_runAll q _ (fun f hf => ?_) s t h
  obtain ⟨k, -, rfl⟩ := List.mem_map.mp hf
  exact untouched_batchStep hq k

/-- A report of another pad. -/
theorem Reports.untouched {is : List SlotIx} {s t : State} {o : Out} (h : Reports p is s o) (hq : q ≠ p)
    (ht : o = .next t) : Untouched q s t := by
  rcases h with ⟨e, rfl, -⟩ | ⟨j, -, rfl⟩
  · exact Host.Outcome.next.inj ht ▸ untouched_emit hq e s
  · simp at ht

theorem Untouched.ret {s t : State} (h : Untouched q s t) (r : Result) : Untouched q s (ret r t) :=
  ⟨h.slots, h.events⟩

end ApartPads

/-- Settles O56: each read writes slots of its own pad only, each report appends to its own pad's events only. -/
theorem padsAreDisjoint : Obligations.PadsAreDisjoint := by
  unfold Obligations.PadsAreDisjoint
  intro i p q s t hq hi h
  suffices Untouched q s t from ⟨this.slots, this.events⟩
  have done : ∀ o : Out, (∀ u, o = .next u → Untouched q s u) → (andThen o fun t => .next (ret .done t)) = .next t →
      Untouched q s t := fun o ho h => by
    obtain ⟨u, hu, ht⟩ := (andThen_eq_next _ _ _).mp h
    exact Host.Outcome.next.inj ht ▸ (ho u hu).ret .done
  rcases hi with ⟨c, rfl⟩ | rfl | ⟨j, rfl⟩ | rfl | ⟨a, rfl⟩ | ⟨k, rfl⟩ | ⟨k, rfl⟩ | rfl | rfl
  · simp only [exec, execAdcRdch, whenCreated_eq_next] at h
    obtain ⟨-, h⟩ := h
    split at h
    · exact done _ (untouched_readChannelChecked hq _ s) h
    · simp at h
  · simp only [exec, execAdcRdax, whenCreated_eq_next] at h
    exact done _ (untouched_readAxes hq s) h.2
  · simp only [exec, execDigRdslot, whenCreated_eq_next] at h
    obtain ⟨-, h⟩ := h
    split at h
    · exact Host.Outcome.next.inj h ▸ (untouched_sampleSlot hq _ s).ret .done
    · simp at h
  · simp only [exec, execDigRdbtn, whenCreated_eq_next] at h
    exact Host.Outcome.next.inj h.2 ▸ (untouched_sampleButtons hq s).ret .done
  · simp only [exec, execNormHat, whenCreated_eq_next] at h
    exact done _ (fun u => (reports_hat p a s).untouched hq) h.2
  · simp only [exec, execNormAbs, whenCreated_eq_next] at h
    exact done _ (fun u => (reports_withSlot p _ s _).untouched hq) h.2
  · simp only [exec, execNormKey, whenCreated_eq_next] at h
    exact done _ (fun u => (reports_withSlot p _ s _).untouched hq) h.2
  · simp only [exec, execNormSync, whenCreated_eq_next] at h
    exact done _ (untouched_batchStep hq 14 s) h.2
  · simp only [exec, execNormFlush, whenCreated_eq_next] at h
    exact done _ (untouched_flushBatch hq s) h.2

/-! ### Reset (R25) -/

theorem slot_reset (p : PadIx) (i : SlotIx) : State.reset.slot p i = none := by
  simp [State.slot, State.reset]

theorem pad_reset (p : PadIx) : State.reset.pad p = Pad.absent := by
  simp [State.pad, State.reset]

theorem live_reset (p : PadIx) : State.reset.live p = false := by
  rw [not_live_iff, pad_reset]
  rfl

/-- Settles O58: the table of R25 read off, the directions by the initialisation's law. -/
theorem resetStateIsTable : Obligations.ResetStateIsTable := by
  unfold Obligations.ResetStateIsTable
  refine ⟨rfl, rfl, rfl, rfl, rfl, rfl, rfl, rfl, rfl, rfl, rfl, rfl, slot_reset, fun p => ⟨?_, live_reset p⟩, ?_⟩
  · simp [State.reset]
  · rintro l rfl
    exact ⟨rfl, get_initDirs _ [] PinTable.wf_nil⟩

/-- Settles O59: no slot is written, no pad is live, the link pins are the default ones. -/
theorem resetMeetsInvariant : Obligations.ResetMeetsInvariant := by
  unfold Obligations.ResetMeetsInvariant
  have good : ∀ p, (State.reset.pad p).good := fun p => by rw [pad_reset]; exact Pad.absent_good
  refine ⟨wf_initDirs _ _ PinTable.wf_nil, rfl, fun _ => rfl, fun _ => by decide, fun h => ?_, by decide,
    fun _ => ⟨rfl, rfl⟩, fun p i v h => ?_, fun p c v h => ?_, fun p => (good p).2, linkPinsDefault_valid,
    fun p => ?_, trivial⟩
  · exact absurd h (by decide)
  · rw [slot_reset] at h; exact absurd h (by simp)
  · rw [slot_reset] at h; exact absurd h (by simp)
  · rw [live_iff]; exact (good p).1

end Sys2Proof.Machine
end

section
/-! PROOFS of the statements about the raw-sample memory (20_memory.md): a pass writes it in a fixed order, pad 0 before
pad 1, reads before exchanges (R37), and a pass in progress cannot fail and comes to its end (R39). Both rest on what the
laws say of a whole pass (`samplingPass_spec`) and of a walk to its end (`passMoves_finish`). -/
namespace Sys2Proof.Machine

/-- SCHED.PASS is the pass with the result handed back (R100). -/
theorem exec_schedPass_of {s t : State} (hc : s.created = true) (h : samplingPass s = .next t) :
    exec .schedPass s = .next (ret .done t) := by
  rw [exec, execSchedPass, whenCreated_of _ _ hc, h, andThen_next]

/-- Settles O34: the result handed back touches neither the wire nor a slot, so the pass's own law is the statement. -/
theorem passOrderOnWire : Obligations.PassOrderOnWire := by
  unfold Obligations.PassOrderOnWire
  intro s hc hr
  obtain ⟨ds, f, _, t, ht, -, -, -, hwire, hlive, -⟩ := samplingPass_spec s hr
  refine ⟨ret .done t, ds, f, exec_schedPass_of hc ht, hwire, fun p hp => ?_⟩
  obtain ⟨hreads, hdigital, hanalog, -, -⟩ := hlive p hp
  exact ⟨hreads, hdigital, hanalog⟩

/-- While a pass runs, the agent's turn is the next move of it (R101, R126). -/
theorem agentTurn_of_inPass {s : State} (h : s.inPass = true) : agentTurn s = passMove s := if_pos h

/-- Settles O37: by the invariant the link is ready and every slot the position has passed is written, so no move of the
walk can stop, and no position is further from the end than `passLength` moves. -/
theorem passInProgressFinishes : Obligations.PassInProgressFinishes := by
  unfold Obligations.PassInProgressFinishes
  intro s hinv hpass
  have hready : s.seq ≠ .out → s.linkReady = true := hinv.ready s
  constructor
  · rw [agentTurn_of_inPass hpass]
    exact passMove_answers s hready hinv.passProgress
  · obtain ⟨t, ht, hout, hended, hkept⟩ :=
      passMoves_finish passLength s hready hinv.passProgress hinv.passHasPosition (Position.rank_le _)
    exact ⟨t, ht, hended, hout, hkept.count, hkept.armed⟩

end Sys2Proof.Machine
end

section
/-! PROOFS of the statements about the encoding (30_encoding.md): what the encoder writes is read back (R53, R57); what is
read is what the encoder writes; the decoder's branches are the rows of the operation map (R54, R55); the cells of a response
before the last ten reach no slot (R47); the step takes its instruction from the decoder (R157). -/
namespace Sys2Proof.Machine

/-! ### What the encoder writes is read back (R53) -/

/-- A command word written as the sum of its fields is read by those fields (R53). -/
theorem decode_cmdPacket {n : Nat} (fam op arg : Nat)
    (hn : n = 4096 * fam + 256 * op + arg ∧ fam < 16 ∧ op < 16 ∧ arg < 256) {data : List Datum} {i : Instr}
    (h : ∀ w, cmdFam w = fam → cmdOp w = op → cmdArg w = arg → decode (.cmd w data) = .ok i) :
    decode (cmdPacket n data) = .ok i := by
  obtain ⟨ef, eo, ea⟩ := fields_ofNat n (by omega)
  exact h _ (by omega) (by omega) (by omega)

/-- The pad's bit above an operand below `k` is read back, and the operand with it (R54). -/
theorem pad_above {k : Nat} [NeZero k] (p : PadIx) {c : Nat} (hc : c < k) :
    p.val * k + c < 2 * k ∧ padOfBit ((p.val * k + c) / k) = p ∧ (p.val * k + c) % k = c := by
  have hp := p.isLt
  obtain ⟨hdiv, hmod⟩ : (p.val * k + c) / k = p.val ∧ (p.val * k + c) % k = c :=
    (Nat.div_mod_unique (Nat.pos_of_neZero k)).mpr ⟨by ring, hc⟩
  exact ⟨by nlinarith, by rw [hdiv, padOfBit, Fin.ofNat_val_eq_self], hmod⟩

/-- Settles O1: by cases on the instruction. A word with no operand, or with a pad or a bit only, is computed; any other is
the sum of its fields, which the decoder takes apart. -/
theorem decodeEncodeRoundTrip : Obligations.DecodeEncodeRoundTrip := by
  unfold Obligations.DecodeEncodeRoundTrip
  intro i hi
  cases i with
  | linkInit | adcDec | schedPass | schedTick | setupLinkcfg _ _ _ _ | lifeDestroy | adcReqCh0 | adcReqCh1 | adcReqCh2
  | adcReqCh3 => rfl
  | adcRdax p | digRdbtn p | digPull p | normSync p | normFlush p | lifeAttach p | lifeDetach p | setupPad p _ =>
    match p with | 0 | 1 => rfl
  | linkBit b => match b with | true | false => rfl
  | normHat p a => match p, a with | 0, .vertical | 0, .horizontal | 1, .vertical | 1, .horizontal => rfl
  | linkByte v =>
    refine decode_cmdPacket 1 2 v.toNat ⟨rfl, by omega, by omega, v.isLt⟩ fun w hf ho ha => ?_
    simp [decode, decodeCmd, decodeLink, plain, hf, ho, ha]
  | linkXfer n tx =>
    refine decode_cmdPacket 1 3 n.toNat ⟨rfl, by omega, by omega, n.isLt⟩ fun w hf ho ha => ?_
    simp [decode, decodeCmd, decodeLink, withData, hf, ho, ha]
  | lifeCreate cfgs =>
    refine decode_cmdPacket 5 6 0 (by omega) fun w hf ho ha => ?_
    simp [decode, decodeCmd, decodeControl, withData, hf, ho, ha]
  | adcReq c =>
    have hc : c.val < 4 := by simpa [Instr.wellFormed] using hi
    refine decode_cmdPacket 2 0 c.val (by omega) fun w hf ho ha => ?_
    simp [decode, decodeCmd, decodeAdc, plain, hf, ho, ha, hc, Nat.mod_eq_of_lt]
  | adcRdch p c =>
    have hc : c.val < 4 := by simpa [Instr.wellFormed] using hi
    obtain ⟨hlt, hpad, hrest⟩ := pad_above p hc
    refine decode_cmdPacket 2 2 (p.val * 4 + c.val) (by omega) fun w hf ho ha => ?_
    simp [decode, decodeCmd, decodeAdc, plain, hf, ho, ha, hlt, hpad, hrest]
  | digRdslot p slot =>
    have hs : slot.val < 12 := by simpa [Instr.wellFormed] using hi
    obtain ⟨hlt, hpad, hrest⟩ := pad_above p slot.isLt
    refine decode_cmdPacket 3 0 (p.val * 16 + slot.val) (by omega) fun w hf ho ha => ?_
    simp [decode, decodeCmd, decodeDig, plain, hf, ho, ha, hlt, hpad, hrest, hs]
  | normAbs p k =>
    obtain ⟨hlt, hpad, hrest⟩ := pad_above p k.isLt
    refine decode_cmdPacket 4 1 (p.val * 4 + k.val) (by omega) fun w hf ho ha => ?_
    simp [decode, decodeCmd, decodeNorm, plain, hf, ho, ha, hlt, hpad, hrest]
  | normKey p k =>
    obtain ⟨hlt, hpad, hrest⟩ := pad_above p k.isLt
    refine decode_cmdPacket 4 2 (p.val * 8 + k.val) (by omega) fun w hf ho ha => ?_
    simp [decode, decodeCmd, decodeNorm, plain, hf, ho, ha, hlt, hpad, hrest]

/-! ### What is read is what was written (R54, R55) -/

/-- The packet of a word written as a number. -/
theorem cmdPacket_of_toNat {w : BitVec 16} {n : Nat} {data : List Datum} (h : w.toNat = n) :
    cmdPacket n data = .cmd w data := by
  rw [cmdPacket, ofNat_of_toNat w n h]

@[simp] theorem padOfBit_val (n : Nat) : (padOfBit n).val = n % 2 := rfl

@[simp] theorem hatBit_hatOfBit (n : Nat) : hatBit (hatOfBit n) = n % 2 := by
  rcases Nat.mod_two_eq_zero_or_one n with h | h <;> simp [hatOfBit, hatBit, h]

/-! Branch by branch of the decoder: the operand data is none or what R57 names, the argument is in the row's range, and the
word is the sum of its fields. -/

section Written
variable {w : BitVec 16} {data : List Datum} {i : Instr}

theorem decodeLink_ok (hf : cmdFam w = 1) (h : decodeLink w data = .ok i) :
    encode i = .cmd w data ∧ i.wellFormed = true := by
  obtain ⟨hw, -, -, hlt⟩ := word_fields w
  have hbyte : (BitVec.ofNat 8 (cmdArg w)).toNat = cmdArg w := Nat.mod_eq_of_lt hlt
  unfold decodeLink at h
  split at h
  case h_1 =>
    obtain ⟨ha, rfl, rfl⟩ := (plain_eq_ok ..).mp h
    rw [beq_iff_eq] at ha
    exact ⟨cmdPacket_of_toNat (by omega), rfl⟩
  case h_2 =>
    obtain ⟨ha, rfl, rfl⟩ := (plain_eq_ok ..).mp h
    rw [decide_eq_true_eq] at ha
    have hbit : (cmdArg w == 1).toNat = cmdArg w := by interval_cases cmdArg w <;> rfl
    exact ⟨cmdPacket_of_toNat (by omega), rfl⟩
  case h_3 =>
    obtain ⟨-, rfl, rfl⟩ := (plain_eq_ok ..).mp h
    exact ⟨cmdPacket_of_toNat (by omega), rfl⟩
  case h_4 =>
    obtain ⟨-, ho⟩ := (withData_eq_ok ..).mp h
    obtain ⟨tx, htx, rfl⟩ := Option.map_eq_some_iff.mp ho
    obtain rfl := bytesOf_some data tx htx
    exact ⟨cmdPacket_of_toNat (by omega), rfl⟩
  case h_5 => simp at h

theorem decodeAdc_ok (hf : cmdFam w = 2) (h : decodeAdc w data = .ok i) :
    encode i = .cmd w data ∧ i.wellFormed = true := by
  obtain ⟨hw, -, -, -⟩ := word_fields w
  unfold decodeAdc at h
  split at h
  case h_5 => simp at h
  all_goals
    obtain ⟨ha, rfl, rfl⟩ := (plain_eq_ok ..).mp h
    simp only [beq_iff_eq, decide_eq_true_eq] at ha
    refine ⟨cmdPacket_of_toNat ?_, ?_⟩
    · simp only [hw, padOfBit_val, Fin.val_ofNat]; omega
    · simp only [Instr.wellFormed, Fin.val_ofNat, decide_eq_true_eq] <;> omega

theorem decodeDig_ok (hf : cmdFam w = 3) (h : decodeDig w data = .ok i) :
    encode i = .cmd w data ∧ i.wellFormed = true := by
  obtain ⟨hw, -, -, -⟩ := word_fields w
  unfold decodeDig at h
  split at h
  case h_4 => simp at h
  all_goals
    obtain ⟨ha, rfl, rfl⟩ := (plain_eq_ok ..).mp h
    simp only [Bool.and_eq_true, decide_eq_true_eq] at ha
    refine ⟨cmdPacket_of_toNat ?_, ?_⟩
    · simp only [hw, padOfBit_val, Fin.val_ofNat]; omega
    · simp only [Instr.wellFormed, Fin.val_ofNat, decide_eq_true_eq] <;> omega

theorem decodeNorm_ok (hf : cmdFam w = 4) (h : decodeNorm w data = .ok i) :
    encode i = .cmd w data ∧ i.wellFormed = true := by
  obtain ⟨hw, -, -, -⟩ := word_fields w
  unfold decodeNorm at h
  split at h
  case h_6 => simp at h
  all_goals
    obtain ⟨ha, rfl, rfl⟩ := (plain_eq_ok ..).mp h
    rw [decide_eq_true_eq] at ha
    refine ⟨cmdPacket_of_toNat ?_, rfl⟩
    simp only [hw, padOfBit_val, hatBit_hatOfBit, Fin.val_ofNat]
    omega

theorem decodeControl_ok (hf : cmdFam w = 5) (h : decodeControl w data = .ok i) :
    encode i = .cmd w data ∧ i.wellFormed = true := by
  obtain ⟨hw, -, -, -⟩ := word_fields w
  unfold decodeControl at h
  split at h
  case h_5 =>
    obtain ⟨ha, ho⟩ := (withData_eq_ok ..).mp h
    obtain ⟨clk, dout, din, sel, rfl, rfl⟩ := linkcfgOf_some _ _ ho
    rw [beq_iff_eq] at ha
    exact ⟨cmdPacket_of_toNat (by omega), rfl⟩
  case h_6 =>
    obtain ⟨ha, ho⟩ := (withData_eq_ok ..).mp h
    obtain ⟨cfg, rfl, rfl⟩ := setupPadOf_some _ _ _ ho
    rw [decide_eq_true_eq] at ha
    exact ⟨cmdPacket_of_toNat (by rw [padOfBit_val]; omega), rfl⟩
  case h_7 =>
    obtain ⟨ha, ho⟩ := (withData_eq_ok ..).mp h
    obtain ⟨cfgs, hc, rfl⟩ := Option.map_eq_some_iff.mp ho
    obtain rfl := cfgsOf_some _ _ hc
    rw [beq_iff_eq] at ha
    exact ⟨cmdPacket_of_toNat (by omega), rfl⟩
  case h_9 => simp at h
  all_goals
    obtain ⟨ha, rfl, rfl⟩ := (plain_eq_ok ..).mp h
    simp only [beq_iff_eq, decide_eq_true_eq] at ha
    refine ⟨cmdPacket_of_toNat ?_, rfl⟩
    simp only [hw, padOfBit_val]
    omega

/-- A command word that is read is the word of what is read, which is well formed (R54, R55). -/
theorem decodeCmd_ok (h : decodeCmd w data = .ok i) : encode i = .cmd w data ∧ i.wellFormed = true := by
  unfold decodeCmd at h
  split at h
  case h_1 hf => exact decodeLink_ok hf h
  case h_2 hf => exact decodeAdc_ok hf h
  case h_3 hf => exact decodeDig_ok hf h
  case h_4 hf => exact decodeNorm_ok hf h
  case h_5 hf => exact decodeControl_ok hf h
  case h_6 => simp at h

/-- A request frame that is read is the frame of what is read (R46). -/
theorem decodeFrame_ok {w : BitVec 24} (h : decodeFrame w = .ok i) : encode i = .frame w ∧ i.wellFormed = true := by
  unfold decodeFrame at h
  split_ifs at h with hw hw hw hw
  all_goals
    obtain rfl := Except.ok.inj h
    exact ⟨congrArg Packet.frame hw.symm, rfl⟩

end Written

/-- Settles O2: by the decoder's branches, a command word being its fields put together. -/
theorem decodedPacketsAreEncodings : Obligations.DecodedPacketsAreEncodings := by
  unfold Obligations.DecodedPacketsAreEncodings
  intro pk i h
  cases pk with
  | cmd w data => exact decodeCmd_ok h
  | frame w => exact decodeFrame_ok h

/-! ### The decoder and the operation map (R54, R55) -/

/-- How many arguments the rows of each family admit, by family and operation (R54). -/
def argBounds : List (List Nat) :=
  [[], [1, 2, 256, 256], [4, 1, 8, 2], [32, 2, 2], [4, 8, 16, 2, 2], [1, 1, 2, 2, 1, 2, 1, 1]]

/-- How many arguments the row of a family and operation admits, 0 where there is no row (R54). -/
def argBound (fam op : Nat) : Nat := (argBounds.getD fam []).getD op 0

/-- The bound of a row's fields is the number of values of its mask's free bits. -/
theorem argBound_row : ∀ x ∈ cmdRows.zip rowFreeBits, argBound (cmdFam x.1.bits) (cmdOp x.1.bits) = 2 ^ x.2 := by decide

/-- Only the fields of a row have a bound. -/
theorem row_of_argBound : ∀ fam < 16, ∀ op < 16, argBound fam op ≠ 0 →
    ∃ x ∈ cmdRows.zip rowFreeBits, fam = cmdFam x.1.bits ∧ op = cmdOp x.1.bits := by decide

/-- A row's free bits lie in the argument field, where its pattern is 0 (R53, R54). -/
theorem cmdRows_argument : ∀ x ∈ cmdRows.zip rowFreeBits, x.2 ≤ 8 ∧ cmdArg x.1.bits = 0 := by decide

/-- No two rows have the same family and operation (R54). -/
theorem cmdRows_apart : ∀ r ∈ cmdRows, ∀ q ∈ cmdRows,
    cmdFam r.bits = cmdFam q.bits → cmdOp r.bits = cmdOp q.bits → r = q := by decide

/-- DIG.RDSLOT is the row of family 3, operation 0 (R54). -/
theorem cmdRows_rdslot : ∀ r ∈ cmdRows, r.mnemonic = "DIG.RDSLOT" ↔ cmdFam r.bits = 3 ∧ cmdOp r.bits = 0 := by decide

/-- A row stands in the map with its free bits. -/
theorem zip_of_mem_cmdRows {r : CmdRow} (hr : r ∈ cmdRows) : ∃ k, (r, k) ∈ cmdRows.zip rowFreeBits := by
  rw [← List.map_fst_zip (l₁ := cmdRows) (l₂ := rowFreeBits) (by decide)] at hr
  obtain ⟨⟨_, k⟩, hx, rfl⟩ := List.mem_map.mp hr
  exact ⟨k, hx⟩

/-- A word hits a row exactly when it has the row's family and operation and its argument fits the free bits (R53, R54). -/
theorem hit_iff_fields {x : CmdRow × Nat} (hx : x ∈ cmdRows.zip rowFreeBits) (w : BitVec 16) :
    x.1.hit w = true ↔ cmdFam w = cmdFam x.1.bits ∧ cmdOp w = cmdOp x.1.bits ∧ cmdArg w < 2 ^ x.2 := by
  obtain ⟨hk, hb⟩ := cmdRows_argument x hx
  obtain ⟨hw, -, ho, ha⟩ := word_fields w
  obtain ⟨hv, -, ho', -⟩ := word_fields x.1.bits
  rw [hit_row_iff x hx, hw, hv, hb]
  generalize x.2 = k at *
  interval_cases k <;> omega

/-- A word that hits a row has its family and operation (R53, R54). -/
theorem fields_of_hit {r : CmdRow} {w : BitVec 16} (hr : r ∈ cmdRows) (h : r.hit w = true) :
    cmdFam w = cmdFam r.bits ∧ cmdOp w = cmdOp r.bits := by
  obtain ⟨k, hx⟩ := zip_of_mem_cmdRows hr
  obtain ⟨hf, ho, -⟩ := (hit_iff_fields hx w).mp h
  exact ⟨hf, ho⟩

/-- No word matches two rows (R54). -/
theorem row_unique {w : BitVec 16} {r q : CmdRow} (hr : r ∈ cmdRows) (hq : q ∈ cmdRows) (hrw : r.hit w = true)
    (hqw : q.hit w = true) : r = q := by
  obtain ⟨hrf, hro⟩ := fields_of_hit hr hrw
  obtain ⟨hqf, hqo⟩ := fields_of_hit hq hqw
  exact cmdRows_apart r hr q hq (hrf.symm.trans hqf) (hro.symm.trans hqo)

/-- A word hits no row exactly when no row admits its argument (R54). -/
theorem noRow_iff (w : BitVec 16) :
    (∀ r ∈ cmdRows, r.hit w = false) ↔ argBound (cmdFam w) (cmdOp w) ≤ cmdArg w := by
  obtain ⟨-, hf, ho, -⟩ := word_fields w
  constructor
  · intro h
    by_contra hlt
    obtain ⟨x, hx, hxf, hxo⟩ := row_of_argBound _ hf _ ho (by omega)
    have hit : x.1.hit w = true :=
      (hit_iff_fields hx w).mpr ⟨hxf, hxo, by rw [← argBound_row x hx, ← hxf, ← hxo]; omega⟩
    exact Bool.eq_false_iff.mp (h _ (List.of_mem_zip hx).1) hit
  · intro h r hr
    refine Bool.eq_false_iff.mpr fun hw => ?_
    obtain ⟨k, hx⟩ := zip_of_mem_cmdRows hr
    obtain ⟨hrf, hro, hra⟩ := (hit_iff_fields hx w).mp hw
    rw [hrf, hro, argBound_row _ hx] at h
    omega

section Illegal
variable {w : BitVec 16} (data : List Datum)

theorem decodeLink_illegal_iff :
    decodeLink w data = .error (.illegalCommand w) ↔ argBound 1 (cmdOp w) ≤ cmdArg w := by
  obtain ⟨-, -, -, hlt⟩ := word_fields w
  unfold decodeLink
  split
  case h_5 =>
    have hop : 4 ≤ cmdOp w := by simp only [imp_false] at *; omega
    simp [argBound, argBounds, hop]
  all_goals
    simp only [*, argBound, argBounds, List.getD_cons_zero, List.getD_cons_succ,
      plain_eq_illegal, withData_eq_illegal, beq_eq_false_iff_ne, decide_eq_false_iff_not, Bool.true_eq_false, false_iff]
    omega

theorem decodeAdc_illegal_iff :
    decodeAdc w data = .error (.illegalCommand w) ↔ argBound 2 (cmdOp w) ≤ cmdArg w := by
  unfold decodeAdc
  split
  case h_5 =>
    have hop : 4 ≤ cmdOp w := by simp only [imp_false] at *; omega
    simp [argBound, argBounds, hop]
  all_goals
    simp only [*, argBound, argBounds, List.getD_cons_zero, List.getD_cons_succ,
      plain_eq_illegal, beq_eq_false_iff_ne, decide_eq_false_iff_not]
    omega

/-- The one family in which a word of a row can be illegal: slots 12 to 15 of DIG.RDSLOT (R55). -/
theorem decodeDig_illegal_iff : decodeDig w data = .error (.illegalCommand w) ↔
    argBound 3 (cmdOp w) ≤ cmdArg w ∨ cmdOp w = 0 ∧ 12 ≤ cmdArg w % 16 := by
  unfold decodeDig
  split
  case h_4 =>
    have hop : 3 ≤ cmdOp w := by simp only [imp_false] at *; omega
    simp [argBound, argBounds, hop]
  all_goals
    simp only [*, argBound, argBounds, List.getD_cons_zero, List.getD_cons_succ,
      plain_eq_illegal, Bool.and_eq_false_iff, decide_eq_false_iff_not, true_and]
    omega

theorem decodeNorm_illegal_iff :
    decodeNorm w data = .error (.illegalCommand w) ↔ argBound 4 (cmdOp w) ≤ cmdArg w := by
  unfold decodeNorm
  split
  case h_6 =>
    have hop : 5 ≤ cmdOp w := by simp only [imp_false] at *; omega
    simp [argBound, argBounds, hop]
  all_goals
    simp only [*, argBound, argBounds, List.getD_cons_zero, List.getD_cons_succ,
      plain_eq_illegal, decide_eq_false_iff_not]
    omega

theorem decodeControl_illegal_iff :
    decodeControl w data = .error (.illegalCommand w) ↔ argBound 5 (cmdOp w) ≤ cmdArg w := by
  unfold decodeControl
  split
  case h_9 =>
    have hop : 8 ≤ cmdOp w := by simp only [imp_false] at *; omega
    simp [argBound, argBounds, hop]
  all_goals
    simp only [*, argBound, argBounds, List.getD_cons_zero, List.getD_cons_succ,
      plain_eq_illegal, withData_eq_illegal, beq_eq_false_iff_ne, decide_eq_false_iff_not]
    omega

/-- A command word is illegal exactly when it hits no row of the map or is DIG.RDSLOT of a slot above 11 (R54, R55). -/
theorem decodeCmd_illegal_iff : decodeCmd w data = .error (.illegalCommand w) ↔
    (∀ r ∈ cmdRows, r.hit w = false) ∨ cmdFam w = 3 ∧ cmdOp w = 0 ∧ 12 ≤ cmdArg w % 16 := by
  rw [noRow_iff]
  unfold decodeCmd
  split
  case h_1 hf => simp [decodeLink_illegal_iff, hf]
  case h_2 hf => simp [decodeAdc_illegal_iff, hf]
  case h_3 hf => simp [decodeDig_illegal_iff, hf]
  case h_4 hf => simp [decodeNorm_illegal_iff, hf]
  case h_5 hf => simp [decodeControl_illegal_iff, hf]
  case h_6 =>
    obtain ⟨hthree, hf | hf⟩ : cmdFam w ≠ 3 ∧ (cmdFam w = 0 ∨ 6 ≤ cmdFam w) := by
      simp only [imp_false] at *; omega
    · simp [argBound, argBounds, hf]
    · simp [argBound, argBounds, hf, hthree]

end Illegal

/-- The word of every well-formed instruction matches the row of its mnemonic (R54), a request frame its pattern (R46). -/
theorem matchesRow : ∀ i : Instr, Laws.MatchesRow.Statement i
  | .linkInit => Laws.MatchesRow.linkInit
  | .linkBit b => Laws.MatchesRow.linkBit b
  | .linkByte v => Laws.MatchesRow.linkByte v
  | .linkXfer n tx => Laws.MatchesRow.linkXfer n tx
  | .adcReq c => Laws.MatchesRow.adcReq c
  | .adcDec => Laws.MatchesRow.adcDec
  | .adcRdch p c => Laws.MatchesRow.adcRdch p c
  | .adcRdax p => Laws.MatchesRow.adcRdax p
  | .digRdslot p slot => Laws.MatchesRow.digRdslot p slot
  | .digRdbtn p => Laws.MatchesRow.digRdbtn p
  | .digPull p => Laws.MatchesRow.digPull p
  | .normHat p a => Laws.MatchesRow.normHat p a
  | .normAbs p k => Laws.MatchesRow.normAbs p k
  | .normKey p k => Laws.MatchesRow.normKey p k
  | .normSync p => Laws.MatchesRow.normSync p
  | .normFlush p => Laws.MatchesRow.normFlush p
  | .schedPass => Laws.MatchesRow.schedPass
  | .schedTick => Laws.MatchesRow.schedTick
  | .lifeAttach p => Laws.MatchesRow.lifeAttach p
  | .lifeDetach p => Laws.MatchesRow.lifeDetach p
  | .setupLinkcfg clk dout din sel => Laws.MatchesRow.setupLinkcfg clk dout din sel
  | .setupPad p cfg => Laws.MatchesRow.setupPad p cfg
  | .lifeCreate cfgs => Laws.MatchesRow.lifeCreate cfgs
  | .lifeDestroy => Laws.MatchesRow.lifeDestroy
  | .adcReqCh0 => Laws.MatchesRow.adcReqCh0
  | .adcReqCh1 => Laws.MatchesRow.adcReqCh1
  | .adcReqCh2 => Laws.MatchesRow.adcReqCh2
  | .adcReqCh3 => Laws.MatchesRow.adcReqCh3

/-- Settles O3: rows have different fields; what is read is an encoding, whose word matches its own row; and the decoder
calls a word of a row illegal only for the slots above 11. -/
theorem decoderAgreesWithOperationMap : Obligations.DecoderAgreesWithOperationMap := by
  unfold Obligations.DecoderAgreesWithOperationMap
  refine ⟨fun w r q hr hq => row_unique hr hq, fun w data => ⟨fun h => ?_, fun i h => ?_, fun r hr hw => ?_⟩⟩
  · exact (decodeCmd_illegal_iff data).mpr (.inl h)
  · obtain ⟨henc, hwf⟩ := decodeCmd_ok h
    have hrow := matchesRow i hwf
    rw [henc] at hrow
    obtain ⟨r, hr, hm, hw⟩ := hrow
    exact ⟨r, hr, hw, hm⟩
  · obtain ⟨hf, ho⟩ := fields_of_hit hr hw
    have hrow : ¬ ∀ q ∈ cmdRows, q.hit w = false := fun h => Bool.eq_false_iff.mp (h r hr) hw
    have harg : cmdArg w % 16 = w.toNat % 16 := by simp only [cmdArg]; omega
    rw [decode, decodeCmd_illegal_iff, or_iff_right hrow, cmdRows_rdslot r hr, ← hf, ← ho, harg, and_assoc]

/-! ### The cells of a response (R47) -/

/-- ADC.RDCH on a ready link is the channel read with the result handed back (R72). -/
theorem exec_adcRdch_of (p : PadIx) (c : Fin 4) {s : State} (hc : s.created = true) (hr : s.linkReady = true) :
    exec (.adcRdch p (c.castLE (by omega))) s = .next (ret .done (readChannel p c s)) := by
  rw [exec, execAdcRdch, whenCreated_of _ _ hc, dif_pos (by simp)]
  exact congrArg (andThen · _) (readChannelChecked_of p c s hr)

/-- The last ten bits of a response are the two low bits of its second byte and its third byte (R47). -/
theorem drop_bits (f : Frame) :
    (f.bytes.flatMap byteBits).drop 14 = f.b1.getLsbD 1 :: f.b1.getLsbD 0 :: byteBits f.b2 := rfl

theorem byteBits_inj {v w : Byte} (h : byteBits v = byteBits w) : v = w := by
  rw [← packByte_byteBits v, h, packByte_byteBits]

/-- The two low bits of a byte as a number. -/
theorem toNat_mod_four (v : Byte) : v.toNat % 4 = 2 * (v.getLsbD 1).toNat + (v.getLsbD 0).toNat := by
  revert v; decide +kernel

/-- Responses that agree from cell 14 on carry the same value (R47, R71). -/
theorem channelValue_congr (c : Fin 4) {f g : Frame}
    (h : (f.bytes.flatMap byteBits).drop 14 = (g.bytes.flatMap byteBits).drop 14) :
    channelValue c f = channelValue c g := by
  simp only [drop_bits, List.cons.injEq] at h
  obtain ⟨h1, h0, h2⟩ := h
  simp only [channelValue, toNat_mod_four, h1, h0, byteBits_inj h2]

/-- A channel read of 24 given levels stores the value of the response they are (R47, R72). -/
theorem readChannel_levels (p : PadIx) (c : Fin 4) (s : State) {a : List Bool} (ha : a.length = 24) :
    ∃ f : Frame, f.bytes.flatMap byteBits = a ∧
      (readChannel p c { s with levels := a }).x =
        (setSlot p (analogSlot c) (BitVec.ofNat 16 (channelValue c f)) s).x ∧
      (readChannel p c { s with levels := a }).events = s.events := by
  obtain ⟨f, e, hf⟩ := readChannel_spec p c { s with levels := a }
  refine ⟨f, ?_, ?_, ?_⟩
  · rw [hf ha.ge, ← ha, List.take_length]
  · rw [e]; rfl
  · rw [e]; rfl

/-- Settles O19: both reads complete, and the two responses agree in the ten bits the stored value is made of. -/
theorem earlyCellsDoNotReachSlots : Obligations.EarlyCellsDoNotReachSlots := by
  unfold Obligations.EarlyCellsDoNotReachSlots
  intro p c s a b hc hr ha hb hab
  obtain ⟨f, hf, hfx, hfe⟩ := readChannel_levels p c s ha
  obtain ⟨g, hg, hgx, hge⟩ := readChannel_levels p c s hb
  have hv : channelValue c f = channelValue c g := channelValue_congr c (by rw [hf, hg, hab])
  have run : ∀ l, exec (.adcRdch p (c.castLE (by omega))) { s with levels := l } =
      .next (ret .done (readChannel p c { s with levels := l })) := fun l => exec_adcRdch_of p c hc hr
  refine ⟨_, _, run a, run b, ?_, ?_⟩
  · rw [ret_x, ret_x, hfx, hgx, hv]
  · rw [ret_events, ret_events, hfe, hge]

/-! ### The words of the tables, and the step (R46, R54, R157) -/

/-- Settles O4: the decoder computes each word. -/
theorem specWordsDecode : Obligations.SpecWordsDecode := by
  unfold Obligations.SpecWordsDecode
  exact ⟨rfl, rfl, rfl, rfl, rfl, rfl, rfl, rfl, rfl, rfl, rfl, rfl⟩

/-- A call that the decoder reads is taken off the queue and executed (R157). -/
theorem step_of_ok {s : State} {pk : Packet} {rest : List Input} {i : Instr} (h : s.input = .call pk :: rest)
    (hd : decode pk = .ok i) : step s = exec i { s with input := rest } := by
  simp only [step, h, hd, popInput, List.tail_cons]

/-- A call that the decoder rejects ends the run, by the name of the rejection (R55, R125). -/
theorem step_of_error {s : State} {pk : Packet} {rest : List Input} {r : Reject} (h : s.input = .call pk :: rest)
    (hd : decode pk = .error r) : step s = .refused (refusalOf r) := by
  simp only [step, h, hd]

/-- Settles O5: an accepted packet is the one case, the four rejections the other. -/
theorem stepRunsDecodedInstruction : Obligations.StepRunsDecodedInstruction := by
  unfold Obligations.StepRunsDecodedInstruction
  intro s pk rest hq
  exact ⟨fun _ => step_of_ok hq, fun _ => step_of_error hq, fun _ => step_of_error hq, fun _ => step_of_error hq,
    fun _ => step_of_error hq⟩

/-- Settles O15: each row builds the request of its channel, whose bytes are computed. -/
theorem requestFrameRowsBuildFrames : Obligations.RequestFrameRowsBuildFrames := by
  unfold Obligations.RequestFrameRowsBuildFrames
  intro s hc
  refine ⟨?_, ?_, ?_, ?_⟩
  · rw [exec, execAdcReqCh0, whenCreated_of _ _ hc]; rfl
  · rw [exec, execAdcReqCh1, whenCreated_of _ _ hc]; rfl
  · rw [exec, execAdcReqCh2, whenCreated_of _ _ hc]; rfl
  · rw [exec, execAdcReqCh3, whenCreated_of _ _ hc]; rfl

end Sys2Proof.Machine
end

section
/-! PROOFS of the statements about the serial link (40_serial_link.md). When each operation of the link answers, and with what,
is said once (R60 to R63); the laws of the cell, the byte and the transfer then give the statements of the operations, and the
laws of their traces the line discipline (R64), with the channel reads, which are made of transfers (R72, R73). After them: the
refusals by operands (R63, R72, R125). -/
namespace Sys2Proof.Machine

variable {s t : State}

/-! ### When an operation of the link answers, and with what -/

theorem exec_linkInit_eq_next : exec .linkInit s = .next t ↔ s.created = true ∧ ret .done (initLink s) = t := by
  simp only [exec, execLinkInit, whenCreated_eq_next, Host.Outcome.next.injEq]

theorem exec_linkBit_eq_next {b : Bool} : exec (.linkBit b) s = .next t ↔
    s.linkReady = true ∧ s.created = true ∧ ret (.bit (bitCell b s).1) (bitCell b s).2 = t := by
  simp only [exec, execLinkBit, whenLinkReady_eq_next, whenCreated_eq_next, Host.Outcome.next.injEq]

theorem exec_linkByte_eq_next {v : Byte} : exec (.linkByte v) s = .next t ↔
    s.linkReady = true ∧ s.created = true ∧ ret (.byte (byteCells v s).1) (byteCells v s).2 = t := by
  simp only [exec, execLinkByte, whenLinkReady_eq_next, whenCreated_eq_next, Host.Outcome.next.injEq]

theorem exec_linkXfer_eq_next {n : Byte} {tx : List Byte} : exec (.linkXfer n tx) s = .next t ↔
    s.linkReady = true ∧ s.created = true ∧ n.toNat ≤ tx.length ∧
      ret (.bytes (transfer (tx.take n.toNat) s).1) (transfer (tx.take n.toNat) s).2 = t := by
  simp only [exec, execLinkXfer, whenLinkReady_eq_next, whenCreated_eq_next]
  by_cases h : tx.length < n.toNat
  · simp only [if_pos h, reduceCtorEq, Nat.not_le.mpr h, false_and, and_false]
  · simp only [if_neg h, Host.Outcome.next.injEq, Nat.not_lt.mp h, true_and]

/-- A channel read that answers is the read of one of the four channels, with the result handed back (R72). -/
theorem exec_adcRdch_next {p : PadIx} {c : Fin 8} (h : exec (.adcRdch p c) s = .next t) :
    ∃ k : Fin 4, ret .done (readChannel p k s) = t := by
  simp only [exec, execAdcRdch, whenCreated_eq_next] at h
  obtain ⟨-, h⟩ := h
  split at h
  case isTrue hlt =>
    obtain ⟨u, hu, hret⟩ := (andThen_eq_next _ _ _).mp h
    obtain ⟨-, rfl⟩ := readChannelChecked_next _ _ _ _ hu
    exact ⟨⟨c.val, hlt⟩, Host.Outcome.next.inj hret⟩
  case isFalse => cases h

/-- A read of the four channels that answers found the link ready, and hands its result back (R63, R73). -/
theorem exec_adcRdax_next {p : PadIx} (h : exec (.adcRdax p) s = .next t) :
    s.linkReady = true ∧ ∃ u, readAxes p s = .next u ∧ ret .done u = t := by
  simp only [exec, execAdcRdax, whenCreated_eq_next, andThen_eq_next, Host.Outcome.next.injEq] at h
  obtain ⟨-, u, hu, hret⟩ := h
  refine ⟨?_, u, hu, hret⟩
  by_contra hr
  rw [readAxes_not_ready p s (Bool.eq_false_iff.mpr hr)] at hu
  cases hu

/-! ### What the operations of the link do (R60 to R63) -/

/-- Settles O8: the initialisation's own law, and what the four settings of a direction leave in each pin. -/
theorem linkInitSetsUpLines : Obligations.LinkInitSetsUpLines := by
  unfold Obligations.LinkInitSetsUpLines
  intro s hc
  refine ⟨_, exec_linkInit_eq_next.mpr ⟨hc, rfl⟩, ?_, fun hwf n => ?_⟩
  · rw [initLink_eq]; rfl
  · rw [initLink_eq]; exact get_initDirs s.linkcfg s.pins hwf n

/-- Settles O9: the law of one bit cell, with the sample handed back. -/
theorem linkBitRunsOneCell : Obligations.LinkBitRunsOneCell := by
  unfold Obligations.LinkBitRunsOneCell
  intro b s hc hr
  refine exec_linkBit_eq_next.mpr ⟨hr, hc, ?_⟩
  rw [bitCell_eq]; rfl

/-- The order in which a byte's bits go over the link, by index: bit 7 first (R33, R62). -/
theorem byteBits_eq_range (v : Byte) : byteBits v = (List.range 8).map fun j => v.getLsbD (7 - j) := rfl

/-- Settles O10: the law of one byte, its bits written by index. -/
theorem linkByteMostSignificantFirst : Obligations.LinkByteMostSignificantFirst := by
  unfold Obligations.LinkByteMostSignificantFirst
  intro v s hc hr
  obtain ⟨r, hcells, hscript⟩ := byteCells_spec v s
  simp only [← byteBits_eq_range]
  refine ⟨r, exec_linkByte_eq_next.mpr ⟨hr, hc, ?_⟩, hscript⟩
  rw [hcells]; rfl

/-- Of enough bytes the first `n` are none exactly when `n` is 0 (R63, D7). -/
theorem take_eq_nil_iff_zero {n : Byte} {tx : List Byte} (h : n.toNat ≤ tx.length) : tx.take n.toNat = [] ↔ n = 0 := by
  rw [← List.length_eq_zero_iff, List.length_take_of_le h, BitVec.toNat_eq]; rfl

/-- Settles O11: the law of one transfer, for the first `n` of the bytes supplied. -/
theorem linkXferExchangesBytes : Obligations.LinkXferExchangesBytes := by
  unfold Obligations.LinkXferExchangesBytes
  intro n tx s hc hr hn
  obtain ⟨rx, hlen, htransfer, hscript⟩ := transfer_spec (tx.take n.toNat) s
  simp only [List.length_take_of_le hn, take_eq_nil_iff_zero hn] at hlen htransfer hscript
  refine ⟨rx, hlen, exec_linkXfer_eq_next.mpr ⟨hr, hc, hn, ?_⟩, hscript⟩
  rw [htransfer]; rfl

/-! ### The line discipline (R64) -/

/-- From `s` to `t` the wire gained a trace that keeps the discipline, and the lines are at rest after it (R64). -/
def KeepsDiscipline (s t : State) : Prop :=
  t.clk = false ∧ t.sel = true ∧ ∃ w, t.wire = s.wire ++ w ∧ lineRun s.linkcfg .rest w = some .rest

/-- A result handed back touches no line (R156). -/
theorem KeepsDiscipline.ret (r : Result) (h : KeepsDiscipline s t) : KeepsDiscipline s (ret r t) := h

/-- A channel read gains the trace of one transfer (R72). -/
theorem keepsDiscipline_readChannel (p : PadIx) (k : Fin 4) (hd : s.linkcfg.distinct = true) :
    KeepsDiscipline s (readChannel p k s) := by
  obtain ⟨f, e, -⟩ := readChannel_spec p k s
  rw [e]
  exact ⟨rfl, rfl, _, rfl, lineRun_transferTrace _ hd _ _⟩

/-- The read of the four channels gains the traces of four transfers, each from rest to rest (R73). -/
theorem keepsDiscipline_readAxes (p : PadIx) (hd : s.linkcfg.distinct = true) (hr : s.linkReady = true)
    (h : readAxes p s = .next t) : KeepsDiscipline s t := by
  obtain ⟨f, u, hu, e, -⟩ := readAxes_spec p s hr
  obtain rfl : u = t := Host.Outcome.next.inj (hu.symm.trans h)
  have run : ∀ c, lineRun s.linkcfg .rest (transferTrace s.linkcfg (requestBytes c) (f c).bytes) = some .rest :=
    fun c => lineRun_transferTrace _ hd _ _
  rw [e]
  refine ⟨rfl, rfl, _, by simp only [List.append_assoc]; rfl, ?_⟩
  exact lineRun_both _ _ _ _ (run 0) (lineRun_both _ _ _ _ (run 1) (lineRun_both _ _ _ _ (run 2) (run 3)))

/-- Settles O13: each operation appends the trace its law names, and each of those traces runs from rest to rest. -/
theorem linkOperationsKeepLineDiscipline : Obligations.LinkOperationsKeepLineDiscipline := by
  unfold Obligations.LinkOperationsKeepLineDiscipline
  intro i s t hd hclk hsel hi h
  show KeepsDiscipline s t
  rcases hi with rfl | ⟨b, rfl⟩ | ⟨v, rfl⟩ | ⟨n, tx, rfl⟩ | ⟨p, c, rfl⟩ | ⟨p, rfl⟩
  · obtain ⟨-, rfl⟩ := exec_linkInit_eq_next.mp h
    rw [initLink_eq]
    exact ⟨rfl, rfl, _, rfl, lineRun_initTrace _ hd⟩
  · obtain ⟨-, -, rfl⟩ := exec_linkBit_eq_next.mp h
    rw [bitCell_eq]
    exact ⟨rfl, hsel, _, rfl, lineRun_cellTrace _ hd true _ _⟩
  · obtain ⟨-, -, rfl⟩ := exec_linkByte_eq_next.mp h
    obtain ⟨r, e, -⟩ := byteCells_spec v s
    rw [e]
    exact ⟨rfl, hsel, _, rfl, lineRun_cellsTrace _ hd true _ _⟩
  · obtain ⟨-, -, -, rfl⟩ := exec_linkXfer_eq_next.mp h
    obtain ⟨rx, -, e, -⟩ := transfer_spec (tx.take n.toNat) s
    rw [e]
    refine ⟨?_, rfl, _, rfl, lineRun_transferTrace _ hd _ _⟩
    simp only [ret_clk, hclk, ite_self]
  · obtain ⟨k, rfl⟩ := exec_adcRdch_next h
    exact (keepsDiscipline_readChannel p k hd).ret .done
  · obtain ⟨hr, u, hu, rfl⟩ := exec_adcRdax_next h
    exact (keepsDiscipline_readAxes p hd hr hu).ret .done

/-! ### The refusals by operands (R63, R72, R125) -/

/-- Settles O12: each refusal is the first guard of the operation that does not hold. -/
theorem operandRefusals : Obligations.OperandRefusals := by
  unfold Obligations.OperandRefusals
  intro s
  refine ⟨fun hr => ⟨fun b => ?_, fun v => ?_, fun n tx => ?_⟩, fun hc hr p => ⟨fun c hlt => ?_, ?_⟩,
    fun hc hr n tx hlen => ?_, fun hc c hge => ⟨?_, fun p => ?_⟩, fun hc p slot hge => ?_⟩
  · rw [exec, execLinkBit, whenLinkReady_of_not _ _ hr]
  · rw [exec, execLinkByte, whenLinkReady_of_not _ _ hr]
  · rw [exec, execLinkXfer, whenLinkReady_of_not _ _ hr]
  · rw [exec, execAdcRdch, whenCreated_of _ _ hc, dif_pos hlt, readChannelChecked, whenLinkReady_of_not _ _ hr,
      andThen_refused]
  · rw [exec, execAdcRdax, whenCreated_of _ _ hc, readAxes_not_ready p s hr, andThen_refused]
  · rw [exec, execLinkXfer, whenLinkReady_of _ _ hr, whenCreated_of _ _ hc, if_pos hlen]
  · rw [exec, execAdcReq, whenCreated_of _ _ hc, if_neg (Nat.not_lt.mpr hge)]
  · rw [exec, execAdcRdch, whenCreated_of _ _ hc, dif_neg (Nat.not_lt.mpr hge)]
  · rw [exec, execDigRdslot, whenCreated_of _ _ hc, dif_neg (Nat.not_lt.mpr hge)]

end Sys2Proof.Machine
end

section
/-! PROOFS of the statements about the channel reader (41_adc_reader.md). Each operation that completes is said once: a request,
a decode, the reads of one channel and of four, the report of an analog axis (R70 to R73, R91). The laws of the two reads then
give what is stored (R72, R73); the orientation rule is that value reported, which the clamp leaves alone (R74); a stuck line
is the script of one response, the same from every channel (R75). -/
namespace Sys2Proof.Machine

variable {s t : State}

/-! ### Requests and decodes (R70, R71) -/

/-- Settles O14: the request is built, its second byte in plain arithmetic. -/
theorem adcReqBuildsFrame : Obligations.AdcReqBuildsFrame := by
  unfold Obligations.AdcReqBuildsFrame
  intro c s hlt hc
  rw [exec, execAdcReq, whenCreated_of _ _ hc, if_pos hlt, ← requestByte_eq]
  rfl

/-- Settles O16: the value handed back is the raw result of the response buffer. -/
theorem adcDecExtractsTenBits : Obligations.AdcDecExtractsTenBits := by
  unfold Obligations.AdcDecExtractsTenBits
  intro s hc
  refine ⟨rawResult s.rx, rawResult_toNat s.rx, ?_⟩
  rw [exec, execAdcDec, whenCreated_of _ _ hc]
  rfl

/-! ### Channel reads (R72, R73) -/

/-- Settles O17: the law of one channel read, with the result handed back. -/
theorem adcRdchStoresOrientedResult : Obligations.AdcRdchStoresOrientedResult := by
  unfold Obligations.AdcRdchStoresOrientedResult
  intro p c s hc hr
  obtain ⟨f, hread, hscript⟩ := readChannel_spec p c s
  refine ⟨f, _, exec_adcRdch_of p c hc hr, ?_, hscript⟩
  rw [hread]
  rfl

/-- ADC.RDAX is the read of the four channels with the result handed back (R73). -/
theorem exec_adcRdax_of {p : PadIx} (hc : s.created = true) (h : readAxes p s = .next t) :
    exec (.adcRdax p) s = .next (ret .done t) := by
  rw [exec, execAdcRdax, whenCreated_of _ _ hc, h, andThen_next]

/-- An exchange of a request with a three-byte response has 146 entries (R63, R72). -/
theorem requestTrace_length (l : LinkPins) (c : Fin 4) (f : Frame) :
    (transferTrace l (requestBytes c) f.bytes).length = 146 := transferTrace_length l _ _ rfl

/-- Settles O18: the law of the four reads, whose four traces of 146 entries are the 584. -/
theorem adcRdaxReadsFourChannels : Obligations.AdcRdaxReadsFourChannels := by
  unfold Obligations.AdcRdaxReadsFourChannels
  intro p s hc hr
  obtain ⟨f, t, hread, hstate, hslots, hframe, -⟩ := readAxes_spec p s hr
  refine ⟨f, ret .done t, exec_adcRdax_of hc hread, ?_, ?_, hslots, hframe⟩
  · conv_lhs => rw [hstate]
    rfl
  · rw [ret_wire, hstate]
    simp only [List.length_append, requestTrace_length, Nat.add_assoc]

/-! ### The orientation rule (R74) -/

/-- NORM.ABS of a written slot is its record with the result handed back (R91). -/
theorem exec_normAbs_of {p : PadIx} {k : Fin 4} {v : Sample} (hc : s.created = true)
    (hv : s.slot p (analogSlot k) = some v) :
    exec (.normAbs p k) s =
      .next (ret .done (emit p (.abs (analogAxisId k) (clamp v.toNat 0 1023) 0 1023 4 8) s)) := by
  rw [exec, execNormAbs, whenCreated_of _ _ hc, reportAbs_eq p k s v hv, andThen_next]

/-- The clamp leaves what a channel stores alone (R74, R91). -/
theorem clamp_channelValue (c : Fin 4) (f : Frame) :
    clamp (BitVec.ofNat 16 (channelValue c f)).toNat 0 1023 = channelValue c f := by
  have hle := channelValue_le c f
  rw [BitVec.toNat_ofNat, Nat.mod_eq_of_lt (by omega), clamp, if_neg (by omega), if_neg (by omega)]

/-- Settles O20: the read stores the oriented value of its response, at most 1023, and the report gives it unclamped. -/
theorem reportedValueIsOriented : Obligations.ReportedValueIsOriented := by
  unfold Obligations.ReportedValueIsOriented
  intro p c s hc hr
  obtain ⟨f, hread, -⟩ := readChannel_spec p c s
  have hslot : (ret .done (readChannel p c s)).slot p (analogSlot c) = some (BitVec.ofNat 16 (channelValue c f)) := by
    rw [slot_ret, slot_of_channel p c f s _ (by rw [hread, dropBuffers_x]), if_pos ⟨rfl, rfl⟩]
  have hcreated : (ret .done (readChannel p c s)).created = true := by rw [hread]; exact hc
  refine ⟨f, _, _, analogAxisId c, 0, 1023, 4, 8, _, channelValue c f, exec_adcRdch_of p c hc hr, ?_, rfl,
    exec_normAbs_of hcreated hslot, ?_, rfl, channelValue_le c f⟩
  · rw [hread]; rfl
  · rw [clamp_channelValue, ret_events, emit_events, Fin.getElem_fin, Vector.getElem_set_self, hread]; rfl

/-! ### Data-in stuck at one level (R75) -/

/-- The byte received while data-in stays at `level` (R62, R75). -/
def stuckByte (level : Bool) : Byte := if level then 0xFF else 0x00

/-- The response received while data-in stays at `level` (R75). -/
def stuckFrame (level : Bool) : Frame := ⟨stuckByte level, stuckByte level, stuckByte level⟩

theorem stuckFrame_bits (level : Bool) :
    (stuckFrame level).bytes.flatMap byteBits = List.replicate 24 level := by
  cases level <;> rfl

/-- The stuck response is raw 1023 at level 1 and raw 0 at level 0, turned over on channels 0 and 2 (R74, R75). -/
theorem channelValue_stuckFrame (c : Fin 4) (level : Bool) :
    channelValue c (stuckFrame level) = if c = 0 ∨ c = 2 then (if level then 0 else 1023) else if level then 1023 else 0 := by
  cases level <;> rfl

/-- The read of the four channels from a stuck line: every response is the stuck one (R73, R75). -/
theorem readAxes_stuck (p : PadIx) {level : Bool} {rest : List Bool} (hr : s.linkReady = true)
    (hl : s.levels = List.replicate 96 level ++ rest) :
    ∃ t, readAxes p s = .next t ∧ t.levels = rest ∧
      ∀ c, t.slot p (analogSlot c) = some (BitVec.ofNat 16 (channelValue c (stuckFrame level))) := by
  obtain ⟨f, t, hread, hstate, hslots, -, hscript⟩ := readAxes_spec p s hr
  have h96 : (List.replicate 96 level).length = 96 := List.length_replicate
  rw [hl, List.take_left' h96] at hscript
  obtain ⟨-, hfirst, h3⟩ := List.append_eq_replicate_iff.mp (hscript (by rw [List.length_append, h96]; omega))
  obtain ⟨-, hfirst, h2⟩ := List.append_eq_replicate_iff.mp hfirst
  obtain ⟨-, h0, h1⟩ := List.append_eq_replicate_iff.mp hfirst
  have hf : ∀ c, f c = stuckFrame level := fun c => Frame.eq_of_bits _ _ <| by
    rw [stuckFrame_bits]
    match c with
    | 0 => exact h0
    | 1 => exact h1
    | 2 => exact h2
    | 3 => exact h3
  refine ⟨t, hread, ?_, fun c => hf c ▸ hslots c⟩
  rw [hstate, hl]
  exact List.drop_left' h96

/-- Settles O21: each channel stores the value of the stuck response. -/
theorem stuckDataInIsDeterministic : Obligations.StuckDataInIsDeterministic := by
  unfold Obligations.StuckDataInIsDeterministic
  intro p level s rest hc hr hl
  obtain ⟨t, hread, hrest, hslots⟩ := readAxes_stuck p hr hl
  simp only [channelValue_stuckFrame] at hslots
  refine ⟨ret .done t, exec_adcRdax_of hc hread, hrest, ?_⟩
  cases level <;> exact ⟨hslots 0, hslots 1, hslots 2, hslots 3⟩

end Sys2Proof.Machine
end

section
/-! PROOFS of the statements about the digital sampler (42_digital_sampler.md). Each operation of the family is said once, as
the model's reader with the result handed back (R80 to R82); the laws of the readers then give what is stored and what is
pulled up. An unused entry is followed through both: its slot takes the sample 0, which is reported released, and it names no
pin of the mask (R84). -/
namespace Sys2Proof.Machine

variable {s t : State}

/-! ### What each operation answers (R80 to R82) -/

/-- DIG.RDSLOT of a digital slot is its read with the result handed back (R80). -/
theorem exec_digRdslot_of (p : PadIx) (i : Fin 12) (hc : s.created = true) :
    exec (.digRdslot p (digitalSlot i)) s = .next (ret .done (sampleSlot p i s)) := by
  rw [exec, execDigRdslot, whenCreated_of _ _ hc]
  exact dif_pos i.isLt

/-- DIG.RDBTN is the read of the twelve slots with the result handed back (R81). -/
theorem exec_digRdbtn_of {p : PadIx} (hc : s.created = true) (h : sampleButtons p s = t) :
    exec (.digRdbtn p) s = .next (ret .done t) := by
  rw [exec, execDigRdbtn, whenCreated_of _ _ hc, h]

/-- DIG.PULL is the preparation of the pad's pins with the result handed back (R82). -/
theorem exec_digPull_of {p : PadIx} (hc : s.created = true) (h : preparePins p s = t) :
    exec (.digPull p) s = .next (ret .done t) := by
  rw [exec, execDigPull, whenCreated_of _ _ hc, h]

/-- NORM.KEY of a written slot is its record with the result handed back (R92). -/
theorem exec_normKey_of {p : PadIx} {k : Fin 8} {v : Sample} (hc : s.created = true)
    (hv : s.slot p (buttonSlot k) = some v) :
    exec (.normKey p k) s = .next (ret .done (emit p (.key k (v != 0)) s)) := by
  rw [exec, execNormKey, whenCreated_of _ _ hc, reportKey_eq p k s v hv, andThen_next]

/-! ### The reads (R80, R81) -/

/-- Settles O22: the law of the slot read, one for an unused entry and one for a used one. -/
theorem digRdslotSamplesOnePin : Obligations.DigRdslotSamplesOnePin := by
  unfold Obligations.DigRdslotSamplesOnePin
  intro p i s hc
  rw [exec_digRdslot_of p i hc]
  constructor
  · intro hunused
    rw [sampleSlot_unused p i s hunused]
    rfl
  · intro n hpin
    rw [sampleSlot_pin p i s n hpin]
    rfl

/-- A slot from 12 on is no digital slot (R12). -/
theorem ne_digitalSlot_of_le {j : SlotIx} (h : 12 ≤ j.val) (i : Fin 12) : j ≠ digitalSlot i :=
  Fin.ne_of_val_ne (Nat.ne_of_gt (i.isLt.trans_le h))

/-- Settles O23: the law of the twelve reads, with the result handed back. -/
theorem digRdbtnSamplesTwelveSlots : Obligations.DigRdbtnSamplesTwelveSlots := by
  unfold Obligations.DigRdbtnSamplesTwelveSlots
  intro p s hc
  obtain ⟨ds, t, hread, hlen, hstate, hslots, hframe, hscript⟩ := sampleButtons_spec p s
  refine ⟨ds, ret .done t, hlen, exec_digRdbtn_of hc hread, ?_, hslots, fun q j hj => ?_, hscript⟩
  · conv_lhs => rw [hstate]
    rfl
  · exact hframe q j (hj.imp_right ne_digitalSlot_of_le)

/-! ### The pull-up call (R82) -/

/-- Bit `n` of the mask of a pin map is 1 exactly when an entry names pin `n` (R52). -/
theorem testBit_maskOf_usedPins (m : Vector PinRef 12) (n : Nat) :
    (maskOf (usedPins m)).testBit n = true ↔ ∃ i : Fin 12, m[i] = .pin n := by
  rw [maskOf_testBit, decide_eq_true_iff, mem_usedPins]

/-- Settles O24: the law of the preparation, its mask bit by bit. -/
theorem digPullPreparesUsedPins : Obligations.DigPullPreparesUsedPins := by
  unfold Obligations.DigPullPreparesUsedPins
  intro p s hc
  obtain ⟨t, hprepare, hstate, hpins⟩ := preparePins_spec p s
  refine ⟨maskOf (usedPins (s.pad p).pinMap), ret .done t, exec_digPull_of hc hprepare, ?_, testBit_maskOf_usedPins _,
    fun hwf => (hpins hwf).2⟩
  conv_lhs => rw [hstate]
  rw [prepareTrace, ← List.append_assoc]
  rfl

/-! ### Unused entries (R84) -/

/-- The sample of an unused entry is 0, whatever the answers (R80). -/
theorem samplesOf_getElem?_unused {rs : List PinRef} {k : Nat} (h : rs[k]? = some .unused) (ds : List Bool) :
    (samplesOf rs ds)[k]? = some 0 := by
  induction rs generalizing k ds with
  | nil => simp at h
  | cons r rs ih =>
    cases k with
    | zero =>
      obtain rfl : r = .unused := by simpa using h
      rfl
    | succ k =>
      rw [List.getElem?_cons_succ] at h
      cases r with
      | unused => exact ih h ds
      | pin n => cases ds <;> exact ih h _

/-- The read of the twelve slots writes 0 into the slot of an unused entry, and reports nothing (R80, R81). -/
theorem sampleButtons_unused {p : PadIx} {i : Fin 12} (h : (s.pad p).pinMap[i] = .unused) :
    ∃ t, sampleButtons p s = t ∧ t.slot p (digitalSlot i) = some 0 ∧ t.created = s.created ∧ t.events = s.events := by
  obtain ⟨ds, t, hread, -, hstate, hslots, -, -⟩ := sampleButtons_spec p s
  have hentry : (s.pad p).pinMap.toList[i.val]? = some .unused := by simpa using h
  have hslot := congrArg (·[i.val]?) hslots
  refine ⟨t, hread, ?_, by rw [hstate], by rw [hstate]⟩
  simpa [samplesOf_getElem?_unused hentry ds] using hslot

/-- A button whose slot holds 0 is reported released (R92). -/
theorem exec_normKey_released {p : PadIx} {k : Fin 8} (hc : s.created = true) (h : s.slot p (buttonSlot k) = some 0) :
    ∃ u, exec (.normKey p k) s = .next u ∧ u.events[p] = s.events[p] ++ [.key k false] :=
  ⟨_, exec_normKey_of hc h, by rw [ret_events, events_emit, if_pos rfl]; rfl⟩

/-- Settles O25: the slot of an unused entry holds 0, so its button is released; and a pin of the mask is named by an entry
that is used, hence another one. -/
theorem unusedSlotsNeverPressed : Obligations.UnusedSlotsNeverPressed := by
  unfold Obligations.UnusedSlotsNeverPressed
  intro p i s hc hunused
  constructor
  · obtain ⟨t, hread, hslot, hcreated, hevents⟩ := sampleButtons_unused hunused
    refine ⟨ret .done t, exec_digRdbtn_of hc hread, hslot, fun k hk => ?_⟩
    have hbutton : digitalSlot i = buttonSlot k := Fin.ext hk
    rw [← hevents]
    exact exec_normKey_released (hcreated.trans hc) (hbutton ▸ hslot)
  · obtain ⟨t, hprepare, hstate, -⟩ := preparePins_spec p s
    refine ⟨maskOf (usedPins (s.pad p).pinMap), ret .done t, exec_digPull_of hc hprepare, ?_, fun n hn => ?_⟩
    · rw [ret_wire, hstate, prepareTrace, ← List.append_assoc]
      exact List.getLast?_concat
    · obtain ⟨j, hj⟩ := (testBit_maskOf_usedPins _ n).mp hn
      refine ⟨j, ?_, hj⟩
      rintro rfl
      rw [hunused] at hj
      cases hj

end Sys2Proof.Machine
end

section
/-! PROOFS of the statements about the event normalizer (43_event_normalizer.md). Each operation of the family is said once,
as the law of its report with the result handed back (R90 to R94); NORM.ABS and NORM.KEY have theirs with the channel reader
and the digital sampler. What is left is arithmetic: the ternary value as its truth table (R95), and the clamp of a slot as a
minimum (R91). -/
namespace Sys2Proof.Machine

variable {s : State}

/-! ### What each operation answers (R90, R93, R94) -/

/-- NORM.HAT of two written slots is the record of the axis with the result handed back (R90). -/
theorem exec_normHat_of {p : PadIx} {a : HatAxis} {u v : Sample} (hc : s.created = true)
    (hu : s.slot p (hatFirst a) = some u) (hv : s.slot p (hatSecond a) = some v) :
    exec (.normHat p a) s = .next (ret .done (emit p (.abs (hatAxisId a) (ternary u v) (-1) 1 0 0) s)) := by
  rw [exec, execNormHat, whenCreated_of _ _ hc, reportHat_eq p a s u v hu hv, andThen_next]

/-- NORM.SYNC is the marker with the result handed back (R93). -/
theorem exec_normSync_of (p : PadIx) (hc : s.created = true) :
    exec (.normSync p) s = .next (ret .done (emit p .syn s)) := by
  rw [exec, execNormSync, whenCreated_of _ _ hc, reportSync, andThen_next, sinkSync]

/-- NORM.FLUSH of a written pad is its batch with the result handed back (R94). -/
theorem exec_normFlush_of {p : PadIx} {v : SlotIx → Sample} (hc : s.created = true)
    (hv : ∀ i, s.slot p i = some (v i)) :
    exec (.normFlush p) s =
      .next (ret .done { s with events := s.events.set p (s.events[p] ++ batchOf v) }) := by
  rw [exec, execNormFlush, whenCreated_of _ _ hc, flushBatch_eq p s v hv, andThen_next]

/-! ### The hats (R90, R95) -/

/-- The number of a slot's comparison with 0 (R90). -/
theorem num_beq_zero (v : Sample) : num (v == 0) = if v = 0 then 1 else 0 := by
  simp only [num, beq_iff_eq]

/-- The ternary value as a truth table over the two slots: +1 when only the first holds 0, −1 when only the second does
(R95). -/
theorem ternary_eq_ite (u v : Sample) :
    ternary u v = if u = 0 then (if v = 0 then 0 else 1) else (if v = 0 then -1 else 0) := by
  rw [ternary, num_beq_zero, num_beq_zero]
  split_ifs <;> rfl

/-- Settles O26: on either axis the report of its two slots, the ternary value written as its truth table. -/
theorem normHatReportsTernary : Obligations.NormHatReportsTernary := by
  unfold Obligations.NormHatReportsTernary
  intro p a s u v hc hu hv
  rw [← ternary_eq_ite]
  cases a with
  | vertical => exact exec_normHat_of hc hu hv
  | horizontal => exact exec_normHat_of hc hu hv

/-- Settles O27: the record's value is the ternary value of the two levels, read off in each row of the table. -/
theorem verticalDirectionTruthTable : Obligations.VerticalDirectionTruthTable := by
  unfold Obligations.VerticalDirectionTruthTable
  intro p s up down hc hup hdown
  refine ⟨_, ternary (if up then 1 else 0) (if down then 1 else 0), -1, 1, 0, 0, exec_normHat_of hc hup hdown,
    ?_, ?_, ?_, ?_⟩
  · rw [ret_events, events_emit, if_pos rfl]; rfl
  · rintro rfl rfl; rfl
  · rintro rfl rfl; rfl
  · rintro rfl
    cases up <;> rfl

/-! ### The analog axes (R91) -/

/-- The clamp of a value that is not negative, at 0 below, is a minimum (R91, D38). -/
theorem clamp_zero_natCast (n m : Nat) : clamp n 0 m = Int.ofNat (min n m) := by
  rw [clamp, if_neg (by omega), Int.ofNat_eq_natCast]
  split_ifs <;> omega

/-- Settles O28: the report of the channel's slot, its clamp written as a minimum; the axes are named channel by channel. -/
theorem normAbsReportsClamped : Obligations.NormAbsReportsClamped := by
  unfold Obligations.NormAbsReportsClamped
  intro p k s v hc hv
  rw [exec_normAbs_of hc hv, ← clamp_zero_natCast]
  match k with
  | 0 | 1 | 2 | 3 => rfl

/-! ### The buttons, the marker and the batch (R92 to R94) -/

/-- Settles O29: the report of the button's slot. -/
theorem normKeyReportsLevel : Obligations.NormKeyReportsLevel := by
  unfold Obligations.NormKeyReportsLevel
  intro p k s v hc hv
  rw [exec_normKey_of hc hv, decide_not]
  rfl

/-- Settles O30: the marker and the result are all that is written. -/
theorem normSyncAppendsMarker : Obligations.NormSyncAppendsMarker := by
  unfold Obligations.NormSyncAppendsMarker
  intro p s hc
  exact exec_normSync_of p hc

/-- Settles O31: the law of the whole batch, whose length is 15 by its definition. -/
theorem normFlushIssuesBatch : Obligations.NormFlushIssuesBatch := by
  unfold Obligations.NormFlushIssuesBatch
  intro p s v hc hv
  exact ⟨exec_normFlush_of hc hv, batchOf_length v⟩

end Sys2Proof.Machine
end

section
/-! PROOFS of the statements about the scheduler (44_scheduler_lifecycle.md): the pass and the tick (R100, R101, R110), attach
and detach (R103, R104, R111, R112). What a tick, an attach and a detach answer is said once; a whole pass is the law
`samplingPass_spec`, a pass drained to its end the law `passMoves_finish`. -/
namespace Sys2Proof.Machine

variable {s t u : State}

/-! ### The tick and the agent's turn (R101, R135) -/

/-- While Idle no firing is pending (R21, R102). -/
theorem firingPending_of_idle (ha : s.armed = .idle) : s.firingPending = false := by
  simp [State.firingPending, ha]

/-- During a pass no firing is pending (R21, R101). -/
theorem firingPending_of_inPass (hi : s.inPass = true) : s.firingPending = false := by
  simp [State.firingPending, hi]

/-- While Armed with no pass running a firing is pending (R21, R126). -/
theorem firingPending_of_armed (ha : s.armed = .armed) (hi : s.inPass = false) : s.firingPending = true := by
  simp [State.firingPending, ha, hi]

/-- SCHED.TICK is the tick with the result handed back (R101). -/
theorem exec_schedTick_of (hc : s.created = true) (h : tick s = .next t) :
    exec .schedTick s = .next (ret .done t) := by
  rw [exec, execSchedTick, whenCreated_of _ _ hc, h, andThen_next]

/-- SCHED.TICK with no firing pending hands its result back and does nothing else (R101). -/
theorem exec_schedTick_of_not_pending (hc : s.created = true) (hf : s.firingPending = false) :
    exec .schedTick s = .next (ret .done s) :=
  exec_schedTick_of hc (if_neg (Bool.eq_false_iff.mp hf))

/-- While Idle with no pass running the agent has nothing to do (R101, R102, R135). -/
theorem agentTurn_idle (ha : s.armed = .idle) (hi : s.inPass = false) : agentTurn s = .next s := by
  simp [agentTurn, hi, firingPending_of_idle ha]

/-- Settles O6: with no firing pending and no pass running neither the agent's turn nor a tick has anything to do. -/
theorem noWorkWhileIdle : Obligations.NoWorkWhileIdle := by
  unfold Obligations.NoWorkWhileIdle
  intro s ha hi
  refine ⟨fun hq => (step_of_empty s hq).trans (agentTurn_idle ha hi), fun rest hq => ?_, fun hc =>
    exec_schedTick_of_not_pending hc (firingPending_of_idle ha)⟩
  have hpop : popInput s = { s with input := rest } := by rw [popInput, hq]; rfl
  rw [step_of_turn s rest hq, hpop]
  exact agentTurn_idle ha hi

/-! ### The pass (R100, R110) -/

/-- Settles O33: the law of a whole pass, whose frame leaves the position and `in_pass` as they were. -/
theorem passSamplesEveryLivePad : Obligations.PassSamplesEveryLivePad := by
  unfold Obligations.PassSamplesEveryLivePad
  intro s hc hr
  obtain ⟨_, _, v, t, ht, hkept, hseq, hpass, -, hlive, hskipped⟩ := samplingPass_spec s hr
  refine ⟨ret .done t, exec_schedPass_of hc ht, fun p hp => ?_, hskipped, ?_⟩
  · obtain ⟨-, -, -, hslots, hevents⟩ := hlive p hp
    exact ⟨v p, hslots, hevents⟩
  · rw [hkept.eq hseq hpass]; rfl

/-- Settles O35: the tick of the Armed state is the pass of SCHED.PASS between setting and clearing `in_pass`, and a pass
keeps `armed` and the count; during a pass no firing is pending. -/
theorem tickRunsPassAndRearms : Obligations.TickRunsPassAndRearms := by
  unfold Obligations.TickRunsPassAndRearms
  intro s hc
  refine ⟨fun hr ha hi => ?_, fun hi => exec_schedTick_of_not_pending hc (firingPending_of_inPass hi)⟩
  obtain ⟨_, _, _, t, ht, hkept, -⟩ := samplingPass_spec (setInPass true s) hr
  have htick : tick s = .next (setInPass false t) := by
    rw [tick, if_pos (firingPending_of_armed ha hi), ht, andThen_next]
  have harmed : t.armed = .armed := hkept.armed.trans ha
  exact ⟨ret .done t, exec_schedPass_of (s := setInPass true s) hc ht, exec_schedTick_of hc htick, harmed, hkept.count,
    firingPending_of_armed harmed rfl⟩

/-! ### Attach (R103, R112) -/

/-- LIFE.ATTACH that is not interrupted counts its consumer once the wait for the mutex has ended (R103). -/
theorem exec_lifeAttach_of (p : PadIx) (hc : s.created = true) (hn : s.nextInterrupted = false)
    (hw : awaitMutex (drawInterrupt s) = .next u) :
    exec (.lifeAttach p) s = .next (ret .done (countConsumer u)) := by
  rw [exec, execLifeAttach, whenCreated_of _ _ hc, hn]
  cases hm : s.mutex with
  | free =>
    obtain rfl : drawInterrupt s = u := by simpa [awaitMutex, hm] using hw
    rfl
  | held => simp [hw]

/-- Settles O38: the wait ends at once, and the consumer is counted. -/
theorem attachCountsAndArms : Obligations.AttachCountsAndArms := by
  unfold Obligations.AttachCountsAndArms
  intro p s hc hm hn
  rw [exec_lifeAttach_of p hc hn (awaitMutex_ready (drawInterrupt s) hm), countConsumer_eq]
  rfl

/-! ### Detach (R104, R112) -/

/-- The wait for a mutex that is free, or held while no pass runs, leaves it free and does nothing else (R104, log 14). -/
theorem awaitMutex_unlock (h : s.mutex = .free ∨ s.inPass = false) : awaitMutex s = .next (unlock s) :=
  awaitMutex_ready s h

/-- LIFE.DETACH with no consumer attached is refused once the wait for the mutex has ended (R104, D22). -/
theorem exec_lifeDetach_refused (p : PadIx) (hc : s.created = true) (hw : awaitMutex s = .next u) (hn : u.count = 0) :
    exec (.lifeDetach p) s = .refused .detachWithoutAttach := by
  rw [exec, execLifeDetach, whenCreated_of _ _ hc, hw, andThen_next, if_pos hn]

/-- LIFE.DETACH takes one consumer off once the wait for the mutex has ended (R104). -/
theorem exec_lifeDetach_of (p : PadIx) (hc : s.created = true) (hw : awaitMutex s = .next u) (hn : u.count ≠ 0)
    (h : releaseConsumer u = .next t) : exec (.lifeDetach p) s = .next (ret .done t) := by
  rw [exec, execLifeDetach, whenCreated_of _ _ hc, hw, andThen_next, if_neg hn, h, andThen_next]

/-- The last LIFE.DETACH answers when the drain, the mutex held and the scheduler Idle, has ended (R104). -/
theorem exec_lifeDetach_last (p : PadIx) (hc : s.created = true) (hm : s.mutex = .free ∨ s.inPass = false)
    (h1 : s.count = 1) (hd : drain (withSched 0 .idle .held s) = .next t) :
    exec (.lifeDetach p) s = .next (ret .done (unlock t)) := by
  have hn : (unlock s).count ≠ 0 := by rw [unlock_count]; omega
  refine exec_lifeDetach_of p hc (awaitMutex_unlock hm) hn ?_
  rw [releaseConsumer_last (unlock s) h1]
  exact congrArg (andThen · fun t => .next (unlock t)) hd

/-- Settles O40: the wait ends at once; then the count decides, and with no pass running the last detach's drain does
nothing. -/
theorem detachCountsAndDisarms : Obligations.DetachCountsAndDisarms := by
  unfold Obligations.DetachCountsAndDisarms
  intro p s hc hm
  have hw := awaitMutex_unlock hm
  refine ⟨fun h0 => exec_lifeDetach_refused p hc hw h0, fun h2 => ?_, fun h1 hi => ?_⟩
  · have hn : (unlock s).count ≠ 0 := by rw [unlock_count]; omega
    exact exec_lifeDetach_of p hc hw hn (releaseConsumer_stay (unlock s) h2)
  · exact exec_lifeDetach_last p hc hm h1 (drain_idle _ hi)

/-- From a state of the invariant the walk comes to the end of the pass, whatever the scheduler's registers are set to (R39,
R104, R147). -/
theorem passMoves_withSched_finish (h : s.Inv) (n : Nat) (a : Sched) (m : Mutex) :
    ∃ t, passMoves passLength (withSched n a m s) = .next t ∧ t.seq = .out ∧ t.inPass = false ∧
      Kept (withSched n a m s) t :=
  passMoves_finish passLength (withSched n a m s) (h.ready s) h.passProgress h.passHasPosition (Position.rank_le _)

/-- Settles O41: the invariant gives a free mutex and a pass that the walk brings to its end; the walk keeps the count, the
arming and the mutex. -/
theorem lastDetachDrainsPass : Obligations.LastDetachDrainsPass := by
  unfold Obligations.LastDetachDrainsPass
  intro p s hinv hc hpass h1
  obtain ⟨t, ht, hout, hended, hkept⟩ := passMoves_withSched_finish hinv 0 .idle .held
  have hdrain : drain (withSched 0 .idle .held s) = .next t := (drain_pass (withSched 0 .idle .held s) hpass).trans ht
  exact ⟨t, ret .done (unlock t), ht, exec_lifeDetach_last p hc (.inl hinv.mutexFree) h1 hdrain, rfl, hkept.count,
    hkept.armed, hended, hout, firingPending_of_idle hkept.armed⟩

/-! ### Nested attaches and detaches (R111) -/

/-- Between two calls with no pass running and `n` consumers attached: the mutex is free, and the block is Armed exactly
when there are any (R16, R17). -/
structure Attached (n : Nat) (s : State) : Prop where
  created : s.created = true
  mutex : s.mutex = .free
  inPass : s.inPass = false
  count : s.count = n
  armed : s.armed = if n = 0 then .idle else .armed

/-- An attach that is not interrupted brings one more consumer (R103). -/
theorem Attached.attach {n : Nat} (h : Attached n s) (p : PadIx) (hn : s.nextInterrupted = false) :
    ∃ t, exec (.lifeAttach p) s = .next t ∧ Attached (n + 1) t ∧ t.interrupts = s.interrupts.tail := by
  refine ⟨_, attachCountsAndArms p s h.created (.inl h.mutex) hn, ⟨h.created, rfl, h.inPass, by simp [h.count], ?_⟩, rfl⟩
  by_cases h0 : n = 0 <;> simp [h.count, h.armed, h0]

/-- A detach takes one consumer away (R104). -/
theorem Attached.detach {n : Nat} (h : Attached (n + 1) s) (p : PadIx) :
    ∃ t, exec (.lifeDetach p) s = .next t ∧ Attached n t := by
  obtain ⟨-, hstay, hlast⟩ := detachCountsAndDisarms p s h.created (.inl h.mutex)
  by_cases h0 : n = 0
  · subst h0
    exact ⟨_, hlast h.count h.inPass, h.created, rfl, h.inPass, rfl, rfl⟩
  · have h2 : 2 ≤ s.count := by rw [h.count]; omega
    exact ⟨_, hstay h2, h.created, rfl, h.inPass, by simp [h.count], by simp [h.armed, h0]⟩

/-- `n` attaches that are not interrupted bring `n` more consumers (R103, R111). -/
theorem Attached.repeat_attach (p : PadIx) (rest : List Bool) (n : Nat) {k : Nat} (h : Attached k s)
    (hi : s.interrupts = List.replicate n false ++ rest) :
    ∃ t, repeatExec (.lifeAttach p) n s = .next t ∧ Attached (k + n) t := by
  induction n generalizing s k with
  | zero => exact ⟨s, rfl, h⟩
  | succ n ih =>
    rw [List.replicate_succ, List.cons_append] at hi
    obtain ⟨u, hu, hattached, hrest⟩ := h.attach p (by rw [State.nextInterrupted, hi]; rfl)
    obtain ⟨t, ht, hend⟩ := ih hattached (by rw [hrest, hi]; rfl)
    exact ⟨t, by rw [repeatExec, hu, andThen_next, ht], Nat.add_right_comm k n 1 ▸ hend⟩

/-- `n` detaches take `n` consumers away (R104, R111). -/
theorem Attached.repeat_detach (p : PadIx) (n : Nat) (h : Attached n s) :
    ∃ t, repeatExec (.lifeDetach p) n s = .next t ∧ Attached 0 t := by
  induction n generalizing s with
  | zero => exact ⟨s, rfl, h⟩
  | succ n ih =>
    obtain ⟨u, hu, hattached⟩ := h.detach p
    obtain ⟨t, ht, hend⟩ := ih hattached
    exact ⟨t, by rw [repeatExec, hu, andThen_next, ht], hend⟩

/-- Settles O42: each attach brings one consumer and each detach takes one away, and the block is Armed exactly while
there are any. -/
theorem nestedAttachesAndDetachesEndIdle : Obligations.NestedAttachesAndDetachesEndIdle := by
  unfold Obligations.NestedAttachesAndDetachesEndIdle
  intro n p q s rest hc hm hi h0 ha hn
  have hstart : Attached 0 s := ⟨hc, hm, hi, h0, ha⟩
  obtain ⟨t, ht, hbetween⟩ := hstart.repeat_attach p rest n hn
  rw [Nat.zero_add] at hbetween
  obtain ⟨u, hu, hend⟩ := hbetween.repeat_detach q n
  exact ⟨t, u, ht, hbetween.count, fun hpos => by rw [hbetween.armed, if_neg hpos.ne'], hu, hend.count, hend.armed⟩

end Sys2Proof.Machine
end

section
/-! PROOFS of the statements about setup, create and destroy (44_scheduler_lifecycle.md): the link's override (R105), the
setup of one pad (R106), the setup of a create's pads with its success and its first error (R107, R121, R122, R128), and
destroy (R108). What the setup of a list of valid configurations leaves is one relation, `Installed`, proved for one pad and
composed for two. -/
namespace Sys2Proof.Machine

variable {s t u : State}

/-! ### The override of the link pins (R105, R125) -/

/-- SETUP.LINKCFG before a create and before any override decides by its four identifiers (R105, R125). -/
theorem exec_setupLinkcfg_of {clk dout din sel : Int} (hc : s.created = false) (hset : s.linkcfgSet = false) :
    exec (.setupLinkcfg clk dout din sel) s =
      if ∀ n ∈ [clk, dout, din, sel], linkPinValid n = true then
        .next (ret .done { s with
          linkcfg := { clk := clk.toNat, dout := dout.toNat, din := din.toNat, sel := sel.toNat }, linkcfgSet := true })
      else .refused .pinInvalid := by
  simp [exec, execSetupLinkcfg, hc, hset, and_assoc]

/-- Settles O44: four valid identifiers are the override; the three refusals are the operation's checks in their order. -/
theorem linkcfgOverriddenOnce : Obligations.LinkcfgOverriddenOnce := by
  unfold Obligations.LinkcfgOverriddenOnce
  intro s
  refine ⟨fun clk dout din sel hc hset h1 h2 h3 h4 => ?_, fun clk dout din sel => ⟨fun hc => ?_, fun hc hset => ?_,
    fun hc hset hbad => ?_⟩⟩
  · have hvalid : ∀ n ∈ [(clk : Int), dout, din, sel], linkPinValid n = true := by
      simp [linkPinValid_iff, h1, h2, h3, h4]
    rw [exec_setupLinkcfg_of hc hset, if_pos hvalid]
    rfl
  · simp [exec, execSetupLinkcfg, hc]
  · simp [exec, execSetupLinkcfg, hc, hset]
  · obtain ⟨n, hmem, hn⟩ := hbad
    have hinvalid : ¬ ∀ n ∈ [clk, dout, din, sel], linkPinValid n = true := fun h => by
      obtain ⟨hlow, hhigh⟩ := (linkPinValid_iff n).mp (h n hmem)
      omega
    rw [exec_setupLinkcfg_of hc hset, if_neg hinvalid]

/-! ### The setup of one pad (R106) -/

/-- A valid configuration with the type and the map it installs. -/
abbrev ValidCfg := PadCfg × PadType × Vector PinRef 12

/-- The record of a pad that holds the configuration `c` and the sink `h` (R13, R106). -/
def padOf (c : ValidCfg) (h : Option Nat) : Pad :=
  { type := c.2.1, pinMap := c.2.2, physId := c.1.physId, sink := h }

/-- What the setup of the configurations `cs`, with the new sinks `hs`, leaves but for the pads' records: the pins prepared
in order, one allocation and one draw for each, nothing else changed (R106, R107). -/
structure Installed (cs : List ValidCfg) (hs : List Nat) (s t : State) : Prop where
  sinks : hs.length = cs.length
  rest : t = { s with
    pads := t.pads, pins := t.pins, wire := s.wire ++ cs.flatMap fun c => prepareTrace c.2.2
    sinkLog := s.sinkLog ++ hs.map SinkCall.alloc
    allocFails := s.allocFails.drop cs.length, drawn := s.drawn + cs.length }
  pins : s.pins.wf → t.pins.wf ∧ ∀ n, PinTable.get n t.pins =
    if n ∈ cs.flatMap fun c => usedPins c.2.2 then { dir := .input, pull := .set .up } else PinTable.get n s.pins

theorem Installed.nil (s : State) : Installed [] [] s s := ⟨rfl, by simp, fun h => ⟨h, by simp⟩⟩

/-- One setup after another. -/
theorem Installed.append {as bs : List ValidCfg} {hs ks : List Nat} (a : Installed as hs s t) (b : Installed bs ks t u) :
    Installed (as ++ bs) (hs ++ ks) s u where
  sinks := by simp [a.sinks, b.sinks]
  rest := by rw [b.rest, a.rest]; simp [Nat.add_assoc]
  pins := fun hw => by
    obtain ⟨hwt, ht⟩ := a.pins hw
    obtain ⟨hwu, hu⟩ := b.pins hwt
    refine ⟨hwu, fun n => ?_⟩
    simp only [hu, ht, List.flatMap_append, List.mem_append]
    split_ifs <;> tauto

/-- The next draw after one setup is the one after its own (log 9). -/
theorem Installed.nextAllocFails {c : ValidCfg} {h : Nat} (a : Installed [c] [h] s t) :
    t.nextAllocFails = (drawAlloc s).nextAllocFails := by
  rw [a.rest]
  simp [State.nextAllocFails]

/-- The setup of a pad whose configuration is valid and whose sink allocation succeeds, whole (R106). -/
theorem setupPadSteps_installed (p : PadIx) {c : ValidCfg} (hi : cfgInstalls c.1 c.2.1 c.2.2)
    (hn : s.nextAllocFails = false) :
    ∃ t, setupPadSteps p c.1 s = (none, t) ∧ Installed [c] [s.freshSink] s t ∧
      t.pads = s.pads.set p (padOf c (some s.freshSink)) := by
  obtain ⟨t, ht, hrest, hpins⟩ := installPad_spec p c.2.1 c.2.2 c.1.physId (drawAlloc s)
  refine ⟨t, by rw [setupPadSteps_installs p c.1 c.2.1 c.2.2 s hi hn, ht], ⟨rfl, ?_, fun hw => ?_⟩, by rw [hrest]; rfl⟩
  · rw [hrest]; simp [drawAlloc, State.freshSink]
  · simpa using hpins hw

/-- SETUP.PAD before a create, with identifiers in range, hands back what its steps end in (R106, R128). -/
theorem exec_setupPad_of {p : PadIx} {cfg : PadCfg} (hc : s.created = false) (hv : cfgPinsValid cfg = true) :
    exec (.setupPad p cfg) s = .next (setupResult (setupPadSteps p cfg s)) := by
  simp [exec, execSetupPad, hc, hv]

/-- Settles O45: the law of one setup, with the result handed back. -/
theorem setupPadInstallsConfiguration : Obligations.SetupPadInstallsConfiguration := by
  unfold Obligations.SetupPadInstallsConfiguration
  intro p cfg ty m s hc hn hi
  obtain ⟨t, ht, hinstalled, hpads⟩ := setupPadSteps_installed (c := (cfg, ty, m)) p hi hn
  refine ⟨ret .done t, s.freshSink, ?_, ?_, fun hw n => ?_⟩
  · rw [exec_setupPad_of hc (cfgInstalls_ok p cfg ty m hi).1, ht]; rfl
  · rw [hinstalled.rest, hpads]; simp [ret, padOf]
  · simpa using (hinstalled.pins hw).2 n

/-! ### The setup of a create's pads (R107) -/

/-- Every pad after one pad's record was replaced. -/
theorem pad_of_pads_set {p : PadIx} {d : Pad} (h : t.pads = s.pads.set p d) (q : PadIx) :
    t.pad q = if p = q then d else s.pad q :=
  (pad_congr (setPad p d s) t h q).trans (pad_setPad s p q d)

/-- An error of pad 0 is the create's, and pad 1 is not looked at (R107). -/
theorem setupPads_of_first_error {c0 : PadCfg} {cs : List PadCfg} {e : Error}
    (h0 : setupPadSteps 0 c0 s = (some e, t)) : setupPads (c0 :: cs) s = (some e, t) := by
  cases cs <;> simp [setupPads, h0]

/-- An error of pad 1 is the create's, and pad 0 is rolled back (R107, R128). -/
theorem setupPads_of_second_error {c0 c1 : PadCfg} {e : Error} (h0 : setupPadSteps 0 c0 s = (none, t))
    (h1 : setupPadSteps 1 c1 t = (some e, u)) : setupPads [c0, c1] s = (some e, retirePad 0 u) := by
  simp [setupPads, h0, h1]

/-- Two setups that succeed, one after the other (R107). -/
theorem setupPads_of_both {c0 c1 : PadCfg} (h0 : setupPadSteps 0 c0 s = (none, t))
    (h1 : setupPadSteps 1 c1 t = (none, u)) : setupPads [c0, c1] s = (none, u) := by
  simp [setupPads, h0, h1]

/-- The setup of a create's pads when every configuration is valid and every allocation succeeds: entry `i` becomes pad `i`
with its new sink, any other pad stays (R107). -/
theorem setupPads_installed (cs : List ValidCfg) (hlen : cs.length ≤ 2) (hi : ∀ c ∈ cs, cfgInstalls c.1 c.2.1 c.2.2)
    (h0 : 0 < cs.length → s.nextAllocFails = false) (h1 : 1 < cs.length → (drawAlloc s).nextAllocFails = false) :
    ∃ t hs, setupPads (cs.map Prod.fst) s = (none, t) ∧ Installed cs hs s t ∧
      (∀ (p : PadIx) c, cs[p.val]? = some c → t.pad p = padOf c hs[p.val]?) ∧
      ∀ p : PadIx, cs[p.val]? = none → t.pad p = s.pad p := by
  match cs, hlen with
  | [], _ => exact ⟨s, [], rfl, .nil s, by simp, fun _ _ => rfl⟩
  | [c0], _ =>
    obtain ⟨t, ht, hinstalled, hpads⟩ := setupPadSteps_installed 0 (hi c0 (by simp)) (h0 (by simp))
    refine ⟨t, _, ht, hinstalled, fun p c hp => ?_, fun p hp => ?_⟩ <;> rw [pad_of_pads_set hpads]
    · match p with
      | 0 =>
        obtain rfl : c0 = c := by simpa using hp
        rfl
      | 1 => simp at hp
    · match p with
      | 0 => simp at hp
      | 1 => rfl
  | [c0, c1], _ =>
    obtain ⟨t, ht, hfirst, hpads⟩ := setupPadSteps_installed 0 (hi c0 (by simp)) (h0 (by simp))
    obtain ⟨u, hu, hsecond, hpads'⟩ := setupPadSteps_installed 1 (hi c1 (by simp))
      (hfirst.nextAllocFails.trans (h1 (by simp)))
    refine ⟨u, _, setupPads_of_both ht hu, hfirst.append hsecond, fun p c hp => ?_, fun p hp => ?_⟩ <;>
      rw [pad_of_pads_set hpads', pad_of_pads_set hpads]
    · match p with
      | 0 =>
        obtain rfl : c0 = c := by simpa using hp
        rfl
      | 1 =>
        obtain rfl : c1 = c := by simpa using hp
        rfl
    · match p with
      | 0 | 1 => simp at hp
  | _ :: _ :: _ :: _, h => simp at h

/-! ### Create (R107, R25) -/

/-- LIFE.CREATE whose argument passes the checks ends in what its setup ends in (R107, R125). -/
theorem exec_lifeCreate_of {cfgs : List PadCfg} (hc : s.created = false) (hlen : cfgs.length ≤ 2)
    (hv : ∀ c ∈ cfgs, cfgPinsValid c = true) (hd : ¬ pinConflict s.linkPins cfgs) :
    exec (.lifeCreate cfgs) s = .next (createResult s (setupPads cfgs (clearPad 1 (clearPad 0 s)))) := by
  simp [exec, execLifeCreate, hc, Nat.not_lt.mpr hlen, List.all_eq_true.mpr hv, (createPinsDiffer_iff _ _ hlen).mpr hd]

/-- What the setup of a create's pads leaves: the sinks held before are released first (R106 corner case f, R107). -/
theorem Installed.rest_of_cleared {cs : List ValidCfg} {hs : List Nat}
    (h : Installed cs hs (clearPad 1 (clearPad 0 s)) t) :
    t = { s with
      pads := t.pads, pins := t.pins, wire := s.wire ++ cs.flatMap fun c => prepareTrace c.2.2
      sinkLog := s.sinkLog ++ s.heldSinks ++ hs.map SinkCall.alloc
      allocFails := s.allocFails.drop cs.length, drawn := s.drawn + cs.length } := by
  have hrest := h.rest
  rw [clearBoth_eq] at hrest
  exact hrest

/-- What the setup of a create's pads leaves in each pin: the clearing of both pads touches none (R106, R107). -/
theorem Installed.pins_of_cleared {cs : List ValidCfg} {hs : List Nat}
    (h : Installed cs hs (clearPad 1 (clearPad 0 s)) t) (hw : s.pins.wf) :
    t.pins.wf ∧ ∀ n, PinTable.get n t.pins =
      if n ∈ cs.flatMap fun c => usedPins c.2.2 then { dir := .input, pull := .set .up } else PinTable.get n s.pins := by
  have hpins := h.pins
  rw [clearBoth_eq] at hpins
  exact hpins hw

/-- The set a create builds on the pads its setup installed: the reset table, the histories started anew (R25, R107). -/
theorem createResult_installed {cs : List ValidCfg} {hs : List Nat}
    (h : Installed cs hs (clearPad 1 (clearPad 0 s)) t) :
    createResult s (none, t) = { s with
      x := Vector.replicate 2 (Vector.replicate 16 none), pads := t.pads, linkcfg := s.linkPins
      clk := false, dout := false, sel := true, pins := initDirs s.linkPins t.pins, linkReady := true
      count := 0, armed := .idle, mutex := .free, inPass := false, created := true, seq := .out
      tx := Frame.zero, rx := Frame.zero
      wire := cs.flatMap (fun c => prepareTrace c.2.2) ++ initTrace s.linkPins, events := Vector.replicate 2 []
      past := { wire := s.past.wire ++ s.wire, events := Vector.ofFn fun p => s.past.events[p] ++ s.events[p] }
      results := s.results ++ [.created], sinkLog := s.sinkLog ++ s.heldSinks ++ hs.map SinkCall.alloc
      allocFails := s.allocFails.drop cs.length, drawn := s.drawn + cs.length } := by
  have hlink : t.linkPins = s.linkPins := by rw [h.rest_of_cleared]; rfl
  have hwire : t.wire = s.wire ++ cs.flatMap fun c => prepareTrace c.2.2 := by rw [h.rest_of_cleared]
  have hend : (finishCreate t).wire =
      s.wire ++ (cs.flatMap (fun c => prepareTrace c.2.2) ++ initTrace s.linkPins) := by
    rw [finishCreate_eq, ← List.append_assoc, ← hwire, ← hlink]
  have hresult : createResult s (none, t) = ret .created (startHistories s (finishCreate t)) := rfl
  rw [hresult, startHistories_eq s _ _ hend, finishCreate_eq, hlink, h.rest_of_cleared]
  rfl

/-- Settles O49: both pads are cleared, the configurations installed in order, and the create's end brings the reset table;
the directions are those of the initialisation on the prepared pins. -/
theorem createBuildsAcquisitionSet : Obligations.CreateBuildsAcquisitionSet := by
  unfold Obligations.CreateBuildsAcquisitionSet
  intro cs s hc hd hlen h0 h1 hi
  have hv : ∀ c ∈ cs.map Prod.fst, cfgPinsValid c = true := fun _ hmem => by
    obtain ⟨c, hc, rfl⟩ := List.mem_map.mp hmem
    exact (cfgInstalls_ok 0 c.1 c.2.1 c.2.2 (hi c hc)).1
  obtain ⟨-, hcleared⟩ := clearBoth_spec s
  obtain ⟨t, hs, ht, hinstalled, hpads, habsent⟩ := setupPads_installed (s := clearPad 1 (clearPad 0 s)) cs hlen hi
    (by rw [clearBoth_eq]; exact h0) (by rw [clearBoth_eq]; exact h1)
  have hexec := exec_lifeCreate_of hc (by simpa using hlen) hv hd
  rw [ht, createResult_installed hinstalled] at hexec
  refine ⟨_, hs, hexec, hinstalled.sinks, rfl, rfl, fun p => ?_, slot_clearSlots s, fun hw n => ?_, fun p => ?_⟩
  · simp
  · obtain ⟨hwf, hget⟩ := hinstalled.pins_of_cleared hw
    rw [get_initDirs _ _ hwf, hget]
  · cases hp : cs[p.val]? with
    | some c => exact hpads p c hp
    | none =>
      have hpad : t.pad p = Pad.absent := (habsent p hp).trans (hcleared p)
      exact ⟨congrArg Pad.type hpad, congrArg Pad.sink hpad⟩

/-! ### A create that fails (R107, R121, R122, R128) -/

/-- A setup that fails on a pad that is gone changes nothing but the draws (R121, R122, R128). -/
theorem setupPadSteps_fails_gone {p : PadIx} {c : PadCfg} {e : Error} (hf : setupFails p c s.nextAllocFails e)
    (hg : (s.pad p).gone) :
    ∃ t, setupPadSteps p c s = (some e, t) ∧ t = { s with allocFails := t.allocFails, drawn := t.drawn } := by
  obtain ⟨-, h | h⟩ := setupPadSteps_fails p c e s hf
  · exact ⟨s, by rw [h, retirePad_of_gone p s hg], rfl⟩
  · exact ⟨drawAlloc s, by rw [h, retirePad_of_gone p (drawAlloc s) hg], rfl⟩

/-- A pad that is gone is not live and holds no sink (R13, R109). -/
theorem not_live_of_gone {p : PadIx} (h : (s.pad p).gone) : s.live p = false ∧ (s.pad p).sink = none :=
  ⟨(not_live_iff s p).mpr h.1, h.2⟩

/-- A create whose setup fails hands the error back on a state with both pads gone (R107, R121). -/
theorem exec_lifeCreate_error {cfgs : List PadCfg} {e : Error} (hc : s.created = false) (hlen : cfgs.length ≤ 2)
    (hv : ∀ c ∈ cfgs, cfgPinsValid c = true) (hd : ¬ pinConflict s.linkPins cfgs)
    (h : setupPads cfgs (clearPad 1 (clearPad 0 s)) = (some e, t)) :
    exec (.lifeCreate cfgs) s = .next (ret (.error e) t) ∧ ∀ p, t.live p = false ∧ (t.pad p).sink = none := by
  obtain ⟨-, hgone, -⟩ := createPads_spec cfgs s (List.all_eq_true.mpr hv)
  rw [h] at hgone
  exact ⟨by rw [exec_lifeCreate_of hc hlen hv hd, h]; rfl, fun p => not_live_of_gone (hgone (by simp) p)⟩

/-- Settles O50: a pad 0 that fails was cleared before, so only the draws change; a pad 1 that fails leaves what the setup of
pad 0 left, but for its record and its sink. -/
theorem createReportsFirstError : Obligations.CreateReportsFirstError := by
  unfold Obligations.CreateReportsFirstError
  intro c0 e s hc
  have hcleared : ∀ p, ((clearPad 1 (clearPad 0 s)).pad p).gone := fun p => by
    rw [(clearBoth_spec s).2 p]; exact Pad.absent_gone
  have hdraw : (clearPad 1 (clearPad 0 s)).nextAllocFails = s.nextAllocFails := by rw [clearBoth_eq]; rfl
  refine ⟨fun cfgs hcfgs hd hf => ?_, fun c1 ty m hi hn hd hf => ?_⟩
  · obtain ⟨t, ht, hrest⟩ := setupPadSteps_fails_gone (hdraw ▸ hf) (hcleared 0)
    have hv0 := (setupPadSteps_fails 0 c0 e s hf).1
    obtain ⟨hexec, hgone⟩ : exec (.lifeCreate cfgs) s = .next (ret (.error e) t) ∧
        ∀ p, t.live p = false ∧ (t.pad p).sink = none := by
      rcases hcfgs with rfl | ⟨c1, h1, rfl⟩
      · exact exec_lifeCreate_error hc (by simp) (by simpa using hv0) hd (setupPads_of_first_error ht)
      · exact exec_lifeCreate_error hc (by simp) (by simpa [hv0] using (cfgInRange_iff c1).mp h1) hd
          (setupPads_of_first_error ht)
    rw [clearBoth_eq] at hrest
    exact ⟨_, hexec, by rw [hrest]; rfl, hgone⟩
  · obtain ⟨t, ht, hinstalled, hpads⟩ := setupPadSteps_installed (c := (c0, ty, m)) 0 hi (hdraw.trans hn)
    have hgone1 : (t.pad 1).gone := by rw [pad_of_pads_set hpads]; exact hcleared 1
    have hdraw1 : t.nextAllocFails = (drawAlloc s).nextAllocFails := by
      rw [hinstalled.nextAllocFails, clearBoth_eq]; rfl
    have hfails : setupFails 1 c1 t.nextAllocFails e := hdraw1 ▸ hf
    obtain ⟨u, hu, hrest⟩ := setupPadSteps_fails_gone hfails hgone1
    have hv0 := (cfgInstalls_ok 0 c0 ty m hi).1
    have hv1 := (setupPadSteps_fails 1 c1 e t hfails).1
    obtain ⟨hexec, hgone⟩ := exec_lifeCreate_error hc (by simp) (by simp [hv0, hv1]) hd
      (setupPads_of_second_error ht hu)
    have hsink : (u.pad 0).sink = some (clearPad 1 (clearPad 0 s)).freshSink := by
      rw [pad_congr t u (by rw [hrest]), pad_of_pads_set hpads]; rfl
    refine ⟨_, (clearPad 1 (clearPad 0 s)).freshSink, hexec, ?_, fun hw n => ?_, hgone⟩
    · rw [retirePad_eq, hsink, hrest, hinstalled.rest_of_cleared]
      simp [ret]
    · rw [ret_pins, retirePad_eq, hrest]
      simpa using (hinstalled.pins_of_cleared hw).2 n

/-! ### Destroy (R108, R26, R39) -/

/-- LIFE.DESTROY tears down what the drain of the disarmed block leaves (R108). -/
theorem exec_lifeDestroy_of (hc : s.created = true) (hd : drain (setArmed .idle s) = .next t) :
    exec .lifeDestroy s = .next (ret .done (teardown t)) := by
  rw [exec, execLifeDestroy, whenCreated_of _ _ hc, hd, andThen_next]

/-- A pad of the invariant that is not live holds no sink (R13, R108). -/
theorem State.Inv.sink_of_not_live (h : s.Inv) {p : PadIx} (hl : s.live p = false) : (s.pad p).sink = none := by
  simpa [hl] using h.sinkWhenLive p

/-- The sink of a pad after the teardown: released where the pad was live (R108). -/
theorem sink_teardown (s : State) (p : PadIx) (h : s.live p = false → (s.pad p).sink = none) :
    ((teardown s).pad p).sink = none := by
  rw [(teardown_spec s).2.1 p]
  cases hl : s.live p with
  | true => rfl
  | false => exact h hl

/-- Settles O53: with no pass running the drain does nothing and the teardown is its own law; while a pass runs the invariant
brings the walk to its end, and a pad that is not live holds no sink. -/
theorem destroyReleasesEverything : Obligations.DestroyReleasesEverything := by
  unfold Obligations.DestroyReleasesEverything
  intro s hc
  refine ⟨fun hi => ?_, fun hinv hpass => ?_⟩
  · obtain ⟨hrest, -, hlog⟩ := teardown_spec (setArmed .idle s)
    refine ⟨_, exec_lifeDestroy_of hc (drain_idle _ hi), ?_, fun p => ⟨live_teardown _ p, fun hl => ?_⟩, hlog⟩
    · rw [hrest]; rfl
    · exact sink_teardown (setArmed .idle s) p fun hn => absurd (hl.symm.trans hn) (by simp)
  · obtain ⟨t, ht, -, hended, hkept⟩ := passMoves_withSched_finish hinv s.count .idle s.mutex
    have hdrain : drain (setArmed .idle s) = .next t := (drain_pass (setArmed .idle s) hpass).trans ht
    obtain ⟨hrest, -, -⟩ := teardown_spec t
    have hsink : ∀ p, t.live p = false → (t.pad p).sink = none := fun p hl => by
      rw [pad_congr _ t hkept.pads]
      exact hinv.sink_of_not_live ((hkept.live p).symm.trans hl)
    refine ⟨t, _, ht, exec_lifeDestroy_of hc hdrain, rfl, ?_, ?_, ?_, ?_,
      fun p => ⟨live_teardown t p, sink_teardown t p (hsink p)⟩, ?_⟩ <;> rw [hrest]
    · exact hended
    · exact hkept.armed
    · rfl
    · rfl
    · rfl

end Sys2Proof.Machine
end

section
/-! PROOFS of the statements about errors and refusals (60_exceptions.md): a create that returns an error leaves nothing
active (R121), what a create is refused for (R125), what runs without an AcquisitionSet (R125, R26), the attach that is
interrupted (R123), and the two failures of the setup of one pad (R121, R122). -/
namespace Sys2Proof.Machine

variable {s : State}

/-! ### A create that returns an error (R107, R121) -/

/-- A create that handed back an error ended in the error of its setup, on the state the setup left (R107, R128). -/
theorem createResult_of_error {r : Option Error × State} {e : Error} (hkept : r.2.results = s.results)
    (h : (createResult s r).results = s.results ++ [.error e]) :
    r.1 = some e ∧ createResult s r = ret (.error e) r.2 := by
  obtain ⟨failure, u⟩ := r
  cases failure with
  | none =>
    have hresults : (createResult s (none, u)).results = s.results ++ [.created] := by
      rw [← hkept]; simp [createResult, startHistories, finishCreate_eq]
    simp [hresults] at h
  | some d =>
    have hresults : (createResult s (some d, u)).results = s.results ++ [.error d] := by rw [← hkept]; rfl
    obtain rfl : d = e := by simpa [hresults] using h
    exact ⟨rfl, rfl⟩

/-- Settles O51: the error is the setup's, and the setup of a create's pads that fails leaves both pads gone and, but for
the pads, their pins' directions and pulls, the sinks and the draws, the state as it was. -/
theorem failedCreateLeavesNothingActive : Obligations.FailedCreateLeavesNothingActive := by
  unfold Obligations.FailedCreateLeavesNothingActive
  intro cfgs e s t h hresults
  obtain ⟨hc, -, hv, -, rfl⟩ := create_next cfgs s t h
  obtain ⟨hsetup, hgone, -⟩ := createPads_spec cfgs s hv
  obtain ⟨hfailed, hend⟩ := createResult_of_error (by rw [hsetup.rest]) hresults
  have hpads := fun p => not_live_of_gone (hgone (by simp [hfailed]) p)
  rw [hend]
  refine ⟨?_, hpads, ?_, ?_, ?_, ?_, ?_, ?_, hsetup.wire⟩ <;> rw [hsetup.rest]
  · exact hc
  all_goals rfl

/-! ### What a create is refused for (R107, R125, R152) -/

/-- LIFE.CREATE of at most two configurations with no set existing decides by the identifiers, then by the conflicts (R125;
log 17). -/
theorem exec_lifeCreate_checks {cfgs : List PadCfg} (hc : s.created = false) (hlen : cfgs.length ≤ 2) :
    exec (.lifeCreate cfgs) s =
      if cfgs.all cfgPinsValid then
        if createPinsDiffer s.linkPins cfgs then
          .next (createResult s (setupPads cfgs (clearPad 1 (clearPad 0 s))))
        else .refused .pinConflict
      else .refused .pinInvalid := by
  simp [exec, execLifeCreate, hc, Nat.not_lt.mpr hlen]

/-- Settles O52: each refusal is the first check of the operation that fails. -/
theorem createRefusals : Obligations.CreateRefusals := by
  unfold Obligations.CreateRefusals
  intro cfgs s
  refine ⟨fun hc => ?_, fun hc hlen => ?_, fun hc hlen hbad => ?_, fun hc hlen hrange hconflict => ?_⟩
  · rw [exec, execLifeCreate, if_pos hc]
  · rw [exec, execLifeCreate, if_neg (by simp [hc]), if_pos hlen]
  · obtain ⟨c, hmem, hout⟩ := hbad
    have hinvalid : ¬ cfgs.all cfgPinsValid = true := fun h =>
      hout ((cfgInRange_iff c).mpr (List.all_eq_true.mp h c hmem))
    rw [exec_lifeCreate_checks hc hlen, if_neg hinvalid]
  · have hvalid : cfgs.all cfgPinsValid = true :=
      List.all_eq_true.mpr fun c hmem => (cfgInRange_iff c).mp (hrange c hmem)
    have hequal : ¬ createPinsDiffer s.linkPins cfgs = true := fun h =>
      (createPinsDiffer_iff s.linkPins cfgs hlen).mp h hconflict
    rw [exec_lifeCreate_checks hc hlen, if_pos hvalid, if_neg hequal]

/-! ### Without an AcquisitionSet (R26, R125) -/

/-- An operation that looks at the link first and then for a set is refused without one (R125, log 15). -/
theorem whenLinkReady_whenCreated_of_not (f : State → Out) (hc : s.created = false) :
    whenLinkReady s (fun s => whenCreated s f) = .refused .notCreated ∨
      whenLinkReady s (fun s => whenCreated s f) = .refused .linkNotInitialised := by
  cases hr : s.linkReady with
  | true => exact .inl (by rw [whenLinkReady_of _ _ hr, whenCreated_of_not _ _ hc])
  | false => exact .inr (whenLinkReady_of_not _ _ hr)

/-- Settles O54: three operations are set aside, three look at the link before the set, every other one begins with
`whenCreated`, whose guard `if s.created` is the refusal. -/
theorem nothingRunsBeforeCreate : Obligations.NothingRunsBeforeCreate := by
  unfold Obligations.NothingRunsBeforeCreate
  intro i s hc hlinkcfg hsetup hcreate
  have hguard : ¬ s.created = true := by simp [hc]
  cases i with
  | setupLinkcfg a b c d => exact absurd rfl (hlinkcfg a b c d)
  | setupPad p c => exact absurd rfl (hsetup p c)
  | lifeCreate c => exact absurd rfl (hcreate c)
  | linkBit b => exact (whenLinkReady_whenCreated_of_not _ hc).imp_right fun h => ⟨h, .inl ⟨b, rfl⟩⟩
  | linkByte v => exact (whenLinkReady_whenCreated_of_not _ hc).imp_right fun h => ⟨h, .inr (.inl ⟨v, rfl⟩)⟩
  | linkXfer n tx => exact (whenLinkReady_whenCreated_of_not _ hc).imp_right fun h => ⟨h, .inr (.inr ⟨n, tx, rfl⟩)⟩
  | _ => exact .inl (if_neg hguard)

/-! ### The attach that is interrupted (R103, R123) -/

/-- An interrupted LIFE.ATTACH hands back the error, whether the mutex is free or held (R103, R123). -/
theorem exec_lifeAttach_interrupted (p : PadIx) (hc : s.created = true) (hn : s.nextInterrupted = true) :
    exec (.lifeAttach p) s = .next (attachInterrupted s) := by
  rw [exec, execLifeAttach, whenCreated_of _ _ hc, hn]
  cases s.mutex <;> rfl

/-- Settles O39: the interruption uses up its draw and hands back its error. -/
theorem interruptedAttachChangesNothing : Obligations.InterruptedAttachChangesNothing := by
  unfold Obligations.InterruptedAttachChangesNothing
  intro p s hc hn
  rw [exec_lifeAttach_interrupted p hc hn]
  rfl

/-! ### The setup of a pad that fails (R106, R121, R122, R128) -/

/-- Settles O46: a rejected configuration ends the setup at its checks, and the pad is retired. -/
theorem badConfigurationIsReported : Obligations.BadConfigurationIsReported := by
  unfold Obligations.BadConfigurationIsReported
  intro p cfg e s hc hrejected
  rw [exec_setupPad_of hc (cfgRejected_error p cfg e hrejected).1, setupPadSteps_rejected p cfg e s hrejected, retirePad_eq]
  rfl

/-- A configuration of a fixed type, or a Custom one of twelve entries, passes the checks of type and length (R106). -/
theorem checkCfg_ok_of (p : PadIx) {cfg : PadCfg}
    (h : cfg.type = .fixedMapA ∨ cfg.type = .fixedMapB ∨ cfg.type = .custom ∧ cfg.pinMap.length = 12) :
    ∃ r, checkCfg p cfg = .ok r := by
  rcases h with h | h | ⟨h, hlen⟩
  · exact ⟨_, by rw [checkCfg, h]⟩
  · exact ⟨_, by rw [checkCfg, h]⟩
  · exact ⟨_, by rw [checkCfg, h]; exact if_pos hlen⟩

/-- A configuration that passes the checks, with a sink allocation that fails, retires the pad (R106, R122). -/
theorem setupPadSteps_exhausted {p : PadIx} {cfg : PadCfg} {r : PadType × Vector PinRef 12}
    (hr : checkCfg p cfg = .ok r) (hn : s.nextAllocFails = true) :
    setupPadSteps p cfg s = (some (.resourceExhaustion p), retirePad p (drawAlloc s)) := by
  simp [setupPadSteps, hr, hn]

/-- Settles O47: the checks pass, the allocation's draw is used up, and the pad is retired. -/
theorem failedAllocationIsReported : Obligations.FailedAllocationIsReported := by
  unfold Obligations.FailedAllocationIsReported
  intro p cfg s hc hn hcfg
  have hrange : cfgInRange cfg := fun hcustom => by
    obtain ⟨-, hids⟩ : cfg.pinMap.length = 12 ∧ ∀ n ∈ cfg.pinMap, -1 ≤ n ∧ n ≤ (Config.pinMax : Int) := by
      simpa [hcustom] using hcfg
    exact hids
  obtain ⟨r, hr⟩ := checkCfg_ok_of p (hcfg.imp_right (.imp_right fun ⟨h, hlen, _⟩ => ⟨h, hlen⟩))
  rw [exec_setupPad_of hc ((cfgInRange_iff cfg).mp hrange), setupPadSteps_exhausted hr hn, retirePad_eq]
  rfl

end Sys2Proof.Machine
end

section
/-! PROOFS of the statements about reset and hazards (70_reset_and_hazards.md): an operation on an existing set, other than
destroy, keeps the configuration, read off from the forms of answer (R142); and an override followed by an empty create
reaches reset (R141). -/
namespace Sys2Proof.Machine

variable {s t u : State}

/-! ### The configuration of an existing set (R41, R142) -/

/-- The pads' and the link's configuration is the same in both states. -/
structure SameConfig (s t : State) : Prop where
  pads : t.pads = s.pads
  linkcfg : t.linkcfg = s.linkcfg
  linkcfgSet : t.linkcfgSet = s.linkcfgSet

theorem SameConfig.trans (h : SameConfig s t) (k : SameConfig t u) : SameConfig s u :=
  ⟨k.pads.trans h.pads, k.linkcfg.trans h.linkcfg, k.linkcfgSet.trans h.linkcfgSet⟩

/-- Handing a result back configures nothing. -/
theorem SameConfig.ret (h : SameConfig s t) (r : Result) : SameConfig s (ret r t) := ⟨h.pads, h.linkcfg, h.linkcfgSet⟩

theorem Kept.sameConfig (h : Kept s t) : SameConfig s t := ⟨h.pads, h.linkcfg, h.linkcfgSet⟩

/-- A wait runs the rest of a pass, which configures nothing (R39, R103, R104). -/
theorem Waited.sameConfig (h : Waited s u) : SameConfig s u := by
  rcases h with rfl | ⟨v, hv, rfl⟩
  · exact ⟨rfl, rfl, rfl⟩
  · exact (kept_drain _ _ hv).sameConfig.trans ⟨rfl, rfl, rfl⟩

/-- The preparation of a pad's pins reads its map and writes no configuration (R82). -/
theorem sameConfig_preparePins (p : PadIx) (s : State) : SameConfig s (preparePins p s) := by
  obtain ⟨hsetUp, hpads⟩ := setUp_preparePins p s
  exact ⟨hpads, by rw [hsetUp.rest], by rw [hsetUp.rest]⟩

/-- Of the operations that answer on an existing set only destroy changes the configuration: the three that configure
answer without a set only (R41, R142). -/
theorem sameConfig_answered {i : Instr} (h : Answered s i t) (hc : s.created = true) (hi : i ≠ .lifeDestroy) :
    SameConfig s t := by
  cases h with
  | sampled _ hsampled => exact hsampled.kept.sameConfig.ret _
  | linkInit => rw [initLink_eq]; exact ⟨rfl, rfl, rfl⟩
  | digPull p => exact (sameConfig_preparePins p s).ret _
  | interrupted => exact ⟨rfl, rfl, rfl⟩
  | attached _ _ hwaited =>
    have hdrawn : SameConfig s (drawInterrupt s) := ⟨rfl, rfl, rfl⟩
    rw [countConsumer_eq]
    exact (hdrawn.trans hwaited.sameConfig).trans ⟨rfl, rfl, rfl⟩
  | detached _ _ hwaited => exact hwaited.sameConfig.trans ⟨rfl, rfl, rfl⟩
  | @lastDetached w _ _ _ hwaited _ hdrained =>
    have hlocked : SameConfig w (withSched 0 .idle .held w) := ⟨rfl, rfl, rfl⟩
    exact ((hwaited.sameConfig.trans hlocked).trans (kept_drain _ _ hdrained).sameConfig).trans ⟨rfl, rfl, rfl⟩
  | linkcfg _ _ _ _ hnot | setupPad _ _ hnot | create _ hnot => exact absurd (hc.symm.trans hnot) (by simp)
  | destroyed => exact absurd rfl hi

/-- Settles O55: every form of answer on an existing set, but for destroy's, keeps the configuration. -/
theorem configurationIsImmutable : Obligations.ConfigurationIsImmutable := by
  unfold Obligations.ConfigurationIsImmutable
  intro i s t hc hi h
  obtain ⟨hpads, hlinkcfg, hset⟩ := sameConfig_answered (exec_answered h) hc hi
  exact ⟨hpads, hlinkcfg, hset⟩

/-! ### Reset is what a create leaves (R25, R107, R141) -/

/-- Four different link pins conflict with no configuration (R125). -/
theorem not_pinConflict_nil {l : LinkPins} (h : l.distinct = true) : ¬ pinConflict l [] := by
  obtain ⟨h1, h2, h3, h4, h5, h6⟩ := l.distinct_iff.mp h
  simp [pinConflict, h1, h2, h3, h4, h5, h6]

/-- The empty create with four different link pins ends on the two cleared pads, with no error (R107). -/
theorem exec_lifeCreate_nil (hc : s.created = false) (hd : s.linkPins.distinct = true) :
    exec (.lifeCreate []) s = .next (createResult s (none, clearPad 1 (clearPad 0 s))) :=
  exec_lifeCreate_of hc (Nat.zero_le _) (by simp) (not_pinConflict_nil hd)

/-- Power-on once the link pins were overridden by `l` (R26, R105). -/
def State.overridden (l : LinkPins) : State :=
  { State.powerOn with linkcfg := l, linkcfgSet := true, results := [.done] }

/-- The override of the link pins by valid pins is taken from power-on (R105). -/
theorem exec_setupLinkcfg_powerOn {l : LinkPins} (hclk : l.clk ≤ Config.pinMax) (hdout : l.dout ≤ Config.pinMax)
    (hdin : l.din ≤ Config.pinMax) (hsel : l.sel ≤ Config.pinMax) :
    exec (.setupLinkcfg l.clk l.dout l.din l.sel) State.powerOn = .next (.overridden l) :=
  (linkcfgOverriddenOnce State.powerOn).1 l.clk l.dout l.din l.sel rfl rfl hclk hdout hdin hsel

/-- Settles O48: the override is taken, and the empty create on it leaves the reset table with its link pins. -/
theorem createReachesReset : Obligations.CreateReachesReset := by
  unfold Obligations.CreateReachesReset
  intro clk dout din sel hclk hdout hdin hsel hd l
  have hoverride : exec (.setupLinkcfg clk dout din sel) State.powerOn = .next (.overridden l) :=
    exec_setupLinkcfg_powerOn (l := l) hclk hdout hdin hsel
  rw [hoverride, andThen_next, exec_lifeCreate_nil (s := .overridden l) rfl hd, createResult_installed (.nil _),
    clearBoth_eq]
  rfl

end Sys2Proof.Machine
end
